-- ==== Sys2Proof/Word.lean ====
section
/-! DEFINITION. Word types of the block: the widths of spec/00_scope.md R10 and the two-valued
fields of 10_state.md and 20_memory.md. -/

namespace Sys2Proof

/-- An 8-bit value: a duty, a rate, a percent, a polarity operand, a pin id, a counter (R10). -/
abbrev Byte := BitVec 8

/-- A 16-bit fade duration in milliseconds (R10, R72). -/
abbrev Duration := BitVec 16

/-- One command word, format C48 (R70). -/
abbrev Command := BitVec 48

/-- A list link or record index (R27). -/
abbrev Link := BitVec 8

/-- The link value NONE = 0xFF, "no record" (R12, R27). -/
def noLink : Link := 0xFF

/-- The pin field value 0xFF: the wildcard ALL in a command (R70, R72), "unassigned" in a record (R22). -/
def allPins : Byte := 0xFF

/-- A polarity, R23: 0 = normal, 1 = inverted. -/
inductive Polarity where
  | normal
  | inverted
  deriving DecidableEq, Repr, Inhabited

/-- The 1-bit encoding of R23. -/
def Polarity.toBit : Polarity → BitVec 1
  | .normal => 0
  | .inverted => 1

/-- A pin level, R41 and R55: 1 (high) or 0 (low). -/
inductive Level where
  | low
  | high
  deriving DecidableEq, Repr, Inhabited

/-- A pin direction, R12 and R56: INPUT = 0, OUTPUT = 1. -/
inductive Direction where
  | input
  | output
  deriving DecidableEq, Repr, Inhabited

/-- The two intrusive lists over the pool, R28 and R30. -/
inductive ListId where
  | free
  | active
  deriving DecidableEq, Repr

/-- The result codes of R35. -/
inductive ResultCode where
  | ok
  | argAdjusted
  | unknownPin
  | invalidPin
  | poolExhausted
  | notArmed
  | illegalCommand
  deriving DecidableEq, Repr

/-- The code numbers of R35. -/
def ResultCode.toByte : ResultCode → Byte
  | .ok => 0
  | .argAdjusted => 1
  | .unknownPin => 2
  | .invalidPin => 3
  | .poolExhausted => 4
  | .notArmed => 5
  | .illegalCommand => 6

end Sys2Proof
end

