-- ==== Sys2Proof/Syntax.lean ====
section
/-! DEFINITION. The commands of the block, spec/30_encoding.md R70 to R74 and
spec/opcode_table.json: one constructor per row. -/

namespace Sys2Proof

/-- The pin operand `p` (R72, R79): a pin id 0x00..0xFE, or the wildcard ALL (field value 0xFF). -/
inductive PinArg where
  | pin (id : Byte)
  | all
  deriving DecidableEq, Repr

/-- The value of the pin field, `w[39:32]`: 0xFF for ALL (R70, R79). -/
def PinArg.field : PinArg → Byte
  | .pin id => id
  | .all => allPins

/-- One command (R73, R74), its operands as R72 lists them. -/
inductive Instr where
  /-- NOP, op 0x0 (41_registry.md R130). -/
  | nop
  /-- BEGIN polraw, op 0x1 (R131). -/
  | begin (polraw : Byte)
  /-- SET p, value [, IMM], op 0x2 (R132). -/
  | set (p : PinArg) (value : Byte) (imm : Bool)
  /-- SET_PERCENT p, percent [, IMM], op 0x3 (R133). -/
  | setPercent (p : PinArg) (percent : Byte) (imm : Bool)
  /-- SET_FADE p, up_ms, down_ms, op 0x4 (R134). -/
  | setFade (p : PinArg) (upMs downMs : Duration)
  /-- SET_POLARITY p, polraw, op 0x5 (R135). -/
  | setPolarity (p : PinArg) (polraw : Byte)
  /-- END p, op 0x6 (R136). -/
  | endChannel (p : PinArg)
  /-- QUERY p, op 0x7 (R137). -/
  | query (p : PinArg)
  deriving DecidableEq, Repr

end Sys2Proof
end

