-- ==== Sys2Proof/WellFormed.lean ====
section
/-! DEFINITION. Which terms of Instr are commands, spec/30_encoding.md R72 and R79: a pin id is
0x00..0xFE, because the field value 0xFF is ALL. Every other operand range of R72 is its bit width. -/

namespace Sys2Proof

/-- A pin operand is ALL or a pin id other than 0xFF (R72, R79). -/
def PinArg.wellFormed : PinArg → Bool
  | .pin id => decide (id ≠ allPins)
  | .all => true

/-- The operands are ones the assembly syntax admits (R79). -/
def Instr.wellFormed : Instr → Bool
  | .nop => true
  | .begin _ => true
  | .set p _ _ => p.wellFormed
  | .setPercent p _ _ => p.wellFormed
  | .setFade p _ _ => p.wellFormed
  | .setPolarity p _ => p.wellFormed
  | .endChannel p => p.wellFormed
  | .query p => p.wellFormed

end Sys2Proof
end

