-- ==== Sys2Proof/Decode.lean ====
section
/-! DEFINITION. Field extraction, decoder and encoder of spec/30_encoding.md R70 to R78, and the
pseudo-instructions of R80. The command word is one parallel 48-bit word: there is no byte order (R58). -/

namespace Sys2Proof

/-- Why a word is illegal (R75). -/
inductive Reject where
  /-- `op` is 0x8..0xF (R73, R75, R77). -/
  | reservedOpcode
  /-- A must-be-zero field of R74 is not zero (R75, R76). -/
  | mustBeZero
  deriving DecidableEq, Repr

/-- `op = w[47:44]` (R71). -/
def opField (w : Command) : BitVec 4 := w.extractLsb' 44 4
/-- `rsv = w[43:41]` (R71). -/
def rsvField (w : Command) : BitVec 3 := w.extractLsb' 41 3
/-- `imm = w[40]` (R71). -/
def immField (w : Command) : BitVec 1 := w.extractLsb' 40 1
/-- `pin = w[39:32]` (R71). -/
def pinField (w : Command) : Byte := w.extractLsb' 32 8
/-- `A = w[31:16]` (R71). -/
def aField (w : Command) : Duration := w.extractLsb' 16 16
/-- `B = w[15:0]` (R71). -/
def bField (w : Command) : Duration := w.extractLsb' 0 16
/-- `B[15:8]`, a must-be-zero field of the commands with an 8-bit operand (R74). -/
def bHighField (w : Command) : Byte := w.extractLsb' 8 8
/-- `B[7:0]`, the 8-bit operand of R72. -/
def bLowField (w : Command) : Byte := w.extractLsb' 0 8

/-- The pin operand a pin field spells: 0xFF is ALL (R70, R72). -/
def pinArgOf (b : Byte) : PinArg := if b = allPins then .all else .pin b

/-- The instruction when the must-be-zero fields are zero, else the refusal of R75. -/
def checkZero (zero : Bool) (i : Instr) : Except Reject Instr :=
  if zero then .ok i else .error .mustBeZero

/-- The decoder, R71 to R76, total on every word: the patterns of R74 by `op`. -/
def decode (w : Command) : Except Reject Instr :=
  if opField w = 0x0 then
    checkZero (w == 0) .nop
  else if opField w = 0x1 then
    checkZero (rsvField w == 0 && immField w == 0 && pinField w == 0 && aField w == 0
      && bHighField w == 0) (.begin (bLowField w))
  else if opField w = 0x2 then
    checkZero (rsvField w == 0 && aField w == 0 && bHighField w == 0)
      (.set (pinArgOf (pinField w)) (bLowField w) (immField w == 1))
  else if opField w = 0x3 then
    checkZero (rsvField w == 0 && aField w == 0 && bHighField w == 0)
      (.setPercent (pinArgOf (pinField w)) (bLowField w) (immField w == 1))
  else if opField w = 0x4 then
    checkZero (rsvField w == 0 && immField w == 0)
      (.setFade (pinArgOf (pinField w)) (aField w) (bField w))
  else if opField w = 0x5 then
    checkZero (rsvField w == 0 && immField w == 0 && aField w == 0 && bHighField w == 0)
      (.setPolarity (pinArgOf (pinField w)) (bLowField w))
  else if opField w = 0x6 then
    checkZero (rsvField w == 0 && immField w == 0 && aField w == 0 && bField w == 0)
      (.endChannel (pinArgOf (pinField w)))
  else if opField w = 0x7 then
    checkZero (rsvField w == 0 && immField w == 0 && aField w == 0 && bField w == 0)
      (.query (pinArgOf (pinField w)))
  else
    .error .reservedOpcode

/-- A command word from its fields (R70): op, imm, pin, A, B, with `rsv` zero. -/
def packFields (op : BitVec 4) (imm : Bool) (pin : Byte) (a b : Duration) : Command :=
  op ++ (0 : BitVec 3) ++ BitVec.ofBool imm ++ pin ++ a ++ b

/-- The encoder, R70 to R74. -/
def encode : Instr → Command
  | .nop => packFields 0x0 false 0 0 0
  | .begin polraw => packFields 0x1 false 0 0 (polraw.zeroExtend 16)
  | .set p value imm => packFields 0x2 imm p.field 0 (value.zeroExtend 16)
  | .setPercent p percent imm => packFields 0x3 imm p.field 0 (percent.zeroExtend 16)
  | .setFade p upMs downMs => packFields 0x4 false p.field upMs downMs
  | .setPolarity p polraw => packFields 0x5 false p.field 0 (polraw.zeroExtend 16)
  | .endChannel p => packFields 0x6 false p.field 0 0
  | .query p => packFields 0x7 false p.field 0 0

/-- One row of the table of R74: the word `w` spells the row's mnemonic exactly when
`(w & mask) = pattern`. -/
structure OpcodeRow where
  mnemonic : String
  pattern : Command
  mask : Command
  deriving DecidableEq, Repr

/-- Whether a word spells a row's mnemonic (R74). -/
def OpcodeRow.spells (r : OpcodeRow) (w : Command) : Bool := (w &&& r.mask) == r.pattern

/-- The match and mask table of R74, as it stands in spec/opcode_table.json. -/
def opcodeRows : List OpcodeRow :=
  [ ⟨"NOP",          0x000000000000#48, 0xFFFFFFFFFFFF#48⟩,
    ⟨"BEGIN",        0x100000000000#48, 0xFFFFFFFFFF00#48⟩,
    ⟨"SET",          0x200000000000#48, 0xFE00FFFFFF00#48⟩,
    ⟨"SET_PERCENT",  0x300000000000#48, 0xFE00FFFFFF00#48⟩,
    ⟨"SET_FADE",     0x400000000000#48, 0xFF0000000000#48⟩,
    ⟨"SET_POLARITY", 0x500000000000#48, 0xFF00FFFFFF00#48⟩,
    ⟨"END",          0x600000000000#48, 0xFF00FFFFFFFF#48⟩,
    ⟨"QUERY",        0x700000000000#48, 0xFF00FFFFFFFF#48⟩ ]

/-- The mnemonic of an instruction (R73). -/
def Instr.mnemonic : Instr → String
  | .nop => "NOP"
  | .begin _ => "BEGIN"
  | .set _ _ _ => "SET"
  | .setPercent _ _ _ => "SET_PERCENT"
  | .setFade _ _ _ => "SET_FADE"
  | .setPolarity _ _ => "SET_POLARITY"
  | .endChannel _ => "END"
  | .query _ => "QUERY"

/-- The 48-bit word of a table row's bits (R70, R78): `nbits` bits of `w`, every bit above them zero. -/
def commandOfTableWord (nbits w : Nat) : Command := BitVec.ofNat 48 (w % 2 ^ nbits)

/-- The instruction the decoder reads from an instruction whose bits are `w`, bit 0 least
significant (R11, R70). -/
def decodeTableWord (nbits w : Nat) : Option Instr :=
  match decode (commandOfTableWord nbits w) with
  | .ok i => some i
  | .error _ => none

/-- The pseudo-instructions of R80. -/
inductive Pseudo where
  | setAll (value : Byte) (imm : Bool)
  | setPercentAll (percent : Byte) (imm : Bool)
  | fadeAll (upMs downMs : Duration)
  | invert (p : PinArg)
  | normal (p : PinArg)
  | off (p : PinArg)
  | full (p : PinArg)
  deriving DecidableEq, Repr

/-- The expansions of R80. -/
def Pseudo.expand : Pseudo → Instr
  | .setAll value imm => .set .all value imm
  | .setPercentAll percent imm => .setPercent .all percent imm
  | .fadeAll upMs downMs => .setFade .all upMs downMs
  | .invert p => .setPolarity p 1
  | .normal p => .setPolarity p 0
  | .off p => .set p 0 false
  | .full p => .set p 255 false

end Sys2Proof
end

