-- ==== Sys2Proof/Config.lean ====
section
/-! DEFINITION. The implementation parameters of spec/00_scope.md R8 and R9 as plain data, and the
free values of what the spec leaves open (opaque constants: nothing can be proved of their value). -/

namespace Sys2Proof

/-- One entry of PIN_MAP: pin id, output-register address, one-hot mask (R8, R9). -/
structure PinEntry where
  pin : Byte
  reg : Nat
  mask : Nat
  deriving DecidableEq, Repr

/-- The parameters of R8. PIN_MAP is the list of its entries. -/
structure Params where
  nCh : Nat
  cyclePeriodMs : Nat
  outAddrW : Nat
  outRegW : Nat
  pinMap : List PinEntry
  deriving DecidableEq, Repr

namespace Params

/-- PIN_MAP(p) (R8): the (address, mask) of a pin the map defines, none where it is undefined. -/
def pinOf (P : Params) (p : Byte) : Option (Nat × Nat) :=
  (P.pinMap.find? (fun e => e.pin == p)).map (fun e => (e.reg, e.mask))

/-- A pin id is valid when PIN_MAP defines it (R9). -/
def validPin (P : Params) (p : Byte) : Bool := (P.pinOf p).isSome

/-- A mask of `w` bits with exactly one bit set (R9). -/
def oneHot (w m : Nat) : Bool := (List.range w).any (fun i => m == 2 ^ i)

/-- One entry obeys R9: address and mask fit, the mask is one-hot, and the pin is not 0xFF. -/
def entryLegal (P : Params) (e : PinEntry) : Bool :=
  decide (e.reg < 2 ^ P.outAddrW) && oneHot P.outRegW e.mask && decide (e.pin ≠ allPins)

/-- No entry of the list has the same pin or the same (address, mask) as another: PIN_MAP is a
function and is injective (R9). -/
def entriesDistinct : List PinEntry → Bool
  | [] => true
  | e :: es =>
    es.all (fun f => decide (e.pin ≠ f.pin) && decide ((e.reg, e.mask) ≠ (f.reg, f.mask)))
      && entriesDistinct es

/-- The parameter is one the spec covers: the ranges of R8 and the PIN_MAP conditions of R9
(93_implementation_defined.md I2 refuses any other). -/
def legal (P : Params) : Bool :=
  decide (1 ≤ P.nCh) && decide (P.nCh ≤ 255) && decide (1 ≤ P.cyclePeriodMs)
    && decide (1 ≤ P.outAddrW) && decide (1 ≤ P.outRegW)
    && P.pinMap.all P.entryLegal && entriesDistinct P.pinMap

/-- An address as port GPIO_OUT carries it: OUT_ADDR_W bits (R7, R11; log entry 11). -/
def addrBits (P : Params) (a : Nat) : Nat := a % 2 ^ P.outAddrW

/-- A mask as port GPIO_OUT carries it: OUT_REG_W bits (R7, R11; log entry 11). -/
def maskBits (P : Params) (m : Nat) : Nat := m % 2 ^ P.outRegW

end Params

namespace Config

/-- The PIN_MAP entries of the test configuration, 95_test_vectors.md section 0: pins 0 to 7 on
register 0x10, pins 8 to 15 on register 0x11. -/
def testPinMap : List PinEntry :=
  (List.range 8).map (fun i => ⟨BitVec.ofNat 8 i, 0x10, 2 ^ i⟩)
    ++ (List.range 8).map (fun i => ⟨BitVec.ofNat 8 (8 + i), 0x11, 2 ^ i⟩)

/-- The parameters that State.reset carries: the spec's own TEST configuration (95_test_vectors.md
section 0). DESIGN CHOICE, unsafe (log entry 4): the spec gives no value (R8). Nothing but
State.reset uses it. -/
def params : Params :=
  { nCh := 3, cyclePeriodMs := 16, outAddrW := 8, outRegW := 8, pinMap := testPinMap }

/-- Free value (I1, R41): the bits of OUT[a] that the block has not written since the `n`-th reset.
DESIGN CHOICE of form, safe (log entry 6). -/
opaque outAtReset : Nat → Nat → Nat

/-- Free value (I1, R41): the direction of a pin the block has not written since the `n`-th reset.
DESIGN CHOICE of form, safe (log entry 7). -/
opaque dirAtReset : Nat → Byte → Direction

/-- Free value (I3, R53, R214): whether the command goes first when a command and a TICK are ready
together, for the `n`-th such arrival. DESIGN CHOICE of form, safe (log entry 2). -/
opaque commandFirst : Nat → Bool

end Config

end Sys2Proof
end

