-- ==== Sys2Proof/Machine/Pool.lean ====
section
/-! DEFINITION. The channel record and the contents of the pool after PoolInit,
spec/10_state.md R21 to R27 and 40_pool.md R100, R104, R106. -/

namespace Sys2Proof

namespace Machine

/-- One channel record `ch[c]` (R21). `reg` and `mask` hold OUT_ADDR_W and OUT_REG_W bits, widths
that are parameters, so they are natural numbers. -/
structure Channel where
  pin : Byte
  pol : Polarity
  reg : Nat
  mask : Nat
  target : Byte
  current : Byte
  up : Byte
  down : Byte
  next : Link
  prev : Link
  deriving DecidableEq, Repr, Inhabited

/-- `r` with the reset value of R21 in every field but the links (R106). -/
def Channel.resetFields (r : Channel) : Channel :=
  { r with
    pin := 0xFF, pol := .normal, reg := 0, mask := 0,
    target := 0, current := 0, up := 0, down := 0 }

/-- Record `c` of `n` after PoolInit (R104): reset fields, `prev` = c-1 or NONE for the first,
`next` = c+1 or NONE for the last. -/
def initialChannel (n c : Nat) : Channel :=
  { pin := 0xFF, pol := .normal, reg := 0, mask := 0,
    target := 0, current := 0, up := 0, down := 0,
    next := if c + 1 = n then noLink else BitVec.ofNat 8 (c + 1),
    prev := if c = 0 then noLink else BitVec.ofNat 8 (c - 1) }

/-- The pool after PoolInit (R104): `n` records on FREE in index order. -/
def freshPool (n : Nat) : List Channel := (List.range n).map (initialChannel n)

end Machine

/-- Free value: what a record index that no record of the pool has reads as. No step from a
well-formed pool reads it (R28, 93_implementation_defined.md I11; log entry 9). -/
opaque Config.absentRecord : Nat → Machine.Channel

end Sys2Proof
end

