-- ==== Sys2Proof/Machine/State.lean ====
section
/-! DEFINITION. The state of the block and of its GPIO environment, spec/10_state.md, as plain data,
and the state after hardware reset (70_reset_and_hazards.md R240, 10_state.md R42). -/

namespace Sys2Proof.Machine

/-- What the block has written of one output register `OUT[a]` (R41, R55): the bits of `written`
have been written since the last reset and hold `levels`; the others are unspecified (I1). -/
structure OutReg where
  written : Nat
  levels : Nat
  deriving DecidableEq, Repr

/-- The one content of an unlisted output register: no bit of it has been written. -/
def OutReg.unwritten : OutReg := { written := 0, levels := 0 }

/-- One event the block emits (00_scope.md R7, R12). -/
inductive Output where
  /-- `GPIO_OUT`: GpioWrite(a, m, lvl) (R55). -/
  | gpioWrite (reg mask : Nat) (level : Level)
  /-- `GPIO_DIR`: PinDir(p, d) (R56). -/
  | pinDir (pin : Byte) (dir : Direction)
  /-- `TIMER_RESET`: TimerReset() (R12, R126). -/
  | timerReset
  deriving DecidableEq, Repr

/-- One event arriving at the block (R7). -/
inductive Input where
  /-- `CMD`: one command word (R70). -/
  | command (w : Command)
  /-- `TICK`: one timer tick (42_multiplexer.md R170). -/
  | tick
  /-- `RST`: hardware reset (R240). -/
  | reset
  /-- A command and a TICK ready at the same time: either may be taken first (R53, R214, I3). -/
  | together (w : Command)
  deriving DecidableEq, Repr

/-- The block, its parameters and its environment. See INVENTORY.md, heading State, for the rule of
each field. -/
structure State where
  /-- The parameters of R8; no step writes them. -/
  cfg : Params
  /-- The channel records (R20, R21). -/
  pool : List Channel
  /-- `free_head` (R30). -/
  freeHead : Link
  /-- `active_head` (R30). -/
  activeHead : Link
  /-- `tick_count` (R31). -/
  tickCount : Byte
  /-- `default_pol` (R32). -/
  defaultPol : Polarity
  /-- `armed`, also port TICK_ENABLE (R33). -/
  armed : Bool
  /-- `last_status` (R34). -/
  lastStatus : Byte
  /-- `resp`, port RESP (R36). -/
  resp : BitVec 48
  /-- The environment's OUT registers, as far as written (R41): addresses strictly rising, no entry unwritten. -/
  out : List (Nat × OutReg)
  /-- The environment's DIR, as far as written (R41), by pin number: strictly rising. -/
  dir : List (Nat × Direction)
  /-- The events emitted so far, oldest first (R252). -/
  trace : List Output
  /-- The MODEL's field: the events still to be taken, in their order (R53, R63; log entry 1). -/
  inputs : List Input
  /-- The MODEL's field: the number of RST events taken, argument of the free values at reset (log entry 18). -/
  resets : Nat
  /-- The MODEL's field: the number of simultaneous arrivals settled (log entry 18). -/
  arbitrations : Nat
  deriving DecidableEq, Repr

/-- There is no fault: the block raises no exception and has no trap mechanism (60_exceptions.md
R210), and every command and TICK has a next state. The type has no constructor. -/
inductive Fault where
  deriving DecidableEq, Repr

/-- Why a step is refused. -/
inductive Refusal where
  /-- An instruction whose meaning is not written. Raised by no arm of exec. Safe. -/
  | notModelled (mnemonic : String)
  /-- The parameters break R8 or R9: a model rejects them (93_implementation_defined.md I2). Raised
  by `step` only. Safe: the spec covers no such machine. -/
  | illegalParameters
  deriving DecidableEq, Repr

/-- The machine right after hardware reset with parameters `P` (R240, R42): nothing written to the
environment, nothing emitted, no event waiting. -/
def State.resetWith (P : Params) : State :=
  { cfg := P
    pool := freshPool P.nCh
    freeHead := 0
    activeHead := noLink
    tickCount := 0
    defaultPol := .normal
    armed := false
    lastStatus := 0
    resp := 0
    out := []
    dir := []
    trace := []
    inputs := []
    resets := 0
    arbitrations := 0 }

/-- The machine right after reset. The parameters are the spec's test configuration: DESIGN CHOICE,
unsafe (log entry 4). -/
def State.reset : State := State.resetWith Config.params

end Sys2Proof.Machine
end

