-- ==== Sys2Proof/Machine/Ops.lean ====
section
/-! DEFINITION. The named operations over the state: the GPIO environment (spec/20_memory.md R55, R56),
the records and the list primitives (40_pool.md), and how a command step ends (R12). -/

namespace Sys2Proof.Machine

/-! ### Sparse maps with strictly rising keys -/

/-- The entry at a key. -/
def storeGet {α : Type} : List (Nat × α) → Nat → Option α
  | [], _ => none
  | (a, v) :: rest, k => if k = a then some v else storeGet rest k

/-- The map with a key's entry replaced, or inserted in its place in the rising order. -/
def storePut {α : Type} : List (Nat × α) → Nat → α → List (Nat × α)
  | [], k, x => [(k, x)]
  | (a, v) :: rest, k, x =>
    if k < a then (k, x) :: (a, v) :: rest
    else if k = a then (k, x) :: rest
    else (a, v) :: storePut rest k x

/-- The keys are strictly rising: each is below every later one. -/
def storeSorted {α : Type} : List (Nat × α) → Bool
  | [] => true
  | (a, _) :: rest => rest.all (fun e => decide (a < e.1)) && storeSorted rest

/-! ### The GPIO output registers OUT -/

/-- `v & ~m` on natural numbers as bit sets. -/
def clearBits (v m : Nat) : Nat := v ^^^ (v &&& m)

/-- What the block has written of `OUT[a]`; an unlisted register holds nothing written (I1). -/
def outCell (mem : List (Nat × OutReg)) (a : Nat) : OutReg := (storeGet mem a).getD OutReg.unwritten

/-- `GpioWrite(a, m, lvl)` on OUT (R55): the bits of `m` in `OUT[a]` set or cleared, the others kept.
A write with an empty mask changes nothing. -/
def writeOut (mem : List (Nat × OutReg)) (a m : Nat) (lvl : Level) : List (Nat × OutReg) :=
  if m = 0 then mem
  else
    storePut mem a
      { written := (outCell mem a).written ||| m
        levels :=
          match lvl with
          | .high => (outCell mem a).levels ||| m
          | .low => clearBits (outCell mem a).levels m }

/-- The canonical form of OUT: addresses strictly rising, every entry has a written bit, and no level
bit stands outside the written bits. -/
def Memory.wf (mem : List (Nat × OutReg)) : Bool :=
  storeSorted mem && mem.all (fun e => decide (e.2.written ≠ 0) && decide (e.2.levels &&& e.2.written = e.2.levels))

/-- The register value `OUT[a]` (R41): written bits as written, the others the free value of I1. -/
def State.outReg (s : State) (a : Nat) : Nat :=
  (outCell s.out a).levels
    ||| clearBits (s.cfg.maskBits (Config.outAtReset s.resets a)) (outCell s.out a).written

/-- Bit `i` of `OUT[a]`, which GPIO writes set and clear (R41, R55). -/
def State.outBit (s : State) (a i : Nat) : Bool := (s.outReg a).testBit i

/-- The level of a valid pin (R41): high exactly when `OUT[a] & m ≠ 0` for `PIN_MAP(p) = (a, m)`;
none for a pin PIN_MAP does not define. -/
def State.pinLevel (s : State) (p : Byte) : Option Level :=
  match s.cfg.pinOf p with
  | some (a, m) => some (if s.outReg a &&& m ≠ 0 then .high else .low)
  | none => none

/-- `DIR[p]` of a valid pin (R41): as written, else the free value of I1; none for an invalid pin. -/
def State.pinDirection (s : State) (p : Byte) : Option Direction :=
  if s.cfg.validPin p then
    some ((storeGet s.dir p.toNat).getD (Config.dirAtReset s.resets p))
  else none

/-! ### Output events -/

/-- An event added to those emitted so far (R252). -/
def State.emit (s : State) (e : Output) : State := { s with trace := s.trace ++ [e] }

/-- `GpioWrite(a, m, lvl)` (R12, R55): the write reaches the environment and is one GPIO_OUT event.
Address and mask are as wide as the port (R7). -/
def gpioWrite (a m : Nat) (lvl : Level) (s : State) : State :=
  State.emit { s with out := writeOut s.out (s.cfg.addrBits a) (s.cfg.maskBits m) lvl }
    (.gpioWrite (s.cfg.addrBits a) (s.cfg.maskBits m) lvl)

/-- `PinDir(p, d)` (R12, R56): sets the direction of a valid pin and is one GPIO_DIR event. -/
def pinDir (p : Byte) (d : Direction) (s : State) : State :=
  State.emit { s with dir := if s.cfg.validPin p then storePut s.dir p.toNat d else s.dir }
    (.pinDir p d)

/-- `TimerReset()` (R12): one TIMER_RESET event. -/
def timerReset (s : State) : State := s.emit .timerReset

/-! ### Records -/

/-- Record `c` of the pool (R12); an index no record has reads the free value of log entry 9. -/
def State.record (s : State) (c : Link) : Channel :=
  (s.pool[c.toNat]?).getD (Config.absentRecord c.toNat)

/-- Record `c` rewritten by `f`; nothing for an index no record has. -/
def State.update (s : State) (c : Link) (f : Channel → Channel) : State :=
  { s with pool := s.pool.modify c.toNat f }

/-- Each record of a list rewritten by `f`, in list order: "for c in S" (R13). -/
def State.updateAll (s : State) (S : List Link) (f : Channel → Channel) : State :=
  S.foldl (fun t c => t.update c f) s

/-- `ResetFields(c)` (R106). -/
def resetFields (c : Link) (s : State) : State := s.update c Channel.resetFields

/-! ### List primitives -/

/-- `head(L)` (40_pool.md section 2). -/
def State.head (s : State) : ListId → Link
  | .free => s.freeHead
  | .active => s.activeHead

/-- `head(L) <- c`. -/
def State.setHead (s : State) (L : ListId) (c : Link) : State :=
  match L with
  | .free => { s with freeHead := c }
  | .active => { s with activeHead := c }

/-- `push(L, c)` (R101). -/
def push (L : ListId) (c : Link) (s : State) : State :=
  let s₁ := s.update c (fun r => { r with prev := noLink, next := s.head L })
  let s₂ := if s₁.head L ≠ noLink then s₁.update (s₁.head L) (fun r => { r with prev := c }) else s₁
  s₂.setHead L c

/-- `remove(L, c)` (R102). -/
def remove (L : ListId) (c : Link) (s : State) : State :=
  let s₁ :=
    if (s.record c).prev ≠ noLink then
      s.update (s.record c).prev (fun r => { r with next := (s.record c).next })
    else s.setHead L (s.record c).next
  let s₂ :=
    if (s₁.record c).next ≠ noLink then
      s₁.update (s₁.record c).next (fun r => { r with prev := (s₁.record c).prev })
    else s₁
  s₂.update c (fun r => { r with next := noLink, prev := noLink })

/-- `pop(L)` (R103): the head and the state without it, or none on an empty list. -/
def pop (L : ListId) (s : State) : Option (Link × State) :=
  if s.head L = noLink then none else some (s.head L, remove L (s.head L) s)

/-- `PoolInit()` (R104): every record free in index order with reset fields, ACTIVE empty. -/
def poolInit (s : State) : State :=
  { s with pool := freshPool s.cfg.nCh, freeHead := 0, activeHead := noLink }

/-- At most `k` records from `c` along the `next` links (R105). -/
def walkFrom (s : State) : Nat → Link → List Link
  | 0, _ => []
  | k + 1, c => if c = noLink then [] else c :: walkFrom s k (s.record c).next

/-- `active_walk()` (R105): bounded by N_CH steps. -/
def activeWalk (s : State) : List Link := walkFrom s s.cfg.nCh s.activeHead

/-- The records of FREE, head first, by the same bounded walk (R105). -/
def freeWalk (s : State) : List Link := walkFrom s s.cfg.nCh s.freeHead

/-- `lookup(p)` (R105): the first active record with the pin. -/
def lookup (p : Byte) (s : State) : Option Link :=
  (activeWalk s).find? (fun c => decide ((s.record c).pin = p))

/-- `Targets(p)` (41_registry.md R127). -/
def targets (p : Byte) (s : State) : List Link :=
  if p = allPins then activeWalk s
  else
    match lookup p s with
    | some c => [c]
    | none => []

/-! ### How a command step ends -/

/-- `finish(code)` (R12): the result code goes to `last_status`. `abort(code)` is `finish` on the
state the command started from. -/
def finish (code : ResultCode) (s : State) : State := { s with lastStatus := code.toByte }

/-- A command other than NOP and BEGIN ends NOT_ARMED before the first BEGIN (R120). -/
def whenArmed (s : State) (k : State → State) : State :=
  if s.armed then k s else finish .notArmed s

/-! ### Arrival of a command -/

/-- A command word put at port CMD as the next event to be taken (R7, R38). -/
def State.queueCommand (s : State) (w : Command) : State := { s with inputs := .command w :: s.inputs }

end Sys2Proof.Machine
end

