-- ==== Sys2Proof/Machine/Flags.lean ====
section
/-! DEFINITION. The result words a host reads: STATUS (spec/10_state.md R37), the response word of QUERY
(R36), and the derived quantities of R43. The block has no condition codes (R39). -/

namespace Sys2Proof.Machine

/-- `active_count` (R37, R43): the number of records on ACTIVE. -/
def State.activeCount (s : State) : Nat := (activeWalk s).length

/-- `free_count` (R43). -/
def State.freeCount (s : State) : Nat := s.cfg.nCh - s.activeCount

/-- Port STATUS (R37): active_count [31:24], zero [23:18], default_pol [17], armed [16],
tick_count [15:8], last_status [7:0]. -/
def State.status (s : State) : BitVec 32 :=
  BitVec.ofNat 8 s.activeCount ++ (0 : BitVec 6) ++ s.defaultPol.toBit ++ BitVec.ofBool s.armed
    ++ s.tickCount ++ s.lastStatus

/-- Port TICK_ENABLE (R7, R33). -/
def State.tickEnable (s : State) : Bool := s.armed

/-- The response word for a found record (R36): found [47], pol [46], zero [45:40], index [39:32],
target [31:24], current [23:16], up [15:8], down [7:0]. -/
def responseWord (c : Link) (r : Channel) : BitVec 48 :=
  (1 : BitVec 1) ++ r.pol.toBit ++ (0 : BitVec 6) ++ c ++ r.target ++ r.current ++ r.up ++ r.down

end Sys2Proof.Machine
end

