-- ==== Sys2Proof/Machine/Fade.lean ====
section
/-! DEFINITION. The fade step, spec/43_fade.md R190. -/

namespace Sys2Proof.Machine

/-- `FadeStep(t, cur, up, dn)` (R190): sums and differences on unbounded integers, so nothing wraps
before the clip to the target. -/
def fadeStep (t cur up dn : Byte) : Byte :=
  if t = cur then cur
  else if cur.toNat < t.toNat then
    if up = 0 then t else BitVec.ofNat 8 (min t.toNat (cur.toNat + up.toNat))
  else
    if dn = 0 then t
    else BitVec.ofNat 8 (max (t.toNat : Int) ((cur.toNat : Int) - (dn.toNat : Int))).toNat

end Sys2Proof.Machine
end

