-- ==== Sys2Proof/Machine/Multiplexer.lean ====
section
/-! DEFINITION. The duty-cycle multiplexer: pin levels and the TICK step, spec/42_multiplexer.md. -/

namespace Sys2Proof.Machine

/-- `OnLevel(pol)` (R174). -/
def onLevel : Polarity → Level
  | .normal => .high
  | .inverted => .low

/-- `OffLevel(pol)` (R174), the idle level. -/
def offLevel : Polarity → Level
  | .normal => .low
  | .inverted => .high

/-- `Drive(c, on)` (R175): through the register and mask resolved at acquisition. -/
def drive (c : Link) (on : Bool) (s : State) : State :=
  gpioWrite (s.record c).reg (s.record c).mask
    (if on then onLevel (s.record c).pol else offLevel (s.record c).pol) s

/-- The record with its `current` moved one fade step (R172, R190). -/
def Channel.fade (r : Channel) : Channel :=
  { r with current := fadeStep r.target r.current r.up r.down }

/-- The work of a wrap tick on one channel (R172): fade step, then drive on unless `current` is 0. -/
def wrapChannel (s : State) (c : Link) : State :=
  let s₁ := s.update c Channel.fade
  drive c (decide ((s₁.record c).current ≠ 0)) s₁

/-- `WrapTick()` (R172). -/
def wrapTick (s : State) : State := (activeWalk s).foldl wrapChannel s

/-- The work of any other tick on one channel (R173): off when the counter equals `current`, which is
neither 0 nor 255. -/
def thresholdChannel (s : State) (c : Link) : State :=
  if (s.record c).current ≠ 0 ∧ (s.record c).current ≠ 255 ∧ s.tickCount = (s.record c).current then
    drive c false s
  else s

/-- `ThresholdTick()` (R173). -/
def thresholdTick (s : State) : State := (activeWalk s).foldl thresholdChannel s

/-- Step 1 of a tick (R171): the 8-bit counter adds 1 and wraps at 256. -/
def State.countTick (s : State) : State := { s with tickCount := s.tickCount + 1 }

/-- `TickStep()` (R170): nothing before BEGIN; else the counter, then the wrap tick or the threshold tick. -/
def tickStep (s : State) : State :=
  if s.armed then
    if s.countTick.tickCount = 0 then wrapTick s.countTick else thresholdTick s.countTick
  else s

end Sys2Proof.Machine
end

