-- ==== Sys2Proof/Machine/Operands.lean ====
section
/-! DEFINITION. Operand conversions of the commands: NormPol (spec/41_registry.md R122),
PercentToValue (R123) and FadeRate (43_fade.md R192). Each answers the value and whether the
argument was adjusted. -/

namespace Sys2Proof.Machine

/-- `NormPol(raw)` (R122). -/
def normPol (raw : Byte) : Polarity × Bool :=
  (if raw = 0 then .normal else .inverted, decide (1 < raw.toNat))

/-- `PercentToValue(percent)` (R123): floor division, a percent above 100 taken as 100. -/
def percentToValue (percent : Byte) : Byte × Bool :=
  (BitVec.ofNat 8 (min percent.toNat 100 * 255 / 100), decide (100 < percent.toNat))

/-- `FadeRate(d)` for the cycle period in milliseconds (R192): rate 0 for duration 0, else the floored
quotient, clamped to 255. A quotient of 0 stays 0 (I4). -/
def fadeRate (cyclePeriodMs : Nat) (d : Duration) : Byte × Bool :=
  if d = 0 then (0, false)
  else
    let q := 255 * cyclePeriodMs / d.toNat
    if 255 < q then (255, true) else (BitVec.ofNat 8 q, false)

/-- The result code of a command that took effect (R121, R35): ARG_ADJUSTED or OK. -/
def okCode (adjusted : Bool) : ResultCode := if adjusted then .argAdjusted else .ok

end Sys2Proof.Machine
end

