-- ==== Sys2Proof/Machine/Registry.lean ====
section
/-! DEFINITION. The channel commands SET, SET_PERCENT, SET_FADE, SET_POLARITY, END and QUERY and their
helpers, spec/41_registry.md R121 to R137. -/

namespace Sys2Proof.Machine

/-- The fields an acquisition populates (R124). `current`, `up` and `down` are 0 in a free record. -/
def Channel.assign (p : Byte) (pol : Polarity) (a m : Nat) (v : Byte) (r : Channel) : Channel :=
  { r with pin := p, pol := pol, reg := a, mask := m, target := v }

/-- `Acquire(p, v)` (R124): the record taken and the state after, or the code it aborts with; validity of
the pin is checked before an empty FREE. -/
def acquire (p v : Byte) (s : State) : Except ResultCode (Link × State) :=
  match s.cfg.pinOf p with
  | none => .error .invalidPin
  | some (a, m) =>
    match pop .free s with
    | none => .error .poolExhausted
    | some (c, s₁) =>
      let s₂ := s₁.update c (Channel.assign p s.defaultPol a m v)
      let s₃ := gpioWrite a m (offLevel s.defaultPol) s₂
      let s₄ := pinDir p .output s₃
      .ok (c, push .active c s₄)

/-- `Release(c)` (R125). -/
def release (c : Link) (s : State) : State :=
  let s₁ := remove .active c s
  let s₂ := pinDir (s₁.record c).pin .input s₁
  let s₃ := gpioWrite (s₂.record c).reg (s₂.record c).mask (offLevel (s₂.record c).pol) s₂
  push .free c (resetFields c s₃)

/-- `HardReset(S)` (R126): `current <- target` for each, the counter to 255, one TIMER_RESET event. -/
def hardReset (S : List Link) (s : State) : State :=
  timerReset { s.updateAll S (fun r => { r with current := r.target }) with tickCount := 255 }

/-- The body of SET and SET_PERCENT (R132, R133): `code` is what it finishes with when it takes effect. -/
def setDuty (p value : Byte) (imm : Bool) (code : ResultCode) (s : State) : State :=
  if p = allPins then
    let s₁ := s.updateAll (activeWalk s) (fun r => { r with target := value })
    finish code (if imm ∧ activeWalk s ≠ [] then hardReset (activeWalk s) s₁ else s₁)
  else
    match lookup p s with
    | some c =>
      let s₁ := s.update c (fun r => { r with target := value })
      finish code (if imm then hardReset [c] s₁ else s₁)
    | none =>
      match acquire p value s with
      | .error e => finish e s
      | .ok (c, s₁) => finish code (if imm then hardReset [c] s₁ else s₁)

/-- The body of a wildcard-capable update that acquires nothing (R134, R135): UNKNOWN_PIN for a pin that
is not active, else each target record rewritten. -/
def updateTargets (p : Byte) (f : Channel → Channel) (code : ResultCode) (s : State) : State :=
  if p ≠ allPins ∧ targets p s = [] then finish .unknownPin s
  else finish code (s.updateAll (targets p s) f)

/-- SET (R132). -/
def execSet (p : PinArg) (value : Byte) (imm : Bool) (s : State) :
    Host.Outcome State Fault Refusal :=
  .next (whenArmed s (setDuty p.field value imm .ok))

/-- SET_PERCENT (R133). -/
def execSetPercent (p : PinArg) (percent : Byte) (imm : Bool) (s : State) :
    Host.Outcome State Fault Refusal :=
  .next (whenArmed s
    (setDuty p.field (percentToValue percent).1 imm (okCode (percentToValue percent).2)))

/-- SET_FADE (R134). -/
def execSetFade (p : PinArg) (upMs downMs : Duration) (s : State) :
    Host.Outcome State Fault Refusal :=
  let up := fadeRate s.cfg.cyclePeriodMs upMs
  let down := fadeRate s.cfg.cyclePeriodMs downMs
  .next (whenArmed s
    (updateTargets p.field (fun r => { r with up := up.1, down := down.1 })
      (okCode (up.2 || down.2))))

/-- SET_POLARITY (R135). -/
def execSetPolarity (p : PinArg) (polraw : Byte) (s : State) :
    Host.Outcome State Fault Refusal :=
  .next (whenArmed s
    (updateTargets p.field (fun r => { r with pol := (normPol polraw).1 })
      (okCode (normPol polraw).2)))

/-- The body of END (R136). -/
def endPin (p : Byte) (s : State) : State :=
  match lookup p s with
  | none => finish .unknownPin s
  | some c => finish .ok (release c s)

/-- END (R136). -/
def execEndChannel (p : PinArg) (s : State) : Host.Outcome State Fault Refusal :=
  .next (whenArmed s (endPin p.field))

/-- The body of QUERY (R137). -/
def queryPin (p : Byte) (s : State) : State :=
  match lookup p s with
  | none => finish .unknownPin { s with resp := 0 }
  | some c => finish .ok { s with resp := responseWord c (s.record c) }

/-- QUERY (R137). -/
def execQuery (p : PinArg) (s : State) : Host.Outcome State Fault Refusal :=
  .next (whenArmed s (queryPin p.field))

end Sys2Proof.Machine
end

