-- ==== Sys2Proof/Machine/System.lean ====
section
/-! DEFINITION. NOP and BEGIN (spec/41_registry.md R130, R131), the illegal command (R120,
30_encoding.md R75) and hardware reset (70_reset_and_hazards.md R240). -/

namespace Sys2Proof.Machine

/-- NOP (R130): nothing, not even `last_status`. -/
def execNop (s : State) : Host.Outcome State Fault Refusal := .next s

/-- The body of BEGIN (R131). -/
def beginBlock (polraw : Byte) (s : State) : State :=
  finish (okCode (normPol polraw).2)
    { poolInit s with
      tickCount := 0, defaultPol := (normPol polraw).1, resp := 0, armed := true }

/-- BEGIN (R131). -/
def execBegin (polraw : Byte) (s : State) : Host.Outcome State Fault Refusal :=
  .next (beginBlock polraw s)

/-- An illegal command word (R75, R120): ILLEGAL_COMMAND and nothing else, armed or not. -/
def illegalCommand (s : State) : State := finish .illegalCommand s

/-- Hardware reset, an RST event (R240, R42): the block's state reset, no event emitted. OUT and DIR are
unspecified after it (R42, R240, I1): what was written is forgotten and the free values are fresh
(log entry 8). -/
def hardwareReset (s : State) : State :=
  { poolInit s with
    tickCount := 0, defaultPol := .normal, armed := false, lastStatus := 0, resp := 0
    out := [], dir := [], resets := s.resets + 1 }

end Sys2Proof.Machine
end

