-- ==== Sys2Proof/Machine/Dispatch.lean ====
section
/-! DEFINITION. One arm per command (spec/41_registry.md R130 to R137). -/

namespace Sys2Proof.Machine

def exec (i : Instr) (s : State) : Host.Outcome State Fault Refusal :=
  match i with
  | .nop => Sys2Proof.Machine.execNop s
  | .begin polraw => Sys2Proof.Machine.execBegin polraw s
  | .set p value imm => Sys2Proof.Machine.execSet p value imm s
  | .setPercent p percent imm => Sys2Proof.Machine.execSetPercent p percent imm s
  | .setFade p upMs downMs => Sys2Proof.Machine.execSetFade p upMs downMs s
  | .setPolarity p polraw => Sys2Proof.Machine.execSetPolarity p polraw s
  | .endChannel p => Sys2Proof.Machine.execEndChannel p s
  | .query p => Sys2Proof.Machine.execQuery p s

end Sys2Proof.Machine
end

