-- ==== Sys2Proof/Machine/Arrival.lean ====
section
/-! DEFINITION. What one arriving event does: the command step of spec/41_registry.md R120, the TICK
of 42_multiplexer.md R170, RST of 70_reset_and_hazards.md R240, and which of a simultaneous command and
TICK goes first (20_memory.md R53, 60_exceptions.md R214). -/

namespace Sys2Proof.Machine

/-- `CommandStep(w)` (R120): an illegal word, or the instruction it spells. -/
def commandStep (w : Command) (s : State) : Host.Outcome State Fault Refusal :=
  match decode w with
  | .ok i => exec i s
  | .error _ => .next (illegalCommand s)

/-- The state after a simultaneous arrival is settled (R53, I3): the free value says which of the two is
taken now; the other stays as the next event to be taken. Nothing is lost or duplicated. -/
def settleTogether (w : Command) (s : State) : State :=
  { s with
    arbitrations := s.arbitrations + 1
    inputs := (if Config.commandFirst s.arbitrations then .tick else .command w) :: s.inputs }

/-- One event taken from the ports (R52, R53); `s` holds the events after it. -/
def takeInput (e : Input) (s : State) : Host.Outcome State Fault Refusal :=
  match e with
  | .command w => commandStep w s
  | .tick => .next (tickStep s)
  | .reset => .next (hardwareReset s)
  | .together w =>
    if Config.commandFirst s.arbitrations then commandStep w (settleTogether w s)
    else .next (tickStep (settleTogether w s))

end Sys2Proof.Machine
end

