-- ==== Sys2Proof/Machine/Step.lean ====
section
/-! DEFINITION. One step of the machine: one event in the total order of steps (spec/20_memory.md R52,
R53, R63; 70_reset_and_hazards.md R252). -/

namespace Sys2Proof.Machine

/-- One step: parameters outside R8 and R9 are refused (I2); else the next waiting event is taken; with
none waiting nothing happens (log entry 1). -/
def step (s : State) : Host.Outcome State Fault Refusal :=
  if s.cfg.legal then
    match s.inputs with
    | [] => .next s
    | e :: rest => takeInput e { s with inputs := rest }
  else .refused .illegalParameters

/-- `s` with a command word put at port CMD as the event the next step takes. -/
def State.withFetchWord (s : State) (nbits w : Nat) : State :=
  s.queueCommand (commandOfTableWord nbits w)

end Sys2Proof.Machine
end

