-- ==== Sys2Proof/Machine/Assembler.lean ====
section
/-! DEFINITION. The assembly text of spec/30_encoding.md R79, the pseudo-instructions of R80 in it, and
the test notation of R81. A line is a list of characters; blanks are spaces and tabs (log entry 20). -/

namespace Sys2Proof.Machine

/-- A space or a tab. -/
def isBlankChar (c : Char) : Bool := c == ' ' || c == '\t'

/-- The line up to the comment sign `;` (R79). -/
def stripComment (line : List Char) : List Char := line.takeWhile (fun c => c != ';')

/-- A text without the blanks at its two ends. -/
def trimBlanks (cs : List Char) : List Char :=
  ((cs.dropWhile isBlankChar).reverse.dropWhile isBlankChar).reverse

/-- The pieces between commas (R79). -/
def splitCommas : List Char → List (List Char)
  | [] => [[]]
  | c :: cs =>
    if c == ',' then [] :: splitCommas cs
    else
      match splitCommas cs with
      | [] => [[c]]
      | x :: xs => (c :: x) :: xs

/-- The value of a digit in base 10 or 16. -/
def digitValue (base : Nat) (c : Char) : Option Nat :=
  let n := c.toNat
  let v :=
    if 48 ≤ n ∧ n ≤ 57 then n - 48
    else if 97 ≤ n ∧ n ≤ 102 then n - 87
    else if 65 ≤ n ∧ n ≤ 70 then n - 55
    else base
  if v < base then some v else none

/-- The number of a digit string, after the digits read so far. -/
def digitsFrom (base acc : Nat) : List Char → Option Nat
  | [] => some acc
  | c :: cs =>
    match digitValue base c with
    | some d => digitsFrom base (acc * base + d) cs
    | none => none

/-- A number in decimal or with the prefix 0x (R79). -/
def parseNumber (cs : List Char) : Option Nat :=
  match cs with
  | [] => none
  | '0' :: 'x' :: [] => none
  | '0' :: 'x' :: ds => digitsFrom 16 0 ds
  | ds => digitsFrom 10 0 ds

/-- A number at most `max`; an operand outside its range is refused, never truncated (R79). -/
def parseUpTo (max : Nat) (cs : List Char) : Option Nat :=
  match parseNumber cs with
  | some n => if n ≤ max then some n else none
  | none => none

/-- An 8-bit operand 0..255 (R79). -/
def parseByte (cs : List Char) : Option Byte := (parseUpTo 255 cs).map (BitVec.ofNat 8)

/-- A duration 0..65535 (R79). -/
def parseDuration (cs : List Char) : Option Duration := (parseUpTo 65535 cs).map (BitVec.ofNat 16)

/-- The operand `p`: 0..254 or ALL (R79). -/
def parsePin (cs : List Char) : Option PinArg :=
  if cs = "ALL".toList then some .all
  else (parseUpTo 254 cs).map (fun n => .pin (BitVec.ofNat 8 n))

/-- The operand `polraw`: 0..255, NORMAL = 0 or INVERTED = 1 (R79). -/
def parsePolarity (cs : List Char) : Option Byte :=
  if cs = "NORMAL".toList then some 0
  else if cs = "INVERTED".toList then some 1
  else parseByte cs

/-- The optional last operand IMM (R79). -/
def parseImm : List (List Char) → Option Bool
  | [] => some false
  | [cs] => if cs = "IMM".toList then some true else none
  | _ :: _ :: _ => none

/-- A mnemonic or pseudo-mnemonic of R79 and R80. -/
inductive AsmName where
  | nop | begin | set | setPercent | setFade | setPolarity | endChannel | query
  | setAll | setPercentAll | fadeAll | invert | normal | off | full
  deriving DecidableEq, Repr

/-- The names of R79 and R80 and how they are spelled. -/
def asmNames : List (List Char × AsmName) :=
  [ ("NOP".toList, .nop),
    ("BEGIN".toList, .begin),
    ("SET".toList, .set),
    ("SET_PERCENT".toList, .setPercent),
    ("SET_FADE".toList, .setFade),
    ("SET_POLARITY".toList, .setPolarity),
    ("END".toList, .endChannel),
    ("QUERY".toList, .query) ]
  ++ [ ("SET_ALL".toList, .setAll),
    ("SET_PERCENT_ALL".toList, .setPercentAll),
    ("FADE_ALL".toList, .fadeAll),
    ("INVERT".toList, .invert),
    ("NORMAL".toList, .normal),
    ("OFF".toList, .off),
    ("FULL".toList, .full) ]

/-- The name a text spells. -/
def asmNameOf (cs : List Char) : Option AsmName :=
  (asmNames.find? (fun e => decide (e.1 = cs))).map (fun e => e.2)

/-- The instruction a name and its operand texts stand for (R79, R80). -/
def assembleParts (name : AsmName) (ops : List (List Char)) : Option Instr :=
  match name, ops with
  | .nop, [] => some .nop
  | .begin, [q] => (parsePolarity q).map .begin
  | .set, p :: v :: rest => do some (.set (← parsePin p) (← parseByte v) (← parseImm rest))
  | .setPercent, p :: v :: rest =>
    do some (.setPercent (← parsePin p) (← parseByte v) (← parseImm rest))
  | .setFade, [p, u, d] =>
    do some (.setFade (← parsePin p) (← parseDuration u) (← parseDuration d))
  | .setPolarity, [p, q] => do some (.setPolarity (← parsePin p) (← parsePolarity q))
  | .endChannel, [p] => (parsePin p).map .endChannel
  | .query, [p] => (parsePin p).map .query
  | .setAll, v :: rest => do some (Pseudo.setAll (← parseByte v) (← parseImm rest)).expand
  | .setPercentAll, v :: rest =>
    do some (Pseudo.setPercentAll (← parseByte v) (← parseImm rest)).expand
  | .fadeAll, [u, d] => do some (Pseudo.fadeAll (← parseDuration u) (← parseDuration d)).expand
  | .invert, [p] => (parsePin p).map (fun a => (Pseudo.invert a).expand)
  | .normal, [p] => (parsePin p).map (fun a => (Pseudo.normal a).expand)
  | .off, [p] => (parsePin p).map (fun a => (Pseudo.off a).expand)
  | .full, [p] => (parsePin p).map (fun a => (Pseudo.full a).expand)
  | _, _ => none

/-- The operand texts of a line's remainder: none when it is blank, else the trimmed pieces between commas. -/
def operandTexts (cs : List Char) : List (List Char) :=
  if trimBlanks cs = [] then [] else (splitCommas cs).map trimBlanks

/-- The first word of a line without its comment, and what follows it. -/
def lineParts (line : List Char) : List Char × List Char :=
  let body := trimBlanks (stripComment line)
  (body.takeWhile (fun c => !isBlankChar c), body.dropWhile (fun c => !isBlankChar c))

/-- One line of assembly text holding a command (R79, R80); none where the assembler refuses it. -/
def assembleLine (line : List Char) : Option Instr :=
  match asmNameOf (lineParts line).1 with
  | some name => assembleParts name (operandTexts (lineParts line).2)
  | none => none

/-- One line of a test program (R81): nothing on a blank or comment line, `TICK n`, `RESET`, or a command. -/
def scriptLine (line : List Char) : Option (List Input) :=
  if (lineParts line).1 = [] then some []
  else if (lineParts line).1 = "RESET".toList then
    if operandTexts (lineParts line).2 = [] then some [.reset] else none
  else if (lineParts line).1 = "TICK".toList then
    match operandTexts (lineParts line).2 with
    | [n] => (parseNumber n).map (fun k => List.replicate k .tick)
    | _ => none
  else (assembleLine line).map (fun i => [.command (encode i)])

end Sys2Proof.Machine
end

