-- ==== Sys2Proof/Safety.lean ====
section
/-! DEFINITION. The terms the claims use: the invariants of spec/10_state.md R28 and what follows
from the rules about every reachable state, the quantities of 10_state.md R43, 42_multiplexer.md R176 and
43_fade.md R191, the replay of emitted events (10_state.md R41), and the assembly syntax as a relation
(30_encoding.md R79, R80). -/

namespace Sys2Proof.Machine

/-- Whether the links of the state run through exactly the records of `l`, from `hd` on (R28,
invariant 2): each record's `prev` is the one before it (`pv` before the first), each `next` the one after
it, the last `next` NONE. -/
def linked (s : State) : Link → Link → List Link → Bool
  | _, hd, [] => hd == noLink
  | pv, hd, c :: cs =>
    hd == c && c != noLink && decide (c.toNat < s.pool.length) && (s.record c).prev == pv
      && linked s c (s.record c).next cs

/-- The invariants of R28 on the channel pool. -/
structure PoolWf (s : State) : Prop where
  /-- The pool holds N_CH records (R20, R100). -/
  size : s.pool.length = s.cfg.nCh
  /-- FREE is a doubly linked list headed by `free_head`. -/
  freeLinked : linked s noLink s.freeHead (freeWalk s) = true
  /-- ACTIVE is a doubly linked list headed by `active_head`. -/
  activeLinked : linked s noLink s.activeHead (activeWalk s) = true
  /-- The lists are disjoint and hold no record twice. -/
  disjoint : (freeWalk s ++ activeWalk s).Nodup
  /-- Every record is on one of them. -/
  union : ∀ c ∈ List.range s.cfg.nCh, BitVec.ofNat 8 c ∈ freeWalk s ++ activeWalk s
  /-- Pins are unique on ACTIVE. -/
  pinsUnique : ((activeWalk s).map (fun c => (s.record c).pin)).Nodup
  /-- Every active record has a valid pin, not 0xFF, and that pin's register and mask. -/
  activeMapped : ∀ c ∈ activeWalk s, (s.record c).pin ≠ allPins ∧
    s.cfg.pinOf (s.record c).pin = some ((s.record c).reg, (s.record c).mask)
  /-- Every free record holds the reset values. -/
  freeReset : ∀ c ∈ freeWalk s, (s.record c).resetFields = s.record c

/-- The forms of the status and response registers and of the environment's written part. -/
structure FormsWf (s : State) : Prop where
  /-- `last_status` is one of the codes 0 to 6 (R35; 93_implementation_defined.md I9). -/
  codes : s.lastStatus.toNat ≤ 6
  /-- The reserved bits of RESP are 0 (R36, I10). -/
  respReserved : s.resp.extractLsb' 40 6 = 0
  /-- The written part of OUT is in canonical form: the model's form (log entry 6). -/
  outWf : Memory.wf s.out = true
  /-- It is inside the register space (R41, R50). -/
  outRange : ∀ e ∈ s.out, e.1 < 2 ^ s.cfg.outAddrW ∧ e.2.written < 2 ^ s.cfg.outRegW
  /-- The written part of DIR is in canonical form: the model's form (log entry 7). -/
  dirWf : storeSorted s.dir = true
  /-- It is inside the direction space: one direction per valid pin id (R41, R50). -/
  dirRange : ∀ e ∈ s.dir, e.1 < 256 ∧ s.cfg.validPin (BitVec.ofNat 8 e.1) = true

/-- What holds in every state the block reaches. -/
structure Inv (s : State) : Prop where
  /-- The parameters are ones the spec covers (R8, R9). -/
  legal : s.cfg.legal = true
  /-- R28. -/
  pool : PoolWf s
  /-- The registers and the environment's written part. -/
  forms : FormsWf s

/-- While BEGIN has not executed since the last hardware reset, the block is as reset left it, but for
`last_status` (R33, R224). -/
def IdleBeforeBegin (s : State) : Prop :=
  s.armed = false →
    s.pool = freshPool s.cfg.nCh ∧ s.freeHead = 0 ∧ s.activeHead = noLink ∧ s.tickCount = 0 ∧
      s.defaultPol = .normal ∧ s.resp = 0

/-- Every active channel's pin is an output (R124, R125, R248). -/
def ActivePinsDriven (s : State) : Prop :=
  ∀ c ∈ activeWalk s, s.pinDirection (s.record c).pin = some .output

/-- The pin of channel record `r` during a cycle driven at `v`, after the tick that leaves the counter at
`k` (R176): on for the whole cycle at 255, else on while `k < v`. -/
def cycleLevel (pol : Polarity) (v : Byte) (k : Nat) : Level :=
  if v = 255 ∨ k < v.toNat then onLevel pol else offLevel pol

/-- The number of ticks of a 256-tick cycle that a channel driven at `v` is on (R43, R176): the
numerator of its duty fraction over 256. -/
def dutyTicks (v : Byte) : Nat := if v = 255 then 256 else v.toNat

/-- The rate that applies on the way from `cur` to `t` (R190): up rising, down falling. -/
def fadeRateToward (t cur up dn : Byte) : Byte := if cur.toNat < t.toNat then up else dn

/-- The distance |t - cur|. -/
def fadeDistance (t cur : Byte) : Nat := ((t.toNat : Int) - (cur.toNat : Int)).natAbs

/-- The number of wrap ticks from `cur` to a fixed target `t` (R191, law 5): the distance over the
rate rounded up; one with rate 0; none when already there. -/
def fadeSteps (t cur up dn : Byte) : Nat :=
  if t = cur then 0
  else if fadeRateToward t cur up dn = 0 then 1
  else
    (fadeDistance t cur + (fadeRateToward t cur up dn).toNat - 1) / (fadeRateToward t cur up dn).toNat

/-- OUT after a sequence of events, from what it held (R41, R55). -/
def replayOut (mem : List (Nat × OutReg)) (es : List Output) : List (Nat × OutReg) :=
  es.foldl
    (fun m e =>
      match e with
      | .gpioWrite a k lvl => writeOut m a k lvl
      | .pinDir _ _ => m
      | .timerReset => m) mem

/-- DIR after a sequence of events, from what it held (R41, R56). -/
def replayDir (P : Params) (dirs : List (Nat × Direction)) (es : List Output) : List (Nat × Direction) :=
  es.foldl
    (fun d e =>
      match e with
      | .gpioWrite _ _ _ => d
      | .pinDir p x => if P.validPin p then storePut d p.toNat x else d
      | .timerReset => d) dirs

/-! ### Assembly syntax -/

/-- The text is the number `k`, which is in the range 0..max (R79: an operand outside is refused, not truncated). -/
def NumberWritten (max : Nat) (cs : List Char) (k : Nat) : Prop := parseNumber cs = some k ∧ k ≤ max

/-- The text is the pin operand: a number 0..254 or ALL (R79). -/
inductive PinWritten : List Char → PinArg → Prop where
  | all : PinWritten "ALL".toList .all
  | pin {cs : List Char} {id : Byte} (h : NumberWritten 254 cs id.toNat) : PinWritten cs (.pin id)

/-- The text is the polarity operand: a number 0..255, NORMAL = 0 or INVERTED = 1 (R79). -/
inductive PolarityWritten : List Char → Byte → Prop where
  | normal : PolarityWritten "NORMAL".toList 0
  | inverted : PolarityWritten "INVERTED".toList 1
  | number {cs : List Char} {raw : Byte} (h : NumberWritten 255 cs raw.toNat) : PolarityWritten cs raw

/-- The texts after the other operands are IMM, for `imm` = 1, or nothing (R79). -/
inductive ImmWritten : List (List Char) → Bool → Prop where
  | absent : ImmWritten [] false
  | present : ImmWritten ["IMM".toList] true

/-- The syntax of R79 and R80: the name and the operand texts write the command. One constructor per line of
R79 and row of R80. -/
inductive CommandWritten : AsmName → List (List Char) → Instr → Prop where
  | nop : CommandWritten .nop [] .nop
  | begin {q : List Char} {raw : Byte} (hq : PolarityWritten q raw) :
      CommandWritten .begin [q] (.begin raw)
  | set {p v : List Char} {a : PinArg} {k : Byte} {rest : List (List Char)} {imm : Bool}
      (hp : PinWritten p a) (hv : NumberWritten 255 v k.toNat) (hi : ImmWritten rest imm) :
      CommandWritten .set (p :: v :: rest) (.set a k imm)
  | setPercent {p v : List Char} {a : PinArg} {k : Byte} {rest : List (List Char)} {imm : Bool}
      (hp : PinWritten p a) (hv : NumberWritten 255 v k.toNat) (hi : ImmWritten rest imm) :
      CommandWritten .setPercent (p :: v :: rest) (.setPercent a k imm)
  | setFade {p u d : List Char} {a : PinArg} {up down : Duration} (hp : PinWritten p a)
      (hu : NumberWritten 65535 u up.toNat) (hd : NumberWritten 65535 d down.toNat) :
      CommandWritten .setFade [p, u, d] (.setFade a up down)
  | setPolarity {p q : List Char} {a : PinArg} {raw : Byte} (hp : PinWritten p a)
      (hq : PolarityWritten q raw) : CommandWritten .setPolarity [p, q] (.setPolarity a raw)
  | endChannel {p : List Char} {a : PinArg} (hp : PinWritten p a) :
      CommandWritten .endChannel [p] (.endChannel a)
  | query {p : List Char} {a : PinArg} (hp : PinWritten p a) : CommandWritten .query [p] (.query a)
  | setAll {v : List Char} {k : Byte} {rest : List (List Char)} {imm : Bool}
      (hv : NumberWritten 255 v k.toNat) (hi : ImmWritten rest imm) :
      CommandWritten .setAll (v :: rest) (.set .all k imm)
  | setPercentAll {v : List Char} {k : Byte} {rest : List (List Char)} {imm : Bool}
      (hv : NumberWritten 255 v k.toNat) (hi : ImmWritten rest imm) :
      CommandWritten .setPercentAll (v :: rest) (.setPercent .all k imm)
  | fadeAll {u d : List Char} {up down : Duration} (hu : NumberWritten 65535 u up.toNat)
      (hd : NumberWritten 65535 d down.toNat) : CommandWritten .fadeAll [u, d] (.setFade .all up down)
  | invert {p : List Char} {a : PinArg} (hp : PinWritten p a) :
      CommandWritten .invert [p] (.setPolarity a 1)
  | normal {p : List Char} {a : PinArg} (hp : PinWritten p a) :
      CommandWritten .normal [p] (.setPolarity a 0)
  | off {p : List Char} {a : PinArg} (hp : PinWritten p a) : CommandWritten .off [p] (.set a 0 false)
  | full {p : List Char} {a : PinArg} (hp : PinWritten p a) :
      CommandWritten .full [p] (.set a 255 false)

/-! ### Arrivals -/

/-- The state with `n` TICK events arriving before whatever was waiting. -/
def State.queueTicks (s : State) (n : Nat) : State :=
  { s with inputs := List.replicate n .tick ++ s.inputs }

end Sys2Proof.Machine
end

