-- ==== Sys2Proof/Certificates/Slice0/Obligations.lean ====
section
/-! DEFINITION. The statements for the provers, from the numbered rules of spec/. Each is about every
parameter set and every state that meets its hypotheses. -/

open Sys2Proof Sys2Proof.Machine

/-! ### Encoding -/

/-- Words written out in 95_test_vectors.md section 2.1 decode to the commands they stand for, one per
row of the opcode table. -/
def Obligations.DecodeOfWrittenWords : Prop :=
  decode 0x000000000000 = .ok .nop ∧
  decode 0x100000000001 = .ok (.begin 1) ∧
  decode 0x210500000080 = .ok (.set (.pin 5) 128 true) ∧
  decode 0x30FF0000000A = .ok (.setPercent .all 10 false) ∧
  decode 0x400101F400FA = .ok (.setFade (.pin 1) 500 250) ∧
  decode 0x500500000001 = .ok (.setPolarity (.pin 5) 1) ∧
  decode 0x600500000000 = .ok (.endChannel (.pin 5)) ∧
  decode 0x700300000000 = .ok (.query (.pin 3))

/-- Decoding the encoding of a well-formed command gives the command back, every operand at every value
(R70 to R74). -/
def Obligations.DecodeOfEncodeIsTheCommand : Prop :=
  ∀ i : Instr, i.wellFormed = true → decode (encode i) = .ok i

/-- A decoded word is the encoding of its command, and the command is well-formed: no two words spell one
command (R72, R74). -/
def Obligations.EncodeOfDecodeIsTheWord : Prop :=
  ∀ (w : Command) (i : Instr), decode w = .ok i → encode i = w ∧ i.wellFormed = true

/-- R74: a word spells a mnemonic exactly when it matches the row under the mask, and no word matches two
rows. -/
def Obligations.DecodeFollowsTheOpcodeTable : Prop :=
  (∀ (w : Command), ∀ r ∈ opcodeRows,
    (w &&& r.mask = r.pattern ↔ ∃ i, decode w = .ok i ∧ i.mnemonic = r.mnemonic)) ∧
  (∀ (w : Command), ∀ r₁ ∈ opcodeRows, ∀ r₂ ∈ opcodeRows,
    w &&& r₁.mask = r₁.pattern → w &&& r₂.mask = r₂.pattern → r₁ = r₂)

/-- R72: each operand of a decoded command is its field of the word, unsigned and unshifted; the pin field
0xFF is ALL and no other value is. -/
def Obligations.DecodedOperandsAreTheFields : Prop :=
  ∀ (w : Command) (i : Instr), decode w = .ok i →
    match i with
    | .nop => True
    | .begin q => q = w.extractLsb' 0 8
    | .set p v imm =>
      p.field = w.extractLsb' 32 8 ∧ (p = .all ↔ w.extractLsb' 32 8 = (255 : Byte)) ∧
        v = w.extractLsb' 0 8 ∧ imm = w.getLsbD 40
    | .setPercent p v imm =>
      p.field = w.extractLsb' 32 8 ∧ (p = .all ↔ w.extractLsb' 32 8 = (255 : Byte)) ∧
        v = w.extractLsb' 0 8 ∧ imm = w.getLsbD 40
    | .setFade p u d =>
      p.field = w.extractLsb' 32 8 ∧ (p = .all ↔ w.extractLsb' 32 8 = (255 : Byte)) ∧
        u = w.extractLsb' 16 16 ∧ d = w.extractLsb' 0 16
    | .setPolarity p q =>
      p.field = w.extractLsb' 32 8 ∧ (p = .all ↔ w.extractLsb' 32 8 = (255 : Byte)) ∧
        q = w.extractLsb' 0 8
    | .endChannel p =>
      p.field = w.extractLsb' 32 8 ∧ (p = .all ↔ w.extractLsb' 32 8 = (255 : Byte))
    | .query p =>
      p.field = w.extractLsb' 32 8 ∧ (p = .all ↔ w.extractLsb' 32 8 = (255 : Byte))

/-- R75: a word whose `op` is 0x8..0xF, or with a must-be-zero field of its `op`'s row not zero, changes
nothing but `last_status`, which becomes 6, armed or not. -/
def Obligations.IllegalCommandOnlyWritesStatusSix : Prop :=
  ∀ (s : State) (w : Command) (rest : List Input), s.cfg.legal = true →
    s.inputs = .command w :: rest →
    (8 ≤ (w >>> 44).toNat ∨ ∃ r ∈ opcodeRows, w >>> 44 = r.pattern >>> 44 ∧ w &&& r.mask ≠ r.pattern) →
    step s = .next { s with inputs := rest, lastStatus := 6 }

/-- R80: the pseudo-instructions and their expansions. -/
def Obligations.PseudoInstructionExpansions : Prop :=
  (∀ v imm, (Pseudo.setAll v imm).expand = .set .all v imm) ∧
  (∀ q imm, (Pseudo.setPercentAll q imm).expand = .setPercent .all q imm) ∧
  (∀ u d, (Pseudo.fadeAll u d).expand = .setFade .all u d) ∧
  (∀ p, (Pseudo.invert p).expand = .setPolarity p 1) ∧
  (∀ p, (Pseudo.normal p).expand = .setPolarity p 0) ∧
  (∀ p, (Pseudo.off p).expand = .set p 0 false) ∧
  (∀ p, (Pseudo.full p).expand = .set p 255 false)

/-- R79, R80: the assembler accepts a line exactly when its name and operand texts write the command by the
syntax, each number operand being the number of its text and inside its range, so that an operand outside its
range is refused and never truncated; and every command it accepts is well-formed. -/
def Obligations.AssembledCommandsAreWellFormed : Prop :=
  (∀ (line : List Char) (i : Instr), assembleLine line = some i ↔
    ∃ name, asmNameOf (lineParts line).1 = some name ∧
      CommandWritten name (operandTexts (lineParts line).2) i) ∧
  (∀ (line : List Char) (i : Instr), assembleLine line = some i → i.wellFormed = true)

/-! ### The step -/

/-- When the waiting event is a command word that decodes to `i`, the step is exec of `i` on the state
without that event (R52, R120), and `i` is well-formed. -/
def Obligations.StepRunsTheDecodedCommand : Prop :=
  ∀ (s : State) (w : Command) (rest : List Input) (i : Instr), s.cfg.legal = true →
    s.inputs = .command w :: rest → decode w = .ok i →
    i.wellFormed = true ∧ step s = exec i { s with inputs := rest }

/-- The other events (R53, R213, R214): a TICK, an RST, and, by the model's choice of log entry 1, no event
at all. -/
def Obligations.StepTakesTicksAndResets : Prop :=
  ∀ (s : State) (rest : List Input), s.cfg.legal = true →
    (s.inputs = .tick :: rest → step s = .next (tickStep { s with inputs := rest })) ∧
    (s.inputs = .reset :: rest → step s = .next (hardwareReset { s with inputs := rest })) ∧
    (s.inputs = [] → step s = .next s)

/-- The model's reading of R53 and R214 (log entry 2): of a command and a TICK ready together one is taken
and the other is the next event, in one of the two orders. -/
def Obligations.CommandAndTickTogetherGoInOneOfBothOrders : Prop :=
  ∀ (s : State) (w : Command) (rest : List Input), s.cfg.legal = true →
    s.inputs = .together w :: rest →
    step s = commandStep w
        { s with arbitrations := s.arbitrations + 1, inputs := .tick :: rest } ∨
    step s = .next (tickStep
        { s with arbitrations := s.arbitrations + 1, inputs := .command w :: rest })

/-- The model's rendering of R210 and 93_implementation_defined.md I2 (log entry 5): with legal parameters
every step has a next state, with others every step is refused. -/
def Obligations.StepCompletesExactlyOnLegalParameters : Prop :=
  ∀ s : State, (s.cfg.legal = true → ∃ t, step s = .next t) ∧
    (s.cfg.legal = false → step s = .refused .illegalParameters)

/-- Every command, in every state, has a next state (R210), keeps the parameters (R8, R242) and what is
waiting, and only adds to the emitted events. -/
def Obligations.EveryCommandCompletes : Prop :=
  ∀ (i : Instr) (s : State), ∃ t, exec i s = .next t ∧ t.cfg = s.cfg ∧ t.inputs = s.inputs ∧
    t.resets = s.resets ∧ t.arbitrations = s.arbitrations ∧ s.trace <+: t.trace

/-- R35, R121: after a command other than NOP that ends with a code 2 to 6, nothing differs but
`last_status`, and `resp` only where QUERY reports UNKNOWN_PIN and clears it. -/
def Obligations.NoOpCodesLeaveTheStateUnchanged : Prop :=
  ∀ (i : Instr) (s t : State), i ≠ .nop → exec i s = .next t → 2 ≤ t.lastStatus.toNat →
    t = { s with
      lastStatus := t.lastStatus
      resp := if t.lastStatus = 2 ∧ i.mnemonic = "QUERY" then 0 else s.resp }

/-- R33, R120: before the first BEGIN, every command but NOP and BEGIN ends NOT_ARMED with no other
effect. -/
def Obligations.NotArmedCommandsOnlyReportNotArmed : Prop :=
  ∀ (i : Instr) (s : State), s.armed = false → i ≠ .nop → (∀ q, i ≠ .begin q) →
    exec i s = .next { s with lastStatus := 5 }

/-! ### NOP and BEGIN -/

/-- R130, R76: the all-zero word is NOP, which changes nothing, armed or not; any other word with `op` 0 is
illegal. -/
def Obligations.NopChangesNothing : Prop :=
  decode 0 = .ok .nop ∧ (∀ s : State, exec .nop s = .next s) ∧
  (∀ w : Command, w >>> 44 = 0 → w ≠ 0 → decode w = .error .mustBeZero)

/-- R131: what BEGIN writes, and that it writes nothing else, no pin and no event among it. -/
def Obligations.BeginReinitialisesAndArms : Prop :=
  ∀ (s : State) (q : Byte), exec (.begin q) s = .next
    { s with
      pool := freshPool s.cfg.nCh, freeHead := 0, activeHead := noLink, tickCount := 0
      defaultPol := if q = 0 then .normal else .inverted
      resp := 0, armed := true, lastStatus := if 1 < q.toNat then 1 else 0 }

/-- R104: PoolInit leaves every record free with reset fields, FREE in index order from record 0, ACTIVE
empty, and nothing else changed. -/
def Obligations.PoolInitPutsEveryRecordOnFreeInOrder : Prop :=
  ∀ s : State, s.cfg.legal = true →
    (poolInit s).pool.length = s.cfg.nCh ∧
    (∀ c : Link, c.toNat < s.cfg.nCh → (poolInit s).record c =
      { pin := 0xFF, pol := .normal, reg := 0, mask := 0, target := 0, current := 0, up := 0, down := 0
        next := if c.toNat + 1 = s.cfg.nCh then 0xFF else c + 1
        prev := if c = 0 then 0xFF else c - 1 }) ∧
    (poolInit s).freeHead = 0 ∧ (poolInit s).activeHead = 0xFF ∧
    freeWalk (poolInit s) = (List.range s.cfg.nCh).map (BitVec.ofNat 8) ∧
    activeWalk (poolInit s) = [] ∧
    { poolInit s with pool := s.pool, freeHead := s.freeHead, activeHead := s.activeHead } = s

/-- R122. -/
def Obligations.PolarityArgumentIsNormalised : Prop :=
  ∀ raw : Byte, normPol raw = (if raw = 0 then .normal else .inverted, decide (1 < raw.toNat))

/-- R123: the duty of a percent, exact, and when it is adjusted. -/
def Obligations.PercentIsConvertedByFloorDivision : Prop :=
  ∀ percent : Byte,
    (percentToValue percent).1.toNat = min percent.toNat 100 * 255 / 100 ∧
    (percentToValue percent).2 = decide (100 < percent.toNat)

/-! ### The pool -/

/-- R101: push on a well-linked list puts the record at its head; no record off the list, no other
head, no non-link field and nothing outside the pool and the heads changes. -/
def Obligations.PushInsertsAtTheHead : Prop :=
  ∀ (s : State) (L : ListId) (c : Link) (l : List Link),
    linked s noLink (s.head L) l = true → l.Nodup → c ∉ l → c ≠ noLink → c.toNat < s.pool.length →
    linked (push L c s) noLink ((push L c s).head L) (c :: l) = true ∧
    (∀ K, K ≠ L → (push L c s).head K = s.head K) ∧
    (∀ d, d ∉ c :: l → (push L c s).record d = s.record d) ∧
    (∀ d, { (push L c s).record d with next := (s.record d).next, prev := (s.record d).prev } = s.record d) ∧
    (push L c s).pool.length = s.pool.length ∧
    { push L c s with pool := s.pool, freeHead := s.freeHead, activeHead := s.activeHead } = s

/-- R102: remove takes a record out from anywhere in a well-linked list and clears its links; no record off
the list, no other head, no non-link field and nothing outside the pool and the heads changes. -/
def Obligations.RemoveUnlinksFromAnywhere : Prop :=
  ∀ (s : State) (L : ListId) (c : Link) (l : List Link),
    linked s noLink (s.head L) l = true → l.Nodup → c ∈ l →
    linked (remove L c s) noLink ((remove L c s).head L) (l.erase c) = true ∧
    ((remove L c s).record c).next = noLink ∧ ((remove L c s).record c).prev = noLink ∧
    (∀ K, K ≠ L → (remove L c s).head K = s.head K) ∧
    (∀ d, d ∉ l → (remove L c s).record d = s.record d) ∧
    (∀ d, { (remove L c s).record d with next := (s.record d).next, prev := (s.record d).prev } = s.record d) ∧
    (remove L c s).pool.length = s.pool.length ∧
    { remove L c s with pool := s.pool, freeHead := s.freeHead, activeHead := s.activeHead } = s

/-- R105, R22: lookup finds exactly the active record with the pin, and never one for 0xFF. -/
def Obligations.LookupFindsTheActiveRecord : Prop :=
  ∀ s : State, Inv s →
    (∀ (p : Byte) (c : Link), lookup p s = some c ↔ c ∈ activeWalk s ∧ (s.record c).pin = p) ∧
    lookup 0xFF s = none

/-! ### SET and SET_PERCENT -/

/-- R132, R133, R126: SET and SET_PERCENT of an active pin write its target and, with `imm`, make the hard
reset; nothing else. -/
def Obligations.SetUpdatesAnActivePin : Prop :=
  ∀ (s : State) (p : PinArg) (imm : Bool) (c : Link), s.armed = true → p.field ≠ allPins →
    lookup p.field s = some c →
    (∀ v : Byte, exec (.set p v imm) s = .next
      { s with
        pool := s.pool.modify c.toNat
          (fun r => { r with target := v, current := if imm then v else r.current })
        tickCount := if imm then 255 else s.tickCount
        trace := if imm then s.trace ++ [.timerReset] else s.trace
        lastStatus := 0 }) ∧
    (∀ q : Byte, exec (.setPercent p q imm) s = .next
      { s with
        pool := s.pool.modify c.toNat
          (fun r =>
            { r with
              target := BitVec.ofNat 8 (min q.toNat 100 * 255 / 100)
              current := if imm then BitVec.ofNat 8 (min q.toNat 100 * 255 / 100) else r.current })
        tickCount := if imm then 255 else s.tickCount
        trace := if imm then s.trace ++ [.timerReset] else s.trace
        lastStatus := if 100 < q.toNat then 1 else 0 })

/-- R124, R132, R133: SET and SET_PERCENT of a valid pin that is not active take the head of FREE, populate
it, drive the idle level, make the pin an output and put the record at the head of ACTIVE; nothing else. -/
def Obligations.SetAcquiresANewPin : Prop :=
  ∀ (s : State) (p : PinArg) (imm : Bool) (a m : Nat) (v code : Byte) (i : Instr),
    Inv s → s.armed = true → p.field ≠ allPins → lookup p.field s = none →
    s.cfg.pinOf p.field = some (a, m) → s.freeHead ≠ noLink →
    (i = .set p v imm ∧ code = 0 ∨
      ∃ q : Byte, i = .setPercent p q imm ∧ v = BitVec.ofNat 8 (min q.toNat 100 * 255 / 100) ∧
        code = if 100 < q.toNat then 1 else 0) →
    ∃ t, exec i s = .next t ∧
      t.record s.freeHead =
        { pin := p.field, pol := s.defaultPol, reg := a, mask := m, target := v
          current := if imm then v else 0, up := 0, down := 0, next := s.activeHead, prev := noLink } ∧
      (∀ d : Link, d.toNat < s.cfg.nCh → d ≠ s.freeHead → t.record d =
        { s.record d with
          prev :=
            if d = s.activeHead then s.freeHead
            else if d = (s.record s.freeHead).next then noLink
            else (s.record d).prev }) ∧
      t.pool.length = s.pool.length ∧
      t.freeHead = (s.record s.freeHead).next ∧ t.activeHead = s.freeHead ∧
      activeWalk t = s.freeHead :: activeWalk s ∧ s.freeHead :: freeWalk t = freeWalk s ∧
      t.trace = s.trace
        ++ [.gpioWrite a m (if s.defaultPol = .normal then .low else .high), .pinDir p.field .output]
        ++ (if imm then [.timerReset] else []) ∧
      (∀ b j : Nat, t.outBit b j =
        if b = a ∧ m.testBit j = true then decide (s.defaultPol = .inverted) else s.outBit b j) ∧
      (∀ x : Byte, t.pinDirection x = if x = p.field then some .output else s.pinDirection x) ∧
      t.tickCount = (if imm then 255 else s.tickCount) ∧ t.lastStatus = code ∧
      { t with
        pool := s.pool, freeHead := s.freeHead, activeHead := s.activeHead, trace := s.trace
        out := s.out, dir := s.dir, tickCount := s.tickCount, lastStatus := s.lastStatus } = s

/-- R124, R121: an acquisition of a pin PIN_MAP does not define ends INVALID_PIN, one with FREE empty
POOL_EXHAUSTED, the first check first, with no other effect. -/
def Obligations.AcquisitionAbortsWithoutEffect : Prop :=
  ∀ (s : State) (p : PinArg) (v q : Byte) (imm : Bool), s.armed = true → p.field ≠ allPins →
    lookup p.field s = none →
    (s.cfg.pinOf p.field = none →
      exec (.set p v imm) s = .next { s with lastStatus := 3 } ∧
      exec (.setPercent p q imm) s = .next { s with lastStatus := 3 }) ∧
    (s.cfg.pinOf p.field ≠ none → s.freeHead = noLink →
      exec (.set p v imm) s = .next { s with lastStatus := 4 } ∧
      exec (.setPercent p q imm) s = .next { s with lastStatus := 4 })

/-- R127, R132, R133: with the wildcard, SET and SET_PERCENT write the target of every active channel and,
with `imm` and at least one active channel, make the hard reset of all; nothing else. -/
def Obligations.SetAllUpdatesEveryActiveChannel : Prop :=
  ∀ (s : State) (p : PinArg) (imm : Bool) (v code : Byte) (i : Instr),
    s.armed = true → p.field = allPins →
    (i = .set p v imm ∧ code = 0 ∨
      ∃ q : Byte, i = .setPercent p q imm ∧ v = BitVec.ofNat 8 (min q.toNat 100 * 255 / 100) ∧
        code = if 100 < q.toNat then 1 else 0) →
    ∃ t, exec i s = .next t ∧
      (∀ d : Link, d.toNat < s.pool.length → t.record d =
        if d ∈ activeWalk s then
          { s.record d with target := v, current := if imm then v else (s.record d).current }
        else s.record d) ∧
      t.pool.length = s.pool.length ∧
      t.tickCount = (if imm = true ∧ activeWalk s ≠ [] then 255 else s.tickCount) ∧
      t.trace = s.trace ++ (if imm = true ∧ activeWalk s ≠ [] then [.timerReset] else []) ∧
      t.lastStatus = code ∧
      { t with
        pool := s.pool, tickCount := s.tickCount, trace := s.trace, lastStatus := s.lastStatus } = s

/-- R133: SET_PERCENT is SET of the converted value, but for ARG_ADJUSTED where SET finishes OK and the
percent was above 100. -/
def Obligations.SetPercentIsSetOfTheConvertedValue : Prop :=
  ∀ (s : State) (p : PinArg) (q : Byte) (imm : Bool), ∃ t,
    exec (.set p (BitVec.ofNat 8 (min q.toNat 100 * 255 / 100)) imm) s = .next t ∧
    exec (.setPercent p q imm) s = .next
      { t with lastStatus := if t.lastStatus = 0 ∧ 100 < q.toNat then 1 else t.lastStatus }

/-- R126, R246: after SET with `imm` of an active pin the next TICK starts a cycle, with that channel at its
new target and its pin driven accordingly. -/
def Obligations.HardResetStartsACycleAtTheNextTick : Prop :=
  ∀ (s : State) (p : PinArg) (v : Byte) (c : Link) (rest : List Input), Inv s → s.armed = true →
    p.field ≠ allPins → lookup p.field s = some c →
    ∃ t u, exec (.set p v true) s = .next t ∧ step { t with inputs := .tick :: rest } = .next u ∧
      u.tickCount = 0 ∧ (u.record c).current = v ∧
      u.pinLevel p.field = some (cycleLevel (s.record c).pol v 0)

/-- 95_test_vectors.md S1: a SET of one pin that took effect, then a QUERY of it, reports the target set. -/
def Obligations.QueryAfterSetReportsTheTarget : Prop :=
  ∀ (s t : State) (p : PinArg) (v : Byte) (imm : Bool), Inv s → s.armed = true → p.field ≠ allPins →
    exec (.set p v imm) s = .next t → t.lastStatus = 0 →
    ∃ u, exec (.query p) t = .next u ∧ u.lastStatus = 0 ∧
      u.resp.extractLsb' 47 1 = 1 ∧ u.resp.extractLsb' 24 8 = v

/-! ### SET_FADE, SET_POLARITY, END, QUERY -/

/-- R134, R127, R192: SET_FADE writes the two rates of every channel it applies to and nothing else. -/
def Obligations.SetFadeWritesTheRates : Prop :=
  ∀ (s : State) (p : PinArg) (upMs downMs : Duration), s.armed = true →
    (p.field = allPins ∨ targets p.field s ≠ []) →
    ∃ t, exec (.setFade p upMs downMs) s = .next t ∧
      (∀ d : Link, d.toNat < s.pool.length → t.record d =
        if d ∈ targets p.field s then
          { s.record d with
            up := (fadeRate s.cfg.cyclePeriodMs upMs).1
            down := (fadeRate s.cfg.cyclePeriodMs downMs).1 }
        else s.record d) ∧
      t.pool.length = s.pool.length ∧
      t.lastStatus =
        (if (fadeRate s.cfg.cyclePeriodMs upMs).2 = true ∨ (fadeRate s.cfg.cyclePeriodMs downMs).2 = true
          then 1 else 0) ∧
      { t with pool := s.pool, lastStatus := s.lastStatus } = s

/-- R135, R127, R122: SET_POLARITY writes the polarity of every channel it applies to and nothing else: no
pin, no event, not `default_pol`. -/
def Obligations.SetPolarityWritesThePolarity : Prop :=
  ∀ (s : State) (p : PinArg) (raw : Byte), s.armed = true →
    (p.field = allPins ∨ targets p.field s ≠ []) →
    ∃ t, exec (.setPolarity p raw) s = .next t ∧
      (∀ d : Link, d.toNat < s.pool.length → t.record d =
        if d ∈ targets p.field s then
          { s.record d with pol := if raw = 0 then .normal else .inverted }
        else s.record d) ∧
      t.pool.length = s.pool.length ∧
      t.lastStatus = (if 1 < raw.toNat then 1 else 0) ∧
      { t with pool := s.pool, lastStatus := s.lastStatus } = s

/-- R134 to R137, R211: on a pin that is not active, SET_FADE, SET_POLARITY, END and QUERY end UNKNOWN_PIN
with no other effect, but that QUERY clears `resp`; END and QUERY do so for ALL too. -/
def Obligations.UnknownPinIsReportedWithoutEffect : Prop :=
  ∀ (s : State) (p : PinArg), s.armed = true → lookup p.field s = none →
    (p.field ≠ allPins → ∀ upMs downMs,
      exec (.setFade p upMs downMs) s = .next { s with lastStatus := 2 }) ∧
    (p.field ≠ allPins → ∀ raw, exec (.setPolarity p raw) s = .next { s with lastStatus := 2 }) ∧
    exec (.endChannel p) s = .next { s with lastStatus := 2 } ∧
    exec (.query p) s = .next { s with lastStatus := 2, resp := 0 }

/-- R136, R125: END makes the pin an input, writes the idle level of the channel's polarity, resets the
record and puts it at the head of FREE; nothing else. -/
def Obligations.EndReleasesTheChannel : Prop :=
  ∀ (s : State) (p : PinArg) (c : Link), Inv s → s.armed = true → lookup p.field s = some c →
    ∃ t, exec (.endChannel p) s = .next t ∧
      t.record c =
        { pin := 0xFF, pol := .normal, reg := 0, mask := 0, target := 0, current := 0, up := 0, down := 0
          next := s.freeHead, prev := noLink } ∧
      (∀ d : Link, d.toNat < s.cfg.nCh → d ≠ c → t.record d =
        { s.record d with
          next := if d = (s.record c).prev then (s.record c).next else (s.record d).next
          prev :=
            if d = (s.record c).next then (s.record c).prev
            else if d = s.freeHead then c
            else (s.record d).prev }) ∧
      t.pool.length = s.pool.length ∧
      t.freeHead = c ∧
      t.activeHead = (if s.activeHead = c then (s.record c).next else s.activeHead) ∧
      activeWalk t = (activeWalk s).erase c ∧ freeWalk t = c :: freeWalk s ∧
      t.trace = s.trace ++
        [.pinDir p.field .input,
          .gpioWrite (s.record c).reg (s.record c).mask
            (if (s.record c).pol = .normal then .low else .high)] ∧
      (∀ b j : Nat, t.outBit b j =
        if b = (s.record c).reg ∧ (s.record c).mask.testBit j = true then
          decide ((s.record c).pol = .inverted)
        else s.outBit b j) ∧
      (∀ x : Byte, t.pinDirection x = if x = p.field then some .input else s.pinDirection x) ∧
      t.lastStatus = 0 ∧
      { t with
        pool := s.pool, freeHead := s.freeHead, activeHead := s.activeHead, trace := s.trace
        out := s.out, dir := s.dir, lastStatus := s.lastStatus } = s

/-- 95_test_vectors.md S3, R136: a SET right after the END of the same pin takes the same record, and no
rate, polarity or duty of the old channel remains. -/
def Obligations.ReacquiredChannelHasNoResidue : Prop :=
  ∀ (s : State) (p : PinArg) (v : Byte) (c : Link), Inv s → s.armed = true →
    lookup p.field s = some c →
    ∃ t u, exec (.endChannel p) s = .next t ∧ exec (.set p v false) t = .next u ∧
      lookup p.field u = some c ∧ u.lastStatus = 0 ∧
      (u.record c).pol = s.defaultPol ∧ (u.record c).target = v ∧ (u.record c).current = 0 ∧
      (u.record c).up = 0 ∧ (u.record c).down = 0 ∧
      (u.record c).reg = (s.record c).reg ∧ (u.record c).mask = (s.record c).mask

/-- R137, R36: QUERY of an active pin writes the response word of its record and OK, nothing else. -/
def Obligations.QueryReportsTheRecord : Prop :=
  ∀ (s : State) (p : PinArg) (c : Link), s.armed = true → lookup p.field s = some c →
    ∃ w : BitVec 48, exec (.query p) s = .next { s with resp := w, lastStatus := 0 } ∧
      w.extractLsb' 47 1 = 1 ∧ w.extractLsb' 46 1 = (s.record c).pol.toBit ∧
      w.extractLsb' 40 6 = 0 ∧ w.extractLsb' 32 8 = c ∧
      w.extractLsb' 24 8 = (s.record c).target ∧ w.extractLsb' 16 8 = (s.record c).current ∧
      w.extractLsb' 8 8 = (s.record c).up ∧ w.extractLsb' 0 8 = (s.record c).down

/-! ### Fade -/

/-- R190, on unbounded integers. -/
def Obligations.FadeStepFormula : Prop :=
  ∀ t cur up dn : Byte, ((fadeStep t cur up dn).toNat : Int) =
    if t = cur then (cur.toNat : Int)
    else if cur.toNat < t.toNat then
      if up = 0 then (t.toNat : Int) else min (t.toNat : Int) ((cur.toNat : Int) + up.toNat)
    else
      if dn = 0 then (t.toNat : Int) else max (t.toNat : Int) ((cur.toNat : Int) - dn.toNat)

/-- R191: the step never passes the target, moves strictly toward it, and reaches it in exactly the number
of wrap ticks the rule gives. -/
def Obligations.FadeReachesTheTargetInTheStatedSteps : Prop :=
  ∀ t cur up dn : Byte,
    (cur.toNat ≤ t.toNat → cur.toNat ≤ (fadeStep t cur up dn).toNat ∧
      (fadeStep t cur up dn).toNat ≤ t.toNat) ∧
    (t.toNat ≤ cur.toNat → t.toNat ≤ (fadeStep t cur up dn).toNat ∧
      (fadeStep t cur up dn).toNat ≤ cur.toNat) ∧
    (cur ≠ t → fadeStep t cur up dn ≠ cur) ∧
    (∀ k : Nat, (fun x => fadeStep t x up dn)^[k] cur = t ↔ fadeSteps t cur up dn ≤ k)

/-- R192: the rate of a duration, exact, and when it is clamped. -/
def Obligations.FadeRateFormula : Prop :=
  ∀ (period : Nat) (d : Duration),
    (d = 0 → fadeRate period d = (0, false)) ∧
    (d ≠ 0 → 255 < 255 * period / d.toNat → fadeRate period d = (255, true)) ∧
    (d ≠ 0 → 255 * period / d.toNat ≤ 255 →
      (fadeRate period d).1.toNat = 255 * period / d.toNat ∧ (fadeRate period d).2 = false)

/-- R194: a full ramp at a rate that was not clamped lasts at least the duration asked for. -/
def Obligations.FullRampLastsAtLeastTheDuration : Prop :=
  ∀ (period : Nat) (d : Duration), (fadeRate period d).2 = false → (fadeRate period d).1 ≠ 0 →
    d.toNat ≤ (255 + (fadeRate period d).1.toNat - 1) / (fadeRate period d).1.toNat * period

/-- R193, R172: over `n` whole cycles with no command between, every active channel makes `n` fade steps,
wherever in the cycle the counter stood, and nothing else of its record changes. -/
def Obligations.WholeCyclesMakeOneFadeStepEach : Prop :=
  ∀ (s : State) (n : Nat) (c : Link), Inv s → s.armed = true → c ∈ activeWalk s →
    ∃ t, Host.Core.run Sys2Proof.core (256 * n) (s.queueTicks (256 * n)) = .next t ∧
      t.record c =
        { s.record c with
          current := (fun x => fadeStep (s.record c).target x (s.record c).up (s.record c).down)^[n]
            (s.record c).current } ∧
      t.tickCount = s.tickCount ∧ t.inputs = s.inputs

/-! ### The TICK -/

/-- R174. -/
def Obligations.PinLevelsPerPolarity : Prop :=
  onLevel .normal = .high ∧ offLevel .normal = .low ∧
  onLevel .inverted = .low ∧ offLevel .inverted = .high

/-- R171: the counter adds 1 and wraps at 256. -/
def Obligations.TickAdvancesTheCounterModulo256 : Prop :=
  ∀ (s : State) (rest : List Input), s.cfg.legal = true → s.armed = true →
    s.inputs = .tick :: rest →
    ∃ t, step s = .next t ∧ t.tickCount.toNat = (s.tickCount.toNat + 1) % 256

/-- R170: what no TICK writes, and that a TICK before BEGIN writes nothing. -/
def Obligations.TickWritesOnlyCounterCurrentsAndPins : Prop :=
  ∀ s : State,
    (s.armed = false → tickStep s = s) ∧
    (tickStep s).pool.length = s.pool.length ∧
    (∀ c, (tickStep s).record c =
      { s.record c with current := ((tickStep s).record c).current }) ∧
    { tickStep s with pool := s.pool, tickCount := s.tickCount, out := s.out, trace := s.trace } = s

/-- R172: a wrap tick makes the fade step of every active channel and drives its pin on, or off when the
new `current` is 0, one write per channel in list order; no other record, register bit or field changes,
and the TICK is taken. -/
def Obligations.WrapTickFadesAndDrivesEveryChannel : Prop :=
  ∀ (s : State) (rest : List Input), Inv s → s.armed = true → s.tickCount = 255 →
    s.inputs = .tick :: rest →
    ∃ t, step s = .next t ∧ t.tickCount = 0 ∧ t.inputs = rest ∧
      (∀ d : Link, d.toNat < s.cfg.nCh → t.record d =
        if d ∈ activeWalk s then
          { s.record d with
            current := fadeStep (s.record d).target (s.record d).current (s.record d).up
              (s.record d).down }
        else s.record d) ∧
      t.pool.length = s.pool.length ∧
      t.trace = s.trace ++ (activeWalk s).map (fun c =>
        .gpioWrite (s.record c).reg (s.record c).mask
          (if (t.record c).current = 0 then offLevel (s.record c).pol else onLevel (s.record c).pol)) ∧
      (∀ c ∈ activeWalk s, t.pinLevel (s.record c).pin =
        some (if (t.record c).current = 0 then offLevel (s.record c).pol else onLevel (s.record c).pol)) ∧
      (∀ b j : Nat, (∀ c ∈ activeWalk s, ¬(b = (s.record c).reg ∧ (s.record c).mask.testBit j = true)) →
        t.outBit b j = s.outBit b j) ∧
      { t with
        pool := s.pool, tickCount := s.tickCount, out := s.out, trace := s.trace
        inputs := s.inputs } = s

/-- R173: any other tick writes "off" to exactly the active channels whose `current`, neither 0 nor 255, the
counter has reached, in list order; no record, other register bit (a channel's at 255 among them, row T6 of
95_test_vectors.md) or other field changes, and the TICK is taken. -/
def Obligations.ThresholdTickTurnsOffAtCurrent : Prop :=
  ∀ (s : State) (rest : List Input), Inv s → s.armed = true → s.tickCount ≠ 255 →
    s.inputs = .tick :: rest →
    ∃ t, step s = .next t ∧ t.tickCount = s.tickCount + 1 ∧ t.pool = s.pool ∧ t.inputs = rest ∧
      t.trace = s.trace ++
        ((activeWalk s).filter (fun c =>
          decide ((s.record c).current ≠ 0 ∧ (s.record c).current ≠ 255 ∧
            s.tickCount + 1 = (s.record c).current))).map
          (fun c => .gpioWrite (s.record c).reg (s.record c).mask (offLevel (s.record c).pol)) ∧
      (∀ c ∈ activeWalk s, (s.record c).current ≠ 0 → (s.record c).current ≠ 255 →
        s.tickCount + 1 = (s.record c).current →
        t.pinLevel (s.record c).pin = some (offLevel (s.record c).pol)) ∧
      (∀ b j : Nat,
        (∀ c ∈ activeWalk s, (s.record c).current ≠ 255 → s.tickCount + 1 = (s.record c).current →
          ¬(b = (s.record c).reg ∧ (s.record c).mask.testBit j = true)) →
        t.outBit b j = s.outBit b j) ∧
      { t with
        tickCount := s.tickCount, out := s.out, trace := s.trace, inputs := s.inputs } = s

/-- R176: the waveform of one cycle. From the wrap tick on, with no command between, an active channel's pin
after the tick that leaves the counter at `k` is on for the whole cycle when driven at 255, and else on
exactly while `k` is below the value driven. -/
def Obligations.WaveformOfOneCycle : Prop :=
  ∀ (s : State) (c : Link) (k : Nat), Inv s → s.armed = true → s.tickCount = 255 →
    c ∈ activeWalk s → k ≤ 255 →
    ∃ t, Host.Core.run Sys2Proof.core (k + 1) (s.queueTicks (k + 1)) = .next t ∧
      t.tickCount = BitVec.ofNat 8 k ∧
      t.pinLevel (s.record c).pin =
        some (cycleLevel (s.record c).pol
          (fadeStep (s.record c).target (s.record c).current (s.record c).up (s.record c).down) k)

/-- R43, R176: of the 256 ticks of a cycle driven at `v` the pin is on for 256 when `v` is 255, and else for
`v`. -/
def Obligations.DutyIsTheNumberOfTicksOn : Prop :=
  ∀ (pol : Polarity) (v : Byte),
    (List.range 256).countP (fun k => decide (cycleLevel pol v k = onLevel pol)) = dutyTicks v

/-- R177, R179: in one complete cycle an active channel gets one pin write at the wrap tick, and exactly one
more when driven at 1..254. -/
def Obligations.OneOrTwoPinWritesPerCycle : Prop :=
  ∀ (s : State) (c : Link), Inv s → s.armed = true → s.tickCount = 255 → c ∈ activeWalk s →
    ∃ t, Host.Core.run Sys2Proof.core 256 (s.queueTicks 256) = .next t ∧
      (t.trace.drop s.trace.length).countP (fun e =>
          decide (e = .gpioWrite (s.record c).reg (s.record c).mask .low ∨
            e = .gpioWrite (s.record c).reg (s.record c).mask .high)) =
        if (t.record c).current = 0 ∨ (t.record c).current = 255 then 1 else 2

/-! ### GPIO -/

/-- R55: a GpioWrite sets or clears the bits of its mask in one register and leaves every other bit, of that
register and of every other, as before; nothing else of the state but the emitted events changes. -/
def Obligations.GpioWriteTouchesOnlyItsBits : Prop :=
  ∀ (s : State) (a m : Nat) (lvl : Level), Memory.wf s.out = true → a < 2 ^ s.cfg.outAddrW →
    m < 2 ^ s.cfg.outRegW →
    (∀ b j : Nat, (gpioWrite a m lvl s).outBit b j =
      if b = a ∧ m.testBit j = true then decide (lvl = .high) else s.outBit b j) ∧
    { gpioWrite a m lvl s with out := s.out, trace := s.trace } = s ∧
    (gpioWrite a m lvl s).trace = s.trace ++ [.gpioWrite a m lvl]

/-- R56: a PinDir of a valid pin sets its direction, and no other direction and no OUT bit. -/
def Obligations.PinDirSetsOneDirection : Prop :=
  ∀ (s : State) (p : Byte) (d : Direction), s.cfg.validPin p = true →
    (∀ x : Byte, (pinDir p d s).pinDirection x = if x = p then some d else s.pinDirection x) ∧
    { pinDir p d s with dir := s.dir, trace := s.trace } = s ∧
    (pinDir p d s).trace = s.trace ++ [.pinDir p d]

/-- R41: the block writes OUT only through GpioWrite and DIR only through PinDir: after every step but RST,
both are what the events the step emitted make of them. -/
def Obligations.GpioChangesOnlyThroughEvents : Prop :=
  ∀ (s : State) (e : Input) (rest : List Input), s.cfg.legal = true → s.inputs = e :: rest →
    e ≠ .reset →
    ∃ t es, step s = .next t ∧ t.trace = s.trace ++ es ∧ t.out = replayOut s.out es ∧
      t.dir = replayDir s.cfg s.dir es

/-! ### STATUS -/

/-- R37: the fields of STATUS, and its value after reset. -/
def Obligations.StatusWordLayout : Prop :=
  (∀ s : State, s.cfg.legal = true →
    s.status.extractLsb' 0 8 = s.lastStatus ∧ s.status.extractLsb' 8 8 = s.tickCount ∧
    (s.status.extractLsb' 16 1 = 1 ↔ s.armed = true) ∧
    (s.status.extractLsb' 17 1 = 1 ↔ s.defaultPol = .inverted) ∧
    s.status.extractLsb' 18 6 = 0 ∧
    (s.status.extractLsb' 24 8).toNat = (activeWalk s).length) ∧
  (∀ P : Params, P.legal = true → (State.resetWith P).status = 0)

/-- R54: a TICK changes the counter field of STATUS and no other part of STATUS or RESP. -/
def Obligations.TickChangesOnlyTheCounterOfStatus : Prop :=
  ∀ s : State,
    (tickStep s).status.extractLsb' 0 8 = s.status.extractLsb' 0 8 ∧
    (tickStep s).status.extractLsb' 16 16 = s.status.extractLsb' 16 16 ∧
    (tickStep s).resp = s.resp

/-! ### Reset and invariants -/

/-- R240: RST leaves the block as the rule says, from any state, and emits no event; STATUS reads 0. -/
def Obligations.HardwareResetState : Prop :=
  ∀ (s : State) (rest : List Input), s.cfg.legal = true → s.inputs = .reset :: rest →
    ∃ t, step s = .next t ∧
      t.pool = (poolInit s).pool ∧ t.freeHead = (poolInit s).freeHead ∧
      t.activeHead = (poolInit s).activeHead ∧ t.tickCount = 0 ∧ t.defaultPol = .normal ∧
      t.armed = false ∧ t.lastStatus = 0 ∧ t.resp = 0 ∧ t.status = 0 ∧ t.trace = s.trace ∧
      t.cfg = s.cfg ∧ t.inputs = rest

/-- The invariants hold right after reset, for every legal parameter set and for State.reset. -/
def Obligations.InvariantHoldsAfterReset : Prop :=
  (∀ P : Params, P.legal = true →
    Inv (State.resetWith P) ∧ IdleBeforeBegin (State.resetWith P) ∧
      ActivePinsDriven (State.resetWith P)) ∧
  Inv State.reset

/-- R28: every step keeps the invariants of the channel pool. -/
def Obligations.EveryStepKeepsThePoolInvariants : Prop :=
  ∀ s t : State, PoolWf s → step s = .next t → PoolWf t

/-- Every step keeps `last_status` among the codes 0 to 6 (R35), the reserved bits of RESP zero (R36), the
written part of OUT inside the output-register space and that of DIR on valid pins (R41, R50), and both in
their canonical forms, which are the model's choice (log entries 6 and 7). -/
def Obligations.EveryStepKeepsTheForms : Prop :=
  ∀ s t : State, FormsWf s → step s = .next t → FormsWf t

/-- R33, R224: before the first BEGIN the block stays as reset left it, but for `last_status`. -/
def Obligations.EveryStepKeepsIdleBeforeBegin : Prop :=
  ∀ s t : State, IdleBeforeBegin s → step s = .next t → IdleBeforeBegin t

/-- R124, R125, R248: after every step, the pin of every active channel is an output. -/
def Obligations.EveryStepKeepsActivePinsDriven : Prop :=
  ∀ s t : State, Inv s → ActivePinsDriven s → step s = .next t → ActivePinsDriven t
end

