-- ==== Sys2Proof/Laws/State.lean ====
section
/-! SUPPORT. One lemma per field per update of the state: what each operation leaves alone, and the
field it writes. -/

namespace Sys2Proof.Machine

/-! ### emit -/

@[simp] theorem State.emit_cfg (s : State) (e : Output) : (s.emit e).cfg = s.cfg := rfl
@[simp] theorem State.emit_pool (s : State) (e : Output) : (s.emit e).pool = s.pool := rfl
@[simp] theorem State.emit_freeHead (s : State) (e : Output) : (s.emit e).freeHead = s.freeHead := rfl
@[simp] theorem State.emit_activeHead (s : State) (e : Output) : (s.emit e).activeHead = s.activeHead := rfl
@[simp] theorem State.emit_tickCount (s : State) (e : Output) : (s.emit e).tickCount = s.tickCount := rfl
@[simp] theorem State.emit_defaultPol (s : State) (e : Output) : (s.emit e).defaultPol = s.defaultPol := rfl
@[simp] theorem State.emit_armed (s : State) (e : Output) : (s.emit e).armed = s.armed := rfl
@[simp] theorem State.emit_lastStatus (s : State) (e : Output) : (s.emit e).lastStatus = s.lastStatus := rfl
@[simp] theorem State.emit_resp (s : State) (e : Output) : (s.emit e).resp = s.resp := rfl
@[simp] theorem State.emit_out (s : State) (e : Output) : (s.emit e).out = s.out := rfl
@[simp] theorem State.emit_dir (s : State) (e : Output) : (s.emit e).dir = s.dir := rfl
@[simp] theorem State.emit_trace (s : State) (e : Output) : (s.emit e).trace = s.trace ++ [e] := rfl
@[simp] theorem State.emit_inputs (s : State) (e : Output) : (s.emit e).inputs = s.inputs := rfl
@[simp] theorem State.emit_resets (s : State) (e : Output) : (s.emit e).resets = s.resets := rfl
@[simp] theorem State.emit_arbitrations (s : State) (e : Output) : (s.emit e).arbitrations = s.arbitrations := rfl

/-! ### update -/

@[simp] theorem State.update_cfg (s : State) (c : Link) (f : Channel → Channel) : (s.update c f).cfg = s.cfg := rfl
@[simp] theorem State.update_pool (s : State) (c : Link) (f : Channel → Channel) : (s.update c f).pool = s.pool.modify c.toNat f := rfl
@[simp] theorem State.update_freeHead (s : State) (c : Link) (f : Channel → Channel) : (s.update c f).freeHead = s.freeHead := rfl
@[simp] theorem State.update_activeHead (s : State) (c : Link) (f : Channel → Channel) : (s.update c f).activeHead = s.activeHead := rfl
@[simp] theorem State.update_tickCount (s : State) (c : Link) (f : Channel → Channel) : (s.update c f).tickCount = s.tickCount := rfl
@[simp] theorem State.update_defaultPol (s : State) (c : Link) (f : Channel → Channel) : (s.update c f).defaultPol = s.defaultPol := rfl
@[simp] theorem State.update_armed (s : State) (c : Link) (f : Channel → Channel) : (s.update c f).armed = s.armed := rfl
@[simp] theorem State.update_lastStatus (s : State) (c : Link) (f : Channel → Channel) : (s.update c f).lastStatus = s.lastStatus := rfl
@[simp] theorem State.update_resp (s : State) (c : Link) (f : Channel → Channel) : (s.update c f).resp = s.resp := rfl
@[simp] theorem State.update_out (s : State) (c : Link) (f : Channel → Channel) : (s.update c f).out = s.out := rfl
@[simp] theorem State.update_dir (s : State) (c : Link) (f : Channel → Channel) : (s.update c f).dir = s.dir := rfl
@[simp] theorem State.update_trace (s : State) (c : Link) (f : Channel → Channel) : (s.update c f).trace = s.trace := rfl
@[simp] theorem State.update_inputs (s : State) (c : Link) (f : Channel → Channel) : (s.update c f).inputs = s.inputs := rfl
@[simp] theorem State.update_resets (s : State) (c : Link) (f : Channel → Channel) : (s.update c f).resets = s.resets := rfl
@[simp] theorem State.update_arbitrations (s : State) (c : Link) (f : Channel → Channel) : (s.update c f).arbitrations = s.arbitrations := rfl

/-! ### finish -/

@[simp] theorem finish_cfg (code : ResultCode) (s : State) : (finish code s).cfg = s.cfg := rfl
@[simp] theorem finish_pool (code : ResultCode) (s : State) : (finish code s).pool = s.pool := rfl
@[simp] theorem finish_freeHead (code : ResultCode) (s : State) : (finish code s).freeHead = s.freeHead := rfl
@[simp] theorem finish_activeHead (code : ResultCode) (s : State) : (finish code s).activeHead = s.activeHead := rfl
@[simp] theorem finish_tickCount (code : ResultCode) (s : State) : (finish code s).tickCount = s.tickCount := rfl
@[simp] theorem finish_defaultPol (code : ResultCode) (s : State) : (finish code s).defaultPol = s.defaultPol := rfl
@[simp] theorem finish_armed (code : ResultCode) (s : State) : (finish code s).armed = s.armed := rfl
@[simp] theorem finish_lastStatus (code : ResultCode) (s : State) : (finish code s).lastStatus = code.toByte := rfl
@[simp] theorem finish_resp (code : ResultCode) (s : State) : (finish code s).resp = s.resp := rfl
@[simp] theorem finish_out (code : ResultCode) (s : State) : (finish code s).out = s.out := rfl
@[simp] theorem finish_dir (code : ResultCode) (s : State) : (finish code s).dir = s.dir := rfl
@[simp] theorem finish_trace (code : ResultCode) (s : State) : (finish code s).trace = s.trace := rfl
@[simp] theorem finish_inputs (code : ResultCode) (s : State) : (finish code s).inputs = s.inputs := rfl
@[simp] theorem finish_resets (code : ResultCode) (s : State) : (finish code s).resets = s.resets := rfl
@[simp] theorem finish_arbitrations (code : ResultCode) (s : State) : (finish code s).arbitrations = s.arbitrations := rfl

/-! ### countTick -/

@[simp] theorem State.countTick_cfg (s : State) : (s.countTick).cfg = s.cfg := rfl
@[simp] theorem State.countTick_pool (s : State) : (s.countTick).pool = s.pool := rfl
@[simp] theorem State.countTick_freeHead (s : State) : (s.countTick).freeHead = s.freeHead := rfl
@[simp] theorem State.countTick_activeHead (s : State) : (s.countTick).activeHead = s.activeHead := rfl
@[simp] theorem State.countTick_tickCount (s : State) : (s.countTick).tickCount = s.tickCount + 1 := rfl
@[simp] theorem State.countTick_defaultPol (s : State) : (s.countTick).defaultPol = s.defaultPol := rfl
@[simp] theorem State.countTick_armed (s : State) : (s.countTick).armed = s.armed := rfl
@[simp] theorem State.countTick_lastStatus (s : State) : (s.countTick).lastStatus = s.lastStatus := rfl
@[simp] theorem State.countTick_resp (s : State) : (s.countTick).resp = s.resp := rfl
@[simp] theorem State.countTick_out (s : State) : (s.countTick).out = s.out := rfl
@[simp] theorem State.countTick_dir (s : State) : (s.countTick).dir = s.dir := rfl
@[simp] theorem State.countTick_trace (s : State) : (s.countTick).trace = s.trace := rfl
@[simp] theorem State.countTick_inputs (s : State) : (s.countTick).inputs = s.inputs := rfl
@[simp] theorem State.countTick_resets (s : State) : (s.countTick).resets = s.resets := rfl
@[simp] theorem State.countTick_arbitrations (s : State) : (s.countTick).arbitrations = s.arbitrations := rfl

/-! ### gpioWrite -/

@[simp] theorem gpioWrite_cfg (a m : Nat) (l : Level) (s : State) : (gpioWrite a m l s).cfg = s.cfg := rfl
@[simp] theorem gpioWrite_pool (a m : Nat) (l : Level) (s : State) : (gpioWrite a m l s).pool = s.pool := rfl
@[simp] theorem gpioWrite_freeHead (a m : Nat) (l : Level) (s : State) : (gpioWrite a m l s).freeHead = s.freeHead := rfl
@[simp] theorem gpioWrite_activeHead (a m : Nat) (l : Level) (s : State) : (gpioWrite a m l s).activeHead = s.activeHead := rfl
@[simp] theorem gpioWrite_tickCount (a m : Nat) (l : Level) (s : State) : (gpioWrite a m l s).tickCount = s.tickCount := rfl
@[simp] theorem gpioWrite_defaultPol (a m : Nat) (l : Level) (s : State) : (gpioWrite a m l s).defaultPol = s.defaultPol := rfl
@[simp] theorem gpioWrite_armed (a m : Nat) (l : Level) (s : State) : (gpioWrite a m l s).armed = s.armed := rfl
@[simp] theorem gpioWrite_lastStatus (a m : Nat) (l : Level) (s : State) : (gpioWrite a m l s).lastStatus = s.lastStatus := rfl
@[simp] theorem gpioWrite_resp (a m : Nat) (l : Level) (s : State) : (gpioWrite a m l s).resp = s.resp := rfl
@[simp] theorem gpioWrite_out (a m : Nat) (l : Level) (s : State) : (gpioWrite a m l s).out = writeOut s.out (s.cfg.addrBits a) (s.cfg.maskBits m) l := rfl
@[simp] theorem gpioWrite_dir (a m : Nat) (l : Level) (s : State) : (gpioWrite a m l s).dir = s.dir := rfl
@[simp] theorem gpioWrite_trace (a m : Nat) (l : Level) (s : State) : (gpioWrite a m l s).trace = s.trace ++ [.gpioWrite (s.cfg.addrBits a) (s.cfg.maskBits m) l] := rfl
@[simp] theorem gpioWrite_inputs (a m : Nat) (l : Level) (s : State) : (gpioWrite a m l s).inputs = s.inputs := rfl
@[simp] theorem gpioWrite_resets (a m : Nat) (l : Level) (s : State) : (gpioWrite a m l s).resets = s.resets := rfl
@[simp] theorem gpioWrite_arbitrations (a m : Nat) (l : Level) (s : State) : (gpioWrite a m l s).arbitrations = s.arbitrations := rfl

/-! ### pinDir -/

@[simp] theorem pinDir_cfg (p : Byte) (d : Direction) (s : State) : (pinDir p d s).cfg = s.cfg := rfl
@[simp] theorem pinDir_pool (p : Byte) (d : Direction) (s : State) : (pinDir p d s).pool = s.pool := rfl
@[simp] theorem pinDir_freeHead (p : Byte) (d : Direction) (s : State) : (pinDir p d s).freeHead = s.freeHead := rfl
@[simp] theorem pinDir_activeHead (p : Byte) (d : Direction) (s : State) : (pinDir p d s).activeHead = s.activeHead := rfl
@[simp] theorem pinDir_tickCount (p : Byte) (d : Direction) (s : State) : (pinDir p d s).tickCount = s.tickCount := rfl
@[simp] theorem pinDir_defaultPol (p : Byte) (d : Direction) (s : State) : (pinDir p d s).defaultPol = s.defaultPol := rfl
@[simp] theorem pinDir_armed (p : Byte) (d : Direction) (s : State) : (pinDir p d s).armed = s.armed := rfl
@[simp] theorem pinDir_lastStatus (p : Byte) (d : Direction) (s : State) : (pinDir p d s).lastStatus = s.lastStatus := rfl
@[simp] theorem pinDir_resp (p : Byte) (d : Direction) (s : State) : (pinDir p d s).resp = s.resp := rfl
@[simp] theorem pinDir_out (p : Byte) (d : Direction) (s : State) : (pinDir p d s).out = s.out := rfl
@[simp] theorem pinDir_dir (p : Byte) (d : Direction) (s : State) : (pinDir p d s).dir = if s.cfg.validPin p then storePut s.dir p.toNat d else s.dir := rfl
@[simp] theorem pinDir_trace (p : Byte) (d : Direction) (s : State) : (pinDir p d s).trace = s.trace ++ [.pinDir p d] := rfl
@[simp] theorem pinDir_inputs (p : Byte) (d : Direction) (s : State) : (pinDir p d s).inputs = s.inputs := rfl
@[simp] theorem pinDir_resets (p : Byte) (d : Direction) (s : State) : (pinDir p d s).resets = s.resets := rfl
@[simp] theorem pinDir_arbitrations (p : Byte) (d : Direction) (s : State) : (pinDir p d s).arbitrations = s.arbitrations := rfl

/-! ### timerReset -/

@[simp] theorem timerReset_cfg (s : State) : (timerReset s).cfg = s.cfg := rfl
@[simp] theorem timerReset_pool (s : State) : (timerReset s).pool = s.pool := rfl
@[simp] theorem timerReset_freeHead (s : State) : (timerReset s).freeHead = s.freeHead := rfl
@[simp] theorem timerReset_activeHead (s : State) : (timerReset s).activeHead = s.activeHead := rfl
@[simp] theorem timerReset_tickCount (s : State) : (timerReset s).tickCount = s.tickCount := rfl
@[simp] theorem timerReset_defaultPol (s : State) : (timerReset s).defaultPol = s.defaultPol := rfl
@[simp] theorem timerReset_armed (s : State) : (timerReset s).armed = s.armed := rfl
@[simp] theorem timerReset_lastStatus (s : State) : (timerReset s).lastStatus = s.lastStatus := rfl
@[simp] theorem timerReset_resp (s : State) : (timerReset s).resp = s.resp := rfl
@[simp] theorem timerReset_out (s : State) : (timerReset s).out = s.out := rfl
@[simp] theorem timerReset_dir (s : State) : (timerReset s).dir = s.dir := rfl
@[simp] theorem timerReset_trace (s : State) : (timerReset s).trace = s.trace ++ [.timerReset] := rfl
@[simp] theorem timerReset_inputs (s : State) : (timerReset s).inputs = s.inputs := rfl
@[simp] theorem timerReset_resets (s : State) : (timerReset s).resets = s.resets := rfl
@[simp] theorem timerReset_arbitrations (s : State) : (timerReset s).arbitrations = s.arbitrations := rfl

/-! ### poolInit -/

@[simp] theorem poolInit_cfg (s : State) : (poolInit s).cfg = s.cfg := rfl
@[simp] theorem poolInit_pool (s : State) : (poolInit s).pool = freshPool s.cfg.nCh := rfl
@[simp] theorem poolInit_freeHead (s : State) : (poolInit s).freeHead = 0 := rfl
@[simp] theorem poolInit_activeHead (s : State) : (poolInit s).activeHead = noLink := rfl
@[simp] theorem poolInit_tickCount (s : State) : (poolInit s).tickCount = s.tickCount := rfl
@[simp] theorem poolInit_defaultPol (s : State) : (poolInit s).defaultPol = s.defaultPol := rfl
@[simp] theorem poolInit_armed (s : State) : (poolInit s).armed = s.armed := rfl
@[simp] theorem poolInit_lastStatus (s : State) : (poolInit s).lastStatus = s.lastStatus := rfl
@[simp] theorem poolInit_resp (s : State) : (poolInit s).resp = s.resp := rfl
@[simp] theorem poolInit_out (s : State) : (poolInit s).out = s.out := rfl
@[simp] theorem poolInit_dir (s : State) : (poolInit s).dir = s.dir := rfl
@[simp] theorem poolInit_trace (s : State) : (poolInit s).trace = s.trace := rfl
@[simp] theorem poolInit_inputs (s : State) : (poolInit s).inputs = s.inputs := rfl
@[simp] theorem poolInit_resets (s : State) : (poolInit s).resets = s.resets := rfl
@[simp] theorem poolInit_arbitrations (s : State) : (poolInit s).arbitrations = s.arbitrations := rfl

/-! ### resetFields -/

@[simp] theorem resetFields_cfg (c : Link) (s : State) : (resetFields c s).cfg = s.cfg := rfl
@[simp] theorem resetFields_pool (c : Link) (s : State) : (resetFields c s).pool = s.pool.modify c.toNat Channel.resetFields := rfl
@[simp] theorem resetFields_freeHead (c : Link) (s : State) : (resetFields c s).freeHead = s.freeHead := rfl
@[simp] theorem resetFields_activeHead (c : Link) (s : State) : (resetFields c s).activeHead = s.activeHead := rfl
@[simp] theorem resetFields_tickCount (c : Link) (s : State) : (resetFields c s).tickCount = s.tickCount := rfl
@[simp] theorem resetFields_defaultPol (c : Link) (s : State) : (resetFields c s).defaultPol = s.defaultPol := rfl
@[simp] theorem resetFields_armed (c : Link) (s : State) : (resetFields c s).armed = s.armed := rfl
@[simp] theorem resetFields_lastStatus (c : Link) (s : State) : (resetFields c s).lastStatus = s.lastStatus := rfl
@[simp] theorem resetFields_resp (c : Link) (s : State) : (resetFields c s).resp = s.resp := rfl
@[simp] theorem resetFields_out (c : Link) (s : State) : (resetFields c s).out = s.out := rfl
@[simp] theorem resetFields_dir (c : Link) (s : State) : (resetFields c s).dir = s.dir := rfl
@[simp] theorem resetFields_trace (c : Link) (s : State) : (resetFields c s).trace = s.trace := rfl
@[simp] theorem resetFields_inputs (c : Link) (s : State) : (resetFields c s).inputs = s.inputs := rfl
@[simp] theorem resetFields_resets (c : Link) (s : State) : (resetFields c s).resets = s.resets := rfl
@[simp] theorem resetFields_arbitrations (c : Link) (s : State) : (resetFields c s).arbitrations = s.arbitrations := rfl

/-! ### queueCommand -/

@[simp] theorem State.queueCommand_cfg (s : State) (w : Command) : (s.queueCommand w).cfg = s.cfg := rfl
@[simp] theorem State.queueCommand_pool (s : State) (w : Command) : (s.queueCommand w).pool = s.pool := rfl
@[simp] theorem State.queueCommand_freeHead (s : State) (w : Command) : (s.queueCommand w).freeHead = s.freeHead := rfl
@[simp] theorem State.queueCommand_activeHead (s : State) (w : Command) : (s.queueCommand w).activeHead = s.activeHead := rfl
@[simp] theorem State.queueCommand_tickCount (s : State) (w : Command) : (s.queueCommand w).tickCount = s.tickCount := rfl
@[simp] theorem State.queueCommand_defaultPol (s : State) (w : Command) : (s.queueCommand w).defaultPol = s.defaultPol := rfl
@[simp] theorem State.queueCommand_armed (s : State) (w : Command) : (s.queueCommand w).armed = s.armed := rfl
@[simp] theorem State.queueCommand_lastStatus (s : State) (w : Command) : (s.queueCommand w).lastStatus = s.lastStatus := rfl
@[simp] theorem State.queueCommand_resp (s : State) (w : Command) : (s.queueCommand w).resp = s.resp := rfl
@[simp] theorem State.queueCommand_out (s : State) (w : Command) : (s.queueCommand w).out = s.out := rfl
@[simp] theorem State.queueCommand_dir (s : State) (w : Command) : (s.queueCommand w).dir = s.dir := rfl
@[simp] theorem State.queueCommand_trace (s : State) (w : Command) : (s.queueCommand w).trace = s.trace := rfl
@[simp] theorem State.queueCommand_inputs (s : State) (w : Command) : (s.queueCommand w).inputs = .command w :: s.inputs := rfl
@[simp] theorem State.queueCommand_resets (s : State) (w : Command) : (s.queueCommand w).resets = s.resets := rfl
@[simp] theorem State.queueCommand_arbitrations (s : State) (w : Command) : (s.queueCommand w).arbitrations = s.arbitrations := rfl

/-! ### illegalCommand -/

@[simp] theorem illegalCommand_cfg (s : State) : (illegalCommand s).cfg = s.cfg := rfl
@[simp] theorem illegalCommand_pool (s : State) : (illegalCommand s).pool = s.pool := rfl
@[simp] theorem illegalCommand_freeHead (s : State) : (illegalCommand s).freeHead = s.freeHead := rfl
@[simp] theorem illegalCommand_activeHead (s : State) : (illegalCommand s).activeHead = s.activeHead := rfl
@[simp] theorem illegalCommand_tickCount (s : State) : (illegalCommand s).tickCount = s.tickCount := rfl
@[simp] theorem illegalCommand_defaultPol (s : State) : (illegalCommand s).defaultPol = s.defaultPol := rfl
@[simp] theorem illegalCommand_armed (s : State) : (illegalCommand s).armed = s.armed := rfl
@[simp] theorem illegalCommand_lastStatus (s : State) : (illegalCommand s).lastStatus = 6 := rfl
@[simp] theorem illegalCommand_resp (s : State) : (illegalCommand s).resp = s.resp := rfl
@[simp] theorem illegalCommand_out (s : State) : (illegalCommand s).out = s.out := rfl
@[simp] theorem illegalCommand_dir (s : State) : (illegalCommand s).dir = s.dir := rfl
@[simp] theorem illegalCommand_trace (s : State) : (illegalCommand s).trace = s.trace := rfl
@[simp] theorem illegalCommand_inputs (s : State) : (illegalCommand s).inputs = s.inputs := rfl
@[simp] theorem illegalCommand_resets (s : State) : (illegalCommand s).resets = s.resets := rfl
@[simp] theorem illegalCommand_arbitrations (s : State) : (illegalCommand s).arbitrations = s.arbitrations := rfl

/-! ### hardwareReset -/

@[simp] theorem hardwareReset_cfg (s : State) : (hardwareReset s).cfg = s.cfg := rfl
@[simp] theorem hardwareReset_pool (s : State) : (hardwareReset s).pool = freshPool s.cfg.nCh := rfl
@[simp] theorem hardwareReset_freeHead (s : State) : (hardwareReset s).freeHead = 0 := rfl
@[simp] theorem hardwareReset_activeHead (s : State) : (hardwareReset s).activeHead = noLink := rfl
@[simp] theorem hardwareReset_tickCount (s : State) : (hardwareReset s).tickCount = 0 := rfl
@[simp] theorem hardwareReset_defaultPol (s : State) : (hardwareReset s).defaultPol = .normal := rfl
@[simp] theorem hardwareReset_armed (s : State) : (hardwareReset s).armed = false := rfl
@[simp] theorem hardwareReset_lastStatus (s : State) : (hardwareReset s).lastStatus = 0 := rfl
@[simp] theorem hardwareReset_resp (s : State) : (hardwareReset s).resp = 0 := rfl
@[simp] theorem hardwareReset_out (s : State) : (hardwareReset s).out = [] := rfl
@[simp] theorem hardwareReset_dir (s : State) : (hardwareReset s).dir = [] := rfl
@[simp] theorem hardwareReset_trace (s : State) : (hardwareReset s).trace = s.trace := rfl
@[simp] theorem hardwareReset_inputs (s : State) : (hardwareReset s).inputs = s.inputs := rfl
@[simp] theorem hardwareReset_resets (s : State) : (hardwareReset s).resets = s.resets + 1 := rfl
@[simp] theorem hardwareReset_arbitrations (s : State) : (hardwareReset s).arbitrations = s.arbitrations := rfl

/-! ### beginBlock -/

@[simp] theorem beginBlock_cfg (q : Byte) (s : State) : (beginBlock q s).cfg = s.cfg := rfl
@[simp] theorem beginBlock_pool (q : Byte) (s : State) : (beginBlock q s).pool = freshPool s.cfg.nCh := rfl
@[simp] theorem beginBlock_freeHead (q : Byte) (s : State) : (beginBlock q s).freeHead = 0 := rfl
@[simp] theorem beginBlock_activeHead (q : Byte) (s : State) : (beginBlock q s).activeHead = noLink := rfl
@[simp] theorem beginBlock_tickCount (q : Byte) (s : State) : (beginBlock q s).tickCount = 0 := rfl
@[simp] theorem beginBlock_defaultPol (q : Byte) (s : State) : (beginBlock q s).defaultPol = (normPol q).1 := rfl
@[simp] theorem beginBlock_armed (q : Byte) (s : State) : (beginBlock q s).armed = true := rfl
@[simp] theorem beginBlock_lastStatus (q : Byte) (s : State) : (beginBlock q s).lastStatus = (okCode (normPol q).2).toByte := rfl
@[simp] theorem beginBlock_resp (q : Byte) (s : State) : (beginBlock q s).resp = 0 := rfl
@[simp] theorem beginBlock_out (q : Byte) (s : State) : (beginBlock q s).out = s.out := rfl
@[simp] theorem beginBlock_dir (q : Byte) (s : State) : (beginBlock q s).dir = s.dir := rfl
@[simp] theorem beginBlock_trace (q : Byte) (s : State) : (beginBlock q s).trace = s.trace := rfl
@[simp] theorem beginBlock_inputs (q : Byte) (s : State) : (beginBlock q s).inputs = s.inputs := rfl
@[simp] theorem beginBlock_resets (q : Byte) (s : State) : (beginBlock q s).resets = s.resets := rfl
@[simp] theorem beginBlock_arbitrations (q : Byte) (s : State) : (beginBlock q s).arbitrations = s.arbitrations := rfl

/-! ### setHead -/

@[simp] theorem State.setHead_cfg (s : State) (L : ListId) (c : Link) : (s.setHead L c).cfg = s.cfg := by cases L <;> rfl
@[simp] theorem State.setHead_pool (s : State) (L : ListId) (c : Link) : (s.setHead L c).pool = s.pool := by cases L <;> rfl
@[simp] theorem State.setHead_tickCount (s : State) (L : ListId) (c : Link) : (s.setHead L c).tickCount = s.tickCount := by cases L <;> rfl
@[simp] theorem State.setHead_defaultPol (s : State) (L : ListId) (c : Link) : (s.setHead L c).defaultPol = s.defaultPol := by cases L <;> rfl
@[simp] theorem State.setHead_armed (s : State) (L : ListId) (c : Link) : (s.setHead L c).armed = s.armed := by cases L <;> rfl
@[simp] theorem State.setHead_lastStatus (s : State) (L : ListId) (c : Link) : (s.setHead L c).lastStatus = s.lastStatus := by cases L <;> rfl
@[simp] theorem State.setHead_resp (s : State) (L : ListId) (c : Link) : (s.setHead L c).resp = s.resp := by cases L <;> rfl
@[simp] theorem State.setHead_out (s : State) (L : ListId) (c : Link) : (s.setHead L c).out = s.out := by cases L <;> rfl
@[simp] theorem State.setHead_dir (s : State) (L : ListId) (c : Link) : (s.setHead L c).dir = s.dir := by cases L <;> rfl
@[simp] theorem State.setHead_trace (s : State) (L : ListId) (c : Link) : (s.setHead L c).trace = s.trace := by cases L <;> rfl
@[simp] theorem State.setHead_inputs (s : State) (L : ListId) (c : Link) : (s.setHead L c).inputs = s.inputs := by cases L <;> rfl
@[simp] theorem State.setHead_resets (s : State) (L : ListId) (c : Link) : (s.setHead L c).resets = s.resets := by cases L <;> rfl
@[simp] theorem State.setHead_arbitrations (s : State) (L : ListId) (c : Link) : (s.setHead L c).arbitrations = s.arbitrations := by cases L <;> rfl
@[simp] theorem State.setHead_head (s : State) (L : ListId) (c : Link) : (s.setHead L c).head L = c := by
  cases L <;> rfl
theorem State.setHead_head_other (s : State) {L K : ListId} (c : Link) (h : K ≠ L) :
    (s.setHead L c).head K = s.head K := by
  cases L <;> cases K <;> first | rfl | exact absurd rfl h
@[simp] theorem State.update_head (s : State) (c : Link) (f : Channel → Channel) (L : ListId) :
    (s.update c f).head L = s.head L := by cases L <;> rfl
@[simp] theorem State.head_free (s : State) : s.head .free = s.freeHead := rfl
@[simp] theorem State.head_active (s : State) : s.head .active = s.activeHead := rfl

/-! ### updateAll, push, remove -/

@[simp] theorem State.updateAll_cfg (S : List Link) (f : Channel → Channel) (s : State) :
    (s.updateAll S f).cfg = s.cfg := by
  induction S generalizing s with
  | nil => rfl
  | cons c S ih => exact ih (s.update c f)
@[simp] theorem State.updateAll_freeHead (S : List Link) (f : Channel → Channel) (s : State) :
    (s.updateAll S f).freeHead = s.freeHead := by
  induction S generalizing s with
  | nil => rfl
  | cons c S ih => exact ih (s.update c f)
@[simp] theorem State.updateAll_activeHead (S : List Link) (f : Channel → Channel) (s : State) :
    (s.updateAll S f).activeHead = s.activeHead := by
  induction S generalizing s with
  | nil => rfl
  | cons c S ih => exact ih (s.update c f)
@[simp] theorem State.updateAll_tickCount (S : List Link) (f : Channel → Channel) (s : State) :
    (s.updateAll S f).tickCount = s.tickCount := by
  induction S generalizing s with
  | nil => rfl
  | cons c S ih => exact ih (s.update c f)
@[simp] theorem State.updateAll_defaultPol (S : List Link) (f : Channel → Channel) (s : State) :
    (s.updateAll S f).defaultPol = s.defaultPol := by
  induction S generalizing s with
  | nil => rfl
  | cons c S ih => exact ih (s.update c f)
@[simp] theorem State.updateAll_armed (S : List Link) (f : Channel → Channel) (s : State) :
    (s.updateAll S f).armed = s.armed := by
  induction S generalizing s with
  | nil => rfl
  | cons c S ih => exact ih (s.update c f)
@[simp] theorem State.updateAll_lastStatus (S : List Link) (f : Channel → Channel) (s : State) :
    (s.updateAll S f).lastStatus = s.lastStatus := by
  induction S generalizing s with
  | nil => rfl
  | cons c S ih => exact ih (s.update c f)
@[simp] theorem State.updateAll_resp (S : List Link) (f : Channel → Channel) (s : State) :
    (s.updateAll S f).resp = s.resp := by
  induction S generalizing s with
  | nil => rfl
  | cons c S ih => exact ih (s.update c f)
@[simp] theorem State.updateAll_out (S : List Link) (f : Channel → Channel) (s : State) :
    (s.updateAll S f).out = s.out := by
  induction S generalizing s with
  | nil => rfl
  | cons c S ih => exact ih (s.update c f)
@[simp] theorem State.updateAll_dir (S : List Link) (f : Channel → Channel) (s : State) :
    (s.updateAll S f).dir = s.dir := by
  induction S generalizing s with
  | nil => rfl
  | cons c S ih => exact ih (s.update c f)
@[simp] theorem State.updateAll_trace (S : List Link) (f : Channel → Channel) (s : State) :
    (s.updateAll S f).trace = s.trace := by
  induction S generalizing s with
  | nil => rfl
  | cons c S ih => exact ih (s.update c f)
@[simp] theorem State.updateAll_inputs (S : List Link) (f : Channel → Channel) (s : State) :
    (s.updateAll S f).inputs = s.inputs := by
  induction S generalizing s with
  | nil => rfl
  | cons c S ih => exact ih (s.update c f)
@[simp] theorem State.updateAll_resets (S : List Link) (f : Channel → Channel) (s : State) :
    (s.updateAll S f).resets = s.resets := by
  induction S generalizing s with
  | nil => rfl
  | cons c S ih => exact ih (s.update c f)
@[simp] theorem State.updateAll_arbitrations (S : List Link) (f : Channel → Channel) (s : State) :
    (s.updateAll S f).arbitrations = s.arbitrations := by
  induction S generalizing s with
  | nil => rfl
  | cons c S ih => exact ih (s.update c f)
@[simp] theorem push_cfg (L : ListId) (c : Link) (s : State) : (push L c s).cfg = s.cfg := by
  simp only [push]; split <;> simp
@[simp] theorem push_tickCount (L : ListId) (c : Link) (s : State) : (push L c s).tickCount = s.tickCount := by
  simp only [push]; split <;> simp
@[simp] theorem push_defaultPol (L : ListId) (c : Link) (s : State) : (push L c s).defaultPol = s.defaultPol := by
  simp only [push]; split <;> simp
@[simp] theorem push_armed (L : ListId) (c : Link) (s : State) : (push L c s).armed = s.armed := by
  simp only [push]; split <;> simp
@[simp] theorem push_lastStatus (L : ListId) (c : Link) (s : State) : (push L c s).lastStatus = s.lastStatus := by
  simp only [push]; split <;> simp
@[simp] theorem push_resp (L : ListId) (c : Link) (s : State) : (push L c s).resp = s.resp := by
  simp only [push]; split <;> simp
@[simp] theorem push_out (L : ListId) (c : Link) (s : State) : (push L c s).out = s.out := by
  simp only [push]; split <;> simp
@[simp] theorem push_dir (L : ListId) (c : Link) (s : State) : (push L c s).dir = s.dir := by
  simp only [push]; split <;> simp
@[simp] theorem push_trace (L : ListId) (c : Link) (s : State) : (push L c s).trace = s.trace := by
  simp only [push]; split <;> simp
@[simp] theorem push_inputs (L : ListId) (c : Link) (s : State) : (push L c s).inputs = s.inputs := by
  simp only [push]; split <;> simp
@[simp] theorem push_resets (L : ListId) (c : Link) (s : State) : (push L c s).resets = s.resets := by
  simp only [push]; split <;> simp
@[simp] theorem push_arbitrations (L : ListId) (c : Link) (s : State) : (push L c s).arbitrations = s.arbitrations := by
  simp only [push]; split <;> simp
@[simp] theorem remove_cfg (L : ListId) (c : Link) (s : State) : (remove L c s).cfg = s.cfg := by
  simp only [remove]; split <;> split <;> simp
@[simp] theorem remove_tickCount (L : ListId) (c : Link) (s : State) : (remove L c s).tickCount = s.tickCount := by
  simp only [remove]; split <;> split <;> simp
@[simp] theorem remove_defaultPol (L : ListId) (c : Link) (s : State) : (remove L c s).defaultPol = s.defaultPol := by
  simp only [remove]; split <;> split <;> simp
@[simp] theorem remove_armed (L : ListId) (c : Link) (s : State) : (remove L c s).armed = s.armed := by
  simp only [remove]; split <;> split <;> simp
@[simp] theorem remove_lastStatus (L : ListId) (c : Link) (s : State) : (remove L c s).lastStatus = s.lastStatus := by
  simp only [remove]; split <;> split <;> simp
@[simp] theorem remove_resp (L : ListId) (c : Link) (s : State) : (remove L c s).resp = s.resp := by
  simp only [remove]; split <;> split <;> simp
@[simp] theorem remove_out (L : ListId) (c : Link) (s : State) : (remove L c s).out = s.out := by
  simp only [remove]; split <;> split <;> simp
@[simp] theorem remove_dir (L : ListId) (c : Link) (s : State) : (remove L c s).dir = s.dir := by
  simp only [remove]; split <;> split <;> simp
@[simp] theorem remove_trace (L : ListId) (c : Link) (s : State) : (remove L c s).trace = s.trace := by
  simp only [remove]; split <;> split <;> simp
@[simp] theorem remove_inputs (L : ListId) (c : Link) (s : State) : (remove L c s).inputs = s.inputs := by
  simp only [remove]; split <;> split <;> simp
@[simp] theorem remove_resets (L : ListId) (c : Link) (s : State) : (remove L c s).resets = s.resets := by
  simp only [remove]; split <;> split <;> simp
@[simp] theorem remove_arbitrations (L : ListId) (c : Link) (s : State) : (remove L c s).arbitrations = s.arbitrations := by
  simp only [remove]; split <;> split <;> simp

/-! ### Records read the pool only -/

theorem State.record_congr {s t : State} (h : t.pool = s.pool) (c : Link) : t.record c = s.record c := by
  simp [State.record, h]
@[simp] theorem State.record_setHead (s : State) (L : ListId) (d c : Link) : (s.setHead L d).record c = s.record c :=
  State.record_congr (by simp) c
@[simp] theorem State.record_gpioWrite (a m : Nat) (l : Level) (s : State) (c : Link) : (gpioWrite a m l s).record c = s.record c :=
  State.record_congr (by simp) c
@[simp] theorem State.record_pinDir (p : Byte) (d : Direction) (s : State) (c : Link) : (pinDir p d s).record c = s.record c :=
  State.record_congr (by simp) c
@[simp] theorem State.record_timerReset (s : State) (c : Link) : (timerReset s).record c = s.record c :=
  State.record_congr (by simp) c
@[simp] theorem State.record_finish (code : ResultCode) (s : State) (c : Link) : (finish code s).record c = s.record c :=
  State.record_congr (by simp) c
@[simp] theorem State.record_countTick (s : State) (c : Link) : (s.countTick).record c = s.record c :=
  State.record_congr (by simp) c
@[simp] theorem State.record_emit (s : State) (e : Output) (c : Link) : (s.emit e).record c = s.record c :=
  State.record_congr (by simp) c

/-! ### The NOT_ARMED gate -/

theorem whenArmed_armed {s : State} (h : s.armed = true) (k : State → State) : whenArmed s k = k s := by
  simp [whenArmed, h]

theorem whenArmed_idle {s : State} (h : s.armed = false) (k : State → State) :
    whenArmed s k = finish .notArmed s := by
  simp [whenArmed, h]

end Sys2Proof.Machine
end

