-- ==== Sys2Proof/Laws/Memory.lean ====
section
/-! SUPPORT. The sparse maps and the GPIO environment: read after write, writes elsewhere, and that every
operation keeps the canonical form (spec/20_memory.md R55, R56). -/

namespace Sys2Proof.Machine

/-! ### Sparse maps -/

@[simp] theorem storeGet_storePut_same {α : Type} (m : List (Nat × α)) (k : Nat) (x : α) :
    storeGet (storePut m k x) k = some x := by
  induction m with
  | nil => simp [storePut, storeGet]
  | cons e m ih =>
    obtain ⟨a, v⟩ := e
    simp only [storePut]
    split
    · simp [storeGet]
    · split
      · simp [storeGet]
      · rename_i h₁ h₂; simp [storeGet, h₂, ih]

theorem storeGet_storePut_other {α : Type} (m : List (Nat × α)) {k j : Nat} (x : α) (h : j ≠ k) :
    storeGet (storePut m k x) j = storeGet m j := by
  induction m with
  | nil => simp [storePut, storeGet, h]
  | cons e m ih =>
    obtain ⟨a, v⟩ := e
    simp only [storePut]
    split
    · simp [storeGet, h]
    · split
      · rename_i h₁ h₂; subst h₂; simp [storeGet, h]
      · simp only [storeGet, ih]

theorem mem_storePut {α : Type} {m : List (Nat × α)} {k : Nat} {x : α} {e : Nat × α}
    (h : e ∈ storePut m k x) : e = (k, x) ∨ e ∈ m := by
  induction m with
  | nil => simpa [storePut] using h
  | cons d m ih =>
    obtain ⟨a, v⟩ := d
    simp only [storePut] at h
    split at h
    · simpa using h
    · split at h
      · rcases List.mem_cons.mp h with rfl | h
        · exact .inl rfl
        · exact .inr (List.mem_cons_of_mem _ h)
      · rcases List.mem_cons.mp h with rfl | h
        · exact .inr (List.mem_cons_self ..)
        · exact (ih h).imp_right (List.mem_cons_of_mem _)

theorem storeSorted_cons {α : Type} {a : Nat} {v : α} {m : List (Nat × α)} :
    storeSorted ((a, v) :: m) = true ↔ (∀ e ∈ m, a < e.1) ∧ storeSorted m = true := by
  simp [storeSorted]

theorem storeSorted_storePut {α : Type} {m : List (Nat × α)} (k : Nat) (x : α)
    (h : storeSorted m = true) : storeSorted (storePut m k x) = true := by
  induction m with
  | nil => rfl
  | cons d m ih =>
    obtain ⟨a, v⟩ := d
    obtain ⟨hlt, hs⟩ := storeSorted_cons.mp h
    simp only [storePut]
    split
    · rename_i hk
      refine storeSorted_cons.mpr ⟨fun e he => ?_, h⟩
      rcases List.mem_cons.mp he with rfl | he
      · exact hk
      · exact hk.trans (hlt e he)
    · split
      · rename_i _ hk; subst hk; exact storeSorted_cons.mpr ⟨hlt, hs⟩
      · refine storeSorted_cons.mpr ⟨fun e he => ?_, ih hs⟩
        rcases mem_storePut he with rfl | he
        · simp only; omega
        · exact hlt e he

theorem storeGet_mem {α : Type} {m : List (Nat × α)} {k : Nat} {v : α}
    (h : storeGet m k = some v) : (k, v) ∈ m := by
  induction m with
  | nil => simp [storeGet] at h
  | cons d m ih =>
    obtain ⟨a, w⟩ := d
    simp only [storeGet] at h
    split at h
    · rename_i hk; subst hk; simp only [Option.some.injEq] at h; subst h; exact List.mem_cons_self ..
    · exact List.mem_cons_of_mem _ (ih h)

/-! ### Bit sets -/

@[simp] theorem testBit_clearBits (v m i : Nat) :
    (clearBits v m).testBit i = (v.testBit i && !m.testBit i) := by
  simp only [clearBits, Nat.testBit_xor, Nat.testBit_and]
  cases v.testBit i <;> cases m.testBit i <;> rfl

/-! ### OUT -/

/-- The register after a write, at every address: the written bits grow by the mask, the levels under the
mask become the level written. -/
theorem outCell_writeOut (mem : List (Nat × OutReg)) (a m : Nat) (l : Level) (b : Nat) :
    outCell (writeOut mem a m l) b =
      if b = a ∧ m ≠ 0 then
        { written := (outCell mem a).written ||| m
          levels := match l with
            | .high => (outCell mem a).levels ||| m
            | .low => clearBits (outCell mem a).levels m }
      else outCell mem b := by
  unfold writeOut
  by_cases hm : m = 0
  · simp [hm]
  · by_cases hb : b = a
    · subst hb; cases l <;> simp [hm, outCell]
    · simp [hm, hb, outCell, storeGet_storePut_other _ _ hb]

theorem writeOut_wf {mem : List (Nat × OutReg)} (a m : Nat) (l : Level) (h : Memory.wf mem = true) :
    Memory.wf (writeOut mem a m l) = true := by
  unfold writeOut
  split
  · exact h
  rename_i hm
  simp only [Memory.wf, Bool.and_eq_true, List.all_eq_true, decide_eq_true_eq] at h ⊢
  obtain ⟨hs, hall⟩ := h
  refine ⟨storeSorted_storePut a _ hs, fun e he => ?_⟩
  rcases mem_storePut he with rfl | he
  · have hsub : (outCell mem a).levels &&& (outCell mem a).written = (outCell mem a).levels := by
      unfold outCell
      cases hg : storeGet mem a with
      | none => rfl
      | some c => exact (hall _ (storeGet_mem hg)).2
    have hbit : ∀ i, (outCell mem a).levels.testBit i = true → (outCell mem a).written.testBit i = true := by
      intro i hi
      rw [← hsub, Nat.testBit_and, Bool.and_eq_true] at hi
      exact hi.2
    refine ⟨fun h0 => hm (Nat.or_eq_zero_iff.mp h0).2, Nat.eq_of_testBit_eq fun i => ?_⟩
    have hi := hbit i
    cases l <;> simp only [Nat.testBit_and, Nat.testBit_or, testBit_clearBits] <;>
      revert hi <;> cases (outCell mem a).levels.testBit i <;> cases (outCell mem a).written.testBit i <;>
      cases m.testBit i <;> simp
  · exact hall e he

theorem writeOut_range {mem : List (Nat × OutReg)} {A W a m : Nat} (l : Level)
    (h : ∀ e ∈ mem, e.1 < 2 ^ A ∧ e.2.written < 2 ^ W) (ha : a < 2 ^ A) (hm : m < 2 ^ W) :
    ∀ e ∈ writeOut mem a m l, e.1 < 2 ^ A ∧ e.2.written < 2 ^ W := by
  intro e he
  unfold writeOut at he
  split at he
  · exact h e he
  rcases mem_storePut he with rfl | he
  · refine ⟨ha, Nat.or_lt_two_pow ?_ hm⟩
    unfold outCell
    cases hg : storeGet mem a with
    | none => exact Nat.two_pow_pos W
    | some c => exact (h _ (storeGet_mem hg)).2
  · exact h e he

theorem Params.addrBits_lt (P : Params) (a : Nat) : P.addrBits a < 2 ^ P.outAddrW :=
  Nat.mod_lt _ (Nat.two_pow_pos _)

theorem Params.maskBits_lt (P : Params) (m : Nat) : P.maskBits m < 2 ^ P.outRegW :=
  Nat.mod_lt _ (Nat.two_pow_pos _)

/-- Every bit of OUT after a GpioWrite (R55): the bits of the mask in the addressed register hold the level
written, every other bit is as before. Stated through what is read, free values included. -/
theorem outBit_gpioWrite {s : State} (a m : Nat) (l : Level) (b i : Nat)
    (hwf : Memory.wf s.out = true) :
    (gpioWrite a m l s).outBit b i =
      if b = s.cfg.addrBits a ∧ (s.cfg.maskBits m).testBit i = true then decide (l = .high)
      else s.outBit b i := by
  have hbit : (outCell s.out b).levels.testBit i = true → (outCell s.out b).written.testBit i = true := by
    intro hi
    unfold outCell at hi ⊢
    cases hg : storeGet s.out b with
    | none => simp [hg, OutReg.unwritten] at hi
    | some c =>
      simp only [Memory.wf, Bool.and_eq_true, List.all_eq_true, decide_eq_true_eq] at hwf
      have := (hwf.2 _ (storeGet_mem hg)).2
      rw [hg] at hi
      simp only [Option.getD_some] at hi ⊢
      rw [← this, Nat.testBit_and, Bool.and_eq_true] at hi
      exact hi.2
  simp only [State.outBit, State.outReg, gpioWrite_out, gpioWrite_cfg, gpioWrite_resets,
    outCell_writeOut, Nat.testBit_or, testBit_clearBits]
  by_cases hb : b = s.cfg.addrBits a
  · subst hb
    by_cases hm : s.cfg.maskBits m = 0
    · simp [hm]
    · cases l <;> simp [hm, Nat.testBit_or, testBit_clearBits] <;>
        cases (s.cfg.maskBits m).testBit i <;> simp
  · simp [hb]

/-! ### DIR -/

/-- Every direction after a PinDir (R56). -/
theorem pinDirection_pinDir (s : State) (p q : Byte) (d : Direction) :
    (pinDir p d s).pinDirection q =
      if q = p ∧ s.cfg.validPin p = true then some d else s.pinDirection q := by
  simp only [State.pinDirection, pinDir_cfg, pinDir_dir, pinDir_resets]
  by_cases hq : q = p
  · subst hq
    by_cases hv : s.cfg.validPin q = true <;> simp [hv]
  · have hn : q.toNat ≠ p.toNat := fun h => hq (BitVec.eq_of_toNat_eq h)
    by_cases hv : s.cfg.validPin p = true <;> simp [hv, hq, storeGet_storePut_other _ _ hn]

theorem pinDir_sorted {s : State} (p : Byte) (d : Direction) (h : storeSorted s.dir = true) :
    storeSorted (pinDir p d s).dir = true := by
  simp only [pinDir_dir]
  split
  · exact storeSorted_storePut _ _ h
  · exact h

/-- A PinDir writes directions of valid pins only (R41, R56). -/
theorem pinDir_range {s : State} (p : Byte) (d : Direction)
    (h : ∀ e ∈ s.dir, e.1 < 256 ∧ s.cfg.validPin (BitVec.ofNat 8 e.1) = true) :
    ∀ e ∈ (pinDir p d s).dir, e.1 < 256 ∧ s.cfg.validPin (BitVec.ofNat 8 e.1) = true := by
  intro e he
  simp only [pinDir_dir] at he
  split at he
  · rename_i hv
    rcases mem_storePut he with rfl | he
    · exact ⟨p.isLt, by simpa using hv⟩
    · exact h e he
  · exact h e he

/-- Memory after reset is in canonical form. -/
theorem reset_memory_wf (P : Params) :
    Memory.wf (State.resetWith P).out = true ∧ storeSorted (State.resetWith P).dir = true :=
  ⟨rfl, rfl⟩

end Sys2Proof.Machine
end

