-- ==== Sys2Proof/Laws/Pool.lean ====
section
/-! SUPPORT. The channel records and the list primitives, one lemma per operation that says what it does
to every record and head (spec/40_pool.md R101 to R106), and the bounded walk over a linked list. -/

namespace Sys2Proof.Machine

/-! ### Records -/

theorem State.record_eq_getElem {s : State} {c : Link} (h : c.toNat < s.pool.length) :
    s.record c = s.pool[c.toNat] := by
  simp [State.record, h]

@[simp] theorem State.update_length (s : State) (c : Link) (f : Channel → Channel) :
    (s.update c f).pool.length = s.pool.length := by simp

/-- A record after an update of record `c`. -/
theorem State.record_update (s : State) (c d : Link) (f : Channel → Channel)
    (h : d.toNat < s.pool.length) :
    (s.update c f).record d = if d = c then f (s.record d) else s.record d := by
  have h' : d.toNat < (s.update c f).pool.length := by simpa using h
  rw [State.record_eq_getElem h', State.record_eq_getElem h]
  simp only [State.update_pool, List.getElem_modify]
  by_cases hd : d = c
  · subst hd; simp
  · have hn : ¬ c.toNat = d.toNat := fun e => hd (BitVec.eq_of_toNat_eq e.symm)
    simp [hd, hn]

theorem State.record_update_other (s : State) {c d : Link} (f : Channel → Channel) (h : d ≠ c) :
    (s.update c f).record d = s.record d := by
  have hn : ¬ c.toNat = d.toNat := fun e => h (BitVec.eq_of_toNat_eq e.symm)
  simp [State.record, hn]

@[simp] theorem State.updateAll_length (s : State) (S : List Link) (f : Channel → Channel) :
    (s.updateAll S f).pool.length = s.pool.length := by
  induction S generalizing s with
  | nil => rfl
  | cons c S ih => exact (ih (s.update c f)).trans (s.update_length c f)

theorem State.updateAll_cons (s : State) (c : Link) (S : List Link) (f : Channel → Channel) :
    s.updateAll (c :: S) f = (s.update c f).updateAll S f := rfl

/-- A record after "for c in S", when `f` applied twice is `f` (a list with repeats changes nothing more). -/
theorem State.record_updateAll (s : State) (S : List Link) (f : Channel → Channel) (d : Link)
    (hf : ∀ r, f (f r) = f r) (h : d.toNat < s.pool.length) :
    (s.updateAll S f).record d = if d ∈ S then f (s.record d) else s.record d := by
  induction S generalizing s with
  | nil => rfl
  | cons c S ih =>
    rw [State.updateAll_cons, ih _ (by simpa using h), State.record_update s c d f h]
    by_cases hd : d = c <;> by_cases hS : d ∈ S <;> simp [hd, hS, hf]

/-! ### Lists -/

@[simp] theorem push_length (L : ListId) (c : Link) (s : State) :
    (push L c s).pool.length = s.pool.length := by
  simp only [push]; split <;> simp

@[simp] theorem remove_length (L : ListId) (c : Link) (s : State) :
    (remove L c s).pool.length = s.pool.length := by
  simp only [remove]; split <;> split <;> simp

@[simp] theorem push_head (L : ListId) (c : Link) (s : State) : (push L c s).head L = c := by
  simp [push]

theorem push_head_other {L K : ListId} (c : Link) (s : State) (h : K ≠ L) :
    (push L c s).head K = s.head K := by
  simp only [push, State.setHead_head_other _ _ h]
  split <;> simp

/-- Every record after `push(L, c)` (R101), for a record `c` that is not the head of `L`. -/
theorem record_push {L : ListId} {c : Link} {s : State} (d : Link)
    (hc : s.head L ≠ c) (hd : d.toNat < s.pool.length) :
    (push L c s).record d =
      if d = c then { s.record d with prev := noLink, next := s.head L }
      else if s.head L ≠ noLink ∧ d = s.head L then { s.record d with prev := c }
      else s.record d := by
  simp only [push, State.record_setHead, State.update_head]
  by_cases hh : s.head L = noLink
  · simp [hh, State.record_update _ _ _ _ hd]
  · simp only [ne_eq, hh, not_false_eq_true, if_true]
    rw [State.record_update _ _ _ _ (by simpa using hd), State.record_update _ _ _ _ hd]
    by_cases h1 : d = c
    · subst h1; simp [Ne.symm hc]
    · by_cases h2 : d = s.head L <;> simp [h1, h2, hc]

theorem remove_head (L : ListId) (c : Link) (s : State) :
    (remove L c s).head L =
      if (s.record c).prev = noLink then (s.record c).next else s.head L := by
  simp only [remove, State.update_head]
  by_cases hp : (s.record c).prev = noLink
  · simp only [hp, ne_eq, not_true_eq_false, if_false, if_true]
    split <;> simp
  · simp only [hp, ne_eq, not_false_eq_true, if_true, if_false]
    split <;> simp

theorem remove_head_other {L K : ListId} (c : Link) (s : State) (h : K ≠ L) :
    (remove L c s).head K = s.head K := by
  simp only [remove, State.update_head]
  split <;> split <;> simp [State.setHead_head_other _ _ h]

/-- Every record after `remove(L, c)` (R102), for a record that is not its own neighbour. -/
theorem record_remove {L : ListId} {c : Link} {s : State} (d : Link)
    (hp : (s.record c).prev ≠ c) (hn : (s.record c).next ≠ c) (hd : d.toNat < s.pool.length) :
    (remove L c s).record d =
      if d = c then { s.record d with next := noLink, prev := noLink }
      else
        { s.record d with
          next := if (s.record c).prev ≠ noLink ∧ d = (s.record c).prev then (s.record c).next
            else (s.record d).next
          prev := if (s.record c).next ≠ noLink ∧ d = (s.record c).next then (s.record c).prev
            else (s.record d).prev } := by
  simp only [remove]
  rw [State.record_update]
  swap
  · split <;> split <;> simpa using hd
  by_cases hP : (s.record c).prev = noLink
  · simp only [hP, ne_eq, not_true_eq_false, if_false, State.record_setHead]
    by_cases hN : (s.record c).next = noLink
    · simp only [hN, not_true_eq_false, if_false, State.record_setHead]
      by_cases h1 : d = c <;> simp [h1]
    · simp only [hN, not_false_eq_true, if_true]
      rw [State.record_update _ _ _ _ (by simpa using hd), State.record_setHead]
      by_cases h1 : d = c
      · subst h1; simp [Ne.symm hn]
      · by_cases h2 : d = (s.record c).next <;> simp [h1, h2, hn]
  · have hcc : (s.update (s.record c).prev (fun r => { r with next := (s.record c).next })).record c
        = s.record c := State.record_update_other _ _ (Ne.symm hp)
    simp only [hP, ne_eq, not_false_eq_true, if_true, hcc]
    by_cases hN : (s.record c).next = noLink
    · simp only [hN, not_true_eq_false, if_false]
      rw [State.record_update _ _ _ _ hd]
      by_cases h1 : d = c
      · subst h1; simp [Ne.symm hp]
      · by_cases h2 : d = (s.record c).prev <;> simp [h1, h2, hp]
    · simp only [hN, not_false_eq_true, if_true]
      rw [State.record_update _ _ _ _ (by simpa using hd), State.record_update _ _ _ _ hd]
      by_cases h1 : d = c
      · subst h1; simp [Ne.symm hp, Ne.symm hn]
      · by_cases h2 : d = (s.record c).prev <;> by_cases h3 : d = (s.record c).next <;>
          simp_all

/-- `pop(L)` (R103). -/
theorem pop_eq_some {L : ListId} {c : Link} {s t : State} :
    pop L s = some (c, t) ↔ s.head L ≠ noLink ∧ c = s.head L ∧ t = remove L c s := by
  unfold pop
  split
  · simp_all
  · simp only [Option.some.injEq, Prod.mk.injEq]
    constructor
    · rintro ⟨rfl, rfl⟩; exact ⟨by assumption, rfl, rfl⟩
    · rintro ⟨_, rfl, rfl⟩; exact ⟨rfl, rfl⟩

theorem pop_eq_none {L : ListId} {s : State} : pop L s = none ↔ s.head L = noLink := by
  unfold pop; split <;> simp_all

/-! ### Pool initialisation -/

@[simp] theorem freshPool_length (n : Nat) : (freshPool n).length = n := by simp [freshPool]

/-- Every record after PoolInit (R104). -/
theorem record_poolInit (s : State) {c : Link} (h : c.toNat < s.cfg.nCh) :
    (poolInit s).record c = initialChannel s.cfg.nCh c.toNat := by
  simp [State.record, freshPool, h]

/-! ### Walks over linked lists -/

theorem linked_nil {s : State} {pv hd : Link} : linked s pv hd [] = true ↔ hd = noLink := by
  simp [linked]

theorem linked_cons {s : State} {pv hd c : Link} {l : List Link} :
    linked s pv hd (c :: l) = true ↔
      hd = c ∧ c ≠ noLink ∧ c.toNat < s.pool.length ∧ (s.record c).prev = pv ∧
        linked s c (s.record c).next l = true := by
  simp [linked, and_assoc]

/-- The bounded walk over a linked list visits exactly its records (R105: the cap never cuts it short). -/
theorem walkFrom_of_linked {s : State} {l : List Link} {pv hd : Link} {k : Nat}
    (h : linked s pv hd l = true) (hk : l.length ≤ k) : walkFrom s k hd = l := by
  induction l generalizing pv hd k with
  | nil =>
    rw [linked_nil.mp h]
    cases k <;> simp [walkFrom]
  | cons c l ih =>
    obtain ⟨rfl, hc, _, _, hl⟩ := linked_cons.mp h
    obtain _ | k := k
    · simp at hk
    · simp [walkFrom, hc, ih hl (by simpa using hk)]

/-- Whether a list is linked depends on its own records only. -/
theorem linked_congr {s t : State} {l : List Link} {pv hd : Link} (hlen : t.pool.length = s.pool.length)
    (hrec : ∀ c ∈ l, (t.record c).next = (s.record c).next ∧ (t.record c).prev = (s.record c).prev) :
    linked t pv hd l = linked s pv hd l := by
  induction l generalizing pv hd with
  | nil => rfl
  | cons c l ih =>
    obtain ⟨hn, hp⟩ := hrec c (List.mem_cons_self ..)
    simp only [linked, hlen, hn, hp, ih (fun d hd => hrec d (List.mem_cons_of_mem _ hd))]

theorem linked_inRange {s : State} {l : List Link} {pv hd : Link} (h : linked s pv hd l = true) :
    ∀ c ∈ l, c ≠ noLink ∧ c.toNat < s.pool.length := by
  induction l generalizing pv hd with
  | nil => simp
  | cons d l ih =>
    obtain ⟨_, hd', hlt, _, hl⟩ := linked_cons.mp h
    intro c hc
    rcases List.mem_cons.mp hc with rfl | hc
    · exact ⟨hd', hlt⟩
    · exact ih hl c hc

/-- The walk reads heads and `next` links only. -/
theorem walkFrom_congr {s t : State} (h : ∀ c, (t.record c).next = (s.record c).next) (k : Nat) (c : Link) :
    walkFrom t k c = walkFrom s k c := by
  induction k generalizing c with
  | zero => rfl
  | succ k ih => simp only [walkFrom, h, ih]

theorem walkFrom_length (s : State) (k : Nat) (c : Link) : (walkFrom s k c).length ≤ k := by
  induction k generalizing c with
  | zero => simp [walkFrom]
  | succ k ih =>
    simp only [walkFrom]
    split
    · simp
    · simpa using ih _

theorem activeWalk_length (s : State) : (activeWalk s).length ≤ s.cfg.nCh := walkFrom_length ..

/-- Distinct in-range records are at most as many as the pool holds. -/
theorem nodup_length_le {s : State} {l : List Link} (hn : l.Nodup) (h : ∀ c ∈ l, c.toNat < s.pool.length) :
    l.length ≤ s.pool.length := by
  have hm : (l.map BitVec.toNat).Nodup := hn.map fun _ _ => BitVec.eq_of_toNat_eq
  have hs : l.map BitVec.toNat ⊆ List.range s.pool.length := by
    intro k hk
    obtain ⟨c, hc, rfl⟩ := List.mem_map.mp hk
    exact List.mem_range.mpr (h c hc)
  simpa using (hm.subperm hs).length_le

/-- R28 from any two lists that the links run through: they are the walks, and the pool is well-formed. -/
theorem PoolWf.of_lists {s : State} {F A : List Link} (size : s.pool.length = s.cfg.nCh)
    (hF : linked s noLink s.freeHead F = true) (hA : linked s noLink s.activeHead A = true)
    (hn : (F ++ A).Nodup) (hu : ∀ c ∈ List.range s.cfg.nCh, BitVec.ofNat 8 c ∈ F ++ A)
    (hp : (A.map (fun c => (s.record c).pin)).Nodup)
    (hm : ∀ c ∈ A, (s.record c).pin ≠ allPins ∧
      s.cfg.pinOf (s.record c).pin = some ((s.record c).reg, (s.record c).mask))
    (hr : ∀ c ∈ F, (s.record c).resetFields = s.record c) :
    freeWalk s = F ∧ activeWalk s = A ∧ PoolWf s := by
  have hlen := nodup_length_le hn fun c hc => (List.mem_append.mp hc).elim
    (fun h => (linked_inRange hF c h).2) (fun h => (linked_inRange hA c h).2)
  rw [List.length_append, size] at hlen
  have eF : freeWalk s = F := walkFrom_of_linked hF (by omega)
  have eA : activeWalk s = A := walkFrom_of_linked hA (by omega)
  exact ⟨eF, eA, size, by rwa [eF], by rwa [eA], by rwa [eF, eA], by rwa [eF, eA], by rwa [eA],
    by rwa [eA], by rwa [eF]⟩

/-! ### Lookup -/

/-- What a found record is (R105). -/
theorem lookup_some {p : Byte} {s : State} {c : Link} (h : lookup p s = some c) :
    c ∈ activeWalk s ∧ (s.record c).pin = p := by
  unfold lookup at h
  exact ⟨List.mem_of_find?_eq_some h, by simpa using List.find?_some h⟩

theorem lookup_none {p : Byte} {s : State} :
    lookup p s = none ↔ ∀ c ∈ activeWalk s, (s.record c).pin ≠ p := by
  simp [lookup]

theorem targets_pin {p : Byte} (h : p ≠ allPins) (s : State) : targets p s = (lookup p s).toList := by
  unfold targets
  rw [if_neg h]
  cases lookup p s <;> rfl

end Sys2Proof.Machine
end

