-- ==== Sys2Proof/Laws/Commands.lean ====
section
/-! SUPPORT. The shared command operations and the TICK, one lemma per operation that says what it can do
(spec/41_registry.md R124 to R135, 42_multiplexer.md R170 to R175). -/

namespace Sys2Proof.Machine

/-! ### Acquire, release, hard reset -/

/-- `Acquire` that takes a record (R124). -/
theorem acquire_ok {p v : Byte} {s t : State} {c : Link} (h : acquire p v s = .ok (c, t)) :
    ∃ a m, s.cfg.pinOf p = some (a, m) ∧ s.freeHead ≠ noLink ∧ c = s.freeHead ∧
      t = push .active c (pinDir p .output (gpioWrite a m (offLevel s.defaultPol)
        ((remove .free c s).update c (Channel.assign p s.defaultPol a m v)))) := by
  unfold acquire at h
  split at h
  · cases h
  · rename_i a m hp
    split at h
    · cases h
    · rename_i d s₁ hpop
      obtain ⟨hne, hd, hs₁⟩ := pop_eq_some.mp hpop
      simp only [Except.ok.injEq, Prod.mk.injEq] at h
      obtain ⟨rfl, rfl⟩ := h
      exact ⟨a, m, hp, hne, hd, by rw [hs₁]⟩

/-- `Acquire` that aborts (R124): which code, and when. -/
theorem acquire_error {p v : Byte} {s : State} {e : ResultCode} :
    acquire p v s = .error e ↔
      (s.cfg.pinOf p = none ∧ e = .invalidPin) ∨
        ((∃ r, s.cfg.pinOf p = some r) ∧ s.freeHead = noLink ∧ e = .poolExhausted) := by
  unfold acquire
  cases hp : s.cfg.pinOf p with
  | none => simp [eq_comm]
  | some r =>
    cases hpop : pop .free s with
    | none =>
      have hh := pop_eq_none.mp hpop
      simp only [State.head_free] at hh
      simp [hh, eq_comm]
    | some q =>
      obtain ⟨c, t⟩ := q
      have hh := (pop_eq_some.mp hpop).1
      simp only [State.head_free] at hh
      simp [hh]

/-- `HardReset` (R126). -/
theorem hardReset_eq (S : List Link) (s : State) :
    hardReset S s =
      { s with
        pool := (s.updateAll S (fun r => { r with current := r.target })).pool
        tickCount := 255, trace := s.trace ++ [.timerReset] } := by
  rw [State.mk.injEq]
  simp [hardReset, timerReset, State.emit]

theorem record_hardReset (S : List Link) (s : State) (d : Link) (h : d.toNat < s.pool.length) :
    (hardReset S s).record d =
      if d ∈ S then { s.record d with current := (s.record d).target } else s.record d := by
  rw [hardReset_eq]
  exact State.record_updateAll s S _ d (fun _ => rfl) h

/-! ### SET and the wildcard-capable updates -/

/-- What the body of SET and SET_PERCENT can do (R132). -/
theorem setDuty_cases (p v : Byte) (imm : Bool) (code : ResultCode) (s : State) :
    (p = allPins ∧ setDuty p v imm code s = finish code
        (if imm = true ∧ activeWalk s ≠ [] then
          hardReset (activeWalk s) (s.updateAll (activeWalk s) (fun r => { r with target := v }))
        else s.updateAll (activeWalk s) (fun r => { r with target := v }))) ∨
    (p ≠ allPins ∧ ∃ c, lookup p s = some c ∧ setDuty p v imm code s = finish code
        (if imm then hardReset [c] (s.update c (fun r => { r with target := v }))
        else s.update c (fun r => { r with target := v }))) ∨
    (p ≠ allPins ∧ lookup p s = none ∧ ∃ e, acquire p v s = .error e ∧
        setDuty p v imm code s = finish e s) ∨
    (p ≠ allPins ∧ lookup p s = none ∧ ∃ c t, acquire p v s = .ok (c, t) ∧
        setDuty p v imm code s = finish code (if imm then hardReset [c] t else t)) := by
  by_cases hp : p = allPins
  · exact .inl ⟨hp, by simp [setDuty, hp]⟩
  · cases hl : lookup p s with
    | some c => exact .inr (.inl ⟨hp, c, rfl, by simp [setDuty, hp, hl]⟩)
    | none =>
      cases ha : acquire p v s with
      | error e => exact .inr (.inr (.inl ⟨hp, rfl, e, rfl, by simp [setDuty, hp, hl, ha]⟩))
      | ok q =>
        obtain ⟨c, t⟩ := q
        exact .inr (.inr (.inr ⟨hp, rfl, c, t, rfl, by simp [setDuty, hp, hl, ha]⟩))

/-- What SET_FADE and SET_POLARITY can do (R134, R135). -/
theorem updateTargets_cases (p : Byte) (f : Channel → Channel) (code : ResultCode) (s : State) :
    (p ≠ allPins ∧ targets p s = [] ∧ updateTargets p f code s = finish .unknownPin s) ∨
    ((p = allPins ∨ targets p s ≠ []) ∧
      updateTargets p f code s = finish code (s.updateAll (targets p s) f)) := by
  unfold updateTargets
  split
  · rename_i h; exact .inl ⟨h.1, h.2, rfl⟩
  · rename_i h
    refine .inr ⟨?_, rfl⟩
    by_cases hp : p = allPins
    · exact .inl hp
    · exact .inr fun ht => h ⟨hp, ht⟩

/-! ### The TICK -/

/-- What one TICK does (R170): nothing, the wrap tick, or the threshold tick. -/
theorem tickStep_cases (s : State) :
    (s.armed = false ∧ tickStep s = s) ∨
    (s.armed = true ∧ s.tickCount = 255 ∧ tickStep s = wrapTick s.countTick) ∨
    (s.armed = true ∧ s.tickCount ≠ 255 ∧ tickStep s = thresholdTick s.countTick) := by
  have h255 : s.tickCount + 1 = 0 ↔ s.tickCount = 255 := by
    constructor <;> intro h <;> bv_omega
  by_cases ha : s.armed = true
  · have ht : tickStep s =
        if s.tickCount + 1 = 0 then wrapTick s.countTick else thresholdTick s.countTick := by
      rw [tickStep, if_pos ha]; rfl
    by_cases h : s.tickCount = 255
    · exact .inr (.inl ⟨ha, h, by rw [ht, if_pos (h255.mpr h)]⟩)
    · exact .inr (.inr ⟨ha, h, by rw [ht, if_neg (fun e => h (h255.mp e))]⟩)
  · have hf : s.armed = false := by simpa using ha
    exact .inl ⟨hf, by rw [tickStep, if_neg ha]⟩

/-- A quantity that the work on one channel keeps is kept by the work on all of them. -/
theorem foldl_keeps {α : Type} (q : State → α) (g : State → Link → State) (hg : ∀ s c, q (g s c) = q s)
    (S : List Link) (s : State) : q (S.foldl g s) = q s := by
  induction S generalizing s with
  | nil => rfl
  | cons c S ih => exact (ih (g s c)).trans (hg s c)

/-- The fields the work of a tick on a channel leaves alone: all but the pool, OUT and the trace. -/
theorem wrapChannel_frame (s : State) (c : Link) :
    wrapChannel s c =
      { s with
        pool := (wrapChannel s c).pool, out := (wrapChannel s c).out
        trace := (wrapChannel s c).trace } := rfl

theorem thresholdChannel_frame (s : State) (c : Link) :
    thresholdChannel s c =
      { s with out := (thresholdChannel s c).out, trace := (thresholdChannel s c).trace } := by
  unfold thresholdChannel
  split <;> rfl

/-- The event a wrap tick emits for a channel, from the channel's record before it (R172, R174). -/
def wrapEvent (P : Params) (r : Channel) : Output :=
  .gpioWrite (P.addrBits r.reg) (P.maskBits r.mask)
    (if r.fade.current = 0 then offLevel r.pol else onLevel r.pol)

theorem wrapChannel_record (s : State) (c d : Link) (h : d.toNat < s.pool.length) :
    (wrapChannel s c).record d = if d = c then (s.record d).fade else s.record d := by
  simp only [wrapChannel, drive, State.record_gpioWrite]
  exact State.record_update s c d _ h

@[simp] theorem wrapChannel_length (s : State) (c : Link) :
    (wrapChannel s c).pool.length = s.pool.length := by
  simp [wrapChannel, drive]

theorem wrapChannel_trace (s : State) (c : Link) (h : c.toNat < s.pool.length) :
    (wrapChannel s c).trace = s.trace ++ [wrapEvent s.cfg (s.record c)] := by
  simp only [wrapChannel, drive, gpioWrite_trace, State.update_trace, State.update_cfg,
    State.record_update s c c _ h, if_true, wrapEvent]
  by_cases h0 : (s.record c).fade.current = 0 <;> simp [h0] <;> simp [Channel.fade]

/-- The records after the work of a wrap tick on distinct channels (R172). -/
theorem foldl_wrapChannel_record {S : List Link} (s : State) (d : Link) (hS : S.Nodup)
    (h : d.toNat < s.pool.length) :
    (S.foldl wrapChannel s).record d = if d ∈ S then (s.record d).fade else s.record d := by
  induction S generalizing s with
  | nil => rfl
  | cons c S ih =>
    obtain ⟨hc, hS⟩ := List.nodup_cons.mp hS
    rw [List.foldl_cons, ih _ hS (by simpa using h), wrapChannel_record s c d h]
    by_cases hd : d = c
    · subst hd; simp [hc]
    · simp [hd]

/-- The events of the work of a wrap tick on distinct channels, in list order (R57, R172). -/
theorem foldl_wrapChannel_trace {S : List Link} (s : State) (hS : S.Nodup)
    (h : ∀ c ∈ S, c.toNat < s.pool.length) :
    (S.foldl wrapChannel s).trace = s.trace ++ S.map (fun c => wrapEvent s.cfg (s.record c)) := by
  induction S generalizing s with
  | nil => simp
  | cons c S ih =>
    obtain ⟨hc, hS⟩ := List.nodup_cons.mp hS
    have hcfg : (wrapChannel s c).cfg = s.cfg := rfl
    rw [List.foldl_cons, ih _ hS (fun d hd => by simpa using h d (List.mem_cons_of_mem _ hd)),
      wrapChannel_trace s c (h c (List.mem_cons_self ..)), hcfg, List.map_cons, List.append_assoc,
      List.singleton_append]
    congr 2
    refine List.map_congr_left fun d hd => ?_
    have hne : d ≠ c := fun e => hc (e ▸ hd)
    rw [wrapChannel_record s c d (h d (List.mem_cons_of_mem _ hd)), if_neg hne]

/-- The event a threshold tick that leaves the counter at `k` emits for a channel, if any (R173). -/
def thresholdEvent (P : Params) (k : Byte) (r : Channel) : List Output :=
  if r.current ≠ 0 ∧ r.current ≠ 255 ∧ k = r.current then
    [.gpioWrite (P.addrBits r.reg) (P.maskBits r.mask) (offLevel r.pol)]
  else []

/-- A threshold tick changes no record (R173). -/
theorem foldl_thresholdChannel_pool (S : List Link) (s : State) :
    (S.foldl thresholdChannel s).pool = s.pool :=
  foldl_keeps State.pool thresholdChannel
    (fun s c => by rw [thresholdChannel_frame]) S s

/-- The events of the work of a threshold tick, in list order (R57, R173). -/
theorem foldl_thresholdChannel_trace (S : List Link) (s : State) :
    (S.foldl thresholdChannel s).trace =
      s.trace ++ S.flatMap (fun c => thresholdEvent s.cfg s.tickCount (s.record c)) := by
  induction S generalizing s with
  | nil => simp
  | cons c S ih =>
    have hr : ∀ d, (thresholdChannel s c).record d = s.record d :=
      State.record_congr (by rw [thresholdChannel_frame])
    have hcfg : (thresholdChannel s c).cfg = s.cfg := by rw [thresholdChannel_frame]
    have htc : (thresholdChannel s c).tickCount = s.tickCount := by rw [thresholdChannel_frame]
    have htr : (thresholdChannel s c).trace
        = s.trace ++ thresholdEvent s.cfg s.tickCount (s.record c) := by
      unfold thresholdChannel thresholdEvent
      split <;> simp [drive]
    rw [List.foldl_cons, ih, htr, hcfg, htc, List.flatMap_cons, List.append_assoc]
    simp only [hr]

/-! ### Reset -/

/-- RST and State.reset agree on the block's state (R240). -/
theorem hardwareReset_block (s : State) :
    hardwareReset s =
      { State.resetWith s.cfg with
        trace := s.trace, inputs := s.inputs, resets := s.resets + 1
        arbitrations := s.arbitrations } := rfl

end Sys2Proof.Machine
end

