-- ==== Sys2Proof/Laws/Encoding.lean ====
section
/-! SUPPORT. The fields of a packed command word (spec/30_encoding.md R70, R71). -/

namespace Sys2Proof

/-- A packed word as a number: each field at its bit position (R70). -/
theorem packFields_toNat (op : BitVec 4) (imm : Bool) (pin : Byte) (a b : Duration) :
    (packFields op imm pin a b).toNat =
      op.toNat * 2 ^ 44 + imm.toNat * 2 ^ 40 + pin.toNat * 2 ^ 32 + a.toNat * 2 ^ 16 + b.toNat := by
  have hop := op.isLt
  have himm : imm.toNat < 2 := by cases imm <;> decide
  have hpin := pin.isLt
  have ha := a.isLt
  have hb := b.isLt
  simp only [packFields, BitVec.toNat_append, BitVec.toNat_ofBool]
  rw [← Nat.shiftLeft_add_eq_or_of_lt hb, ← Nat.shiftLeft_add_eq_or_of_lt ha,
    ← Nat.shiftLeft_add_eq_or_of_lt hpin,
    ← Nat.shiftLeft_add_eq_or_of_lt (show imm.toNat < 2 ^ 1 from himm),
    ← Nat.shiftLeft_add_eq_or_of_lt (BitVec.isLt _)]
  have h0 : (0 : BitVec 3).toNat = 0 := rfl
  rw [h0]
  simp only [Nat.shiftLeft_eq]
  omega

theorem opField_packFields (op : BitVec 4) (imm : Bool) (pin : Byte) (a b : Duration) :
    opField (packFields op imm pin a b) = op := by
  apply BitVec.eq_of_toNat_eq
  have hop := op.isLt
  have himm : imm.toNat < 2 := by cases imm <;> decide
  have hpin := pin.isLt
  have ha := a.isLt
  have hb := b.isLt
  simp only [opField, BitVec.extractLsb'_toNat, packFields_toNat, Nat.shiftRight_eq_div_pow]
  omega

theorem rsvField_packFields (op : BitVec 4) (imm : Bool) (pin : Byte) (a b : Duration) :
    rsvField (packFields op imm pin a b) = 0 := by
  apply BitVec.eq_of_toNat_eq
  have himm : imm.toNat < 2 := by cases imm <;> decide
  have hpin := pin.isLt
  have ha := a.isLt
  have hb := b.isLt
  have h0 : (0 : BitVec 3).toNat = 0 := rfl
  rw [h0]
  simp only [rsvField, BitVec.extractLsb'_toNat, packFields_toNat, Nat.shiftRight_eq_div_pow]
  omega

theorem immField_packFields (op : BitVec 4) (imm : Bool) (pin : Byte) (a b : Duration) :
    immField (packFields op imm pin a b) = BitVec.ofBool imm := by
  apply BitVec.eq_of_toNat_eq
  have himm : imm.toNat < 2 := by cases imm <;> decide
  have hpin := pin.isLt
  have ha := a.isLt
  have hb := b.isLt
  simp only [immField, BitVec.extractLsb'_toNat, packFields_toNat, Nat.shiftRight_eq_div_pow,
    BitVec.toNat_ofBool]
  omega

theorem pinField_packFields (op : BitVec 4) (imm : Bool) (pin : Byte) (a b : Duration) :
    pinField (packFields op imm pin a b) = pin := by
  apply BitVec.eq_of_toNat_eq
  have hpin := pin.isLt
  have ha := a.isLt
  have hb := b.isLt
  simp only [pinField, BitVec.extractLsb'_toNat, packFields_toNat, Nat.shiftRight_eq_div_pow]
  omega

theorem aField_packFields (op : BitVec 4) (imm : Bool) (pin : Byte) (a b : Duration) :
    aField (packFields op imm pin a b) = a := by
  apply BitVec.eq_of_toNat_eq
  have ha := a.isLt
  have hb := b.isLt
  simp only [aField, BitVec.extractLsb'_toNat, packFields_toNat, Nat.shiftRight_eq_div_pow]
  omega

theorem bField_packFields (op : BitVec 4) (imm : Bool) (pin : Byte) (a b : Duration) :
    bField (packFields op imm pin a b) = b := by
  apply BitVec.eq_of_toNat_eq
  have hb := b.isLt
  simp only [bField, BitVec.extractLsb'_toNat, packFields_toNat, Nat.shiftRight_eq_div_pow]
  omega

/-- A word is the packing of its fields when its `rsv` field is zero (R70). -/
theorem packFields_fields (w : Command) (h : rsvField w = 0) :
    packFields (opField w) (immField w == 1) (pinField w) (aField w) (bField w) = w := by
  apply BitVec.eq_of_toNat_eq
  rw [packFields_toNat]
  have hw := w.isLt
  have hr : (rsvField w).toNat = 0 := by rw [h]; rfl
  have hi : (immField w == 1).toNat = (immField w).toNat := by
    generalize immField w = i
    revert i
    decide
  rw [hi]
  simp only [rsvField, opField, immField, pinField, aField, bField, BitVec.extractLsb'_toNat,
    Nat.shiftRight_eq_div_pow] at hr ⊢
  omega

/-- A packed word under a mask, field by field. -/
theorem packFields_and (op mop : BitVec 4) (imm : Bool) (mrsv : BitVec 3) (mimm : BitVec 1)
    (pin mpin : Byte) (a ma b mb : Duration) :
    packFields op imm pin a b &&& (mop ++ mrsv ++ mimm ++ mpin ++ ma ++ mb) =
      (op &&& mop) ++ (0 : BitVec 3) ++ (BitVec.ofBool imm &&& mimm) ++ (pin &&& mpin) ++ (a &&& ma)
        ++ (b &&& mb) := by
  have h0 : (0 : BitVec 3) &&& mrsv = 0 := BitVec.zero_and
  simp only [packFields]
  rw [BitVec.and_append, BitVec.and_append, BitVec.and_append, BitVec.and_append, BitVec.and_append, h0]

end Sys2Proof
end

