-- ==== Sys2Proof/Laws/PerInstr.lean ====
section
/-! SUPPORT. Statements made once per command: the encoding of a command spells its own row of the table
(spec/30_encoding.md R74). -/

namespace Sys2Proof.Laws

/-- The encoded word matches, under the row's mask, the pattern of every table row that carries the
instruction's mnemonic (R74). -/
def EncodeSpellsRow.Statement (i : Instr) : Prop :=
  ∀ r ∈ opcodeRows, r.mnemonic = i.mnemonic → r.spells (encode i) = true

/-- The table row of a mnemonic is the only one a membership and the mnemonic leave. -/
theorem spells_of_row {i : Instr} {pat m : Command}
    (hrow : ∀ r ∈ opcodeRows, r.mnemonic = i.mnemonic → r.pattern = pat ∧ r.mask = m)
    (h : encode i &&& m = pat) : EncodeSpellsRow.Statement i := by
  intro r hr hm
  obtain ⟨hp, hk⟩ := hrow r hr hm
  simp [OpcodeRow.spells, hp, hk, h]

/-- An 8-bit operand, zero-extended, has nothing under the mask of the high byte of B. -/
theorem zeroExtend_and_high (v : Byte) : v.zeroExtend 16 &&& (0xFF00 : Duration) = 0 := by
  revert v; decide

/-- A field under a zero mask. -/
theorem masked_out {n : Nat} (x : BitVec n) : x &&& (0 : BitVec n) = 0 := BitVec.and_zero

theorem EncodeSpellsRow.nop : EncodeSpellsRow.Statement .nop :=
  spells_of_row (pat := 0) (m := 0xFFFFFFFFFFFF) (by decide) (by decide)

theorem EncodeSpellsRow.begin (polraw : Byte) : EncodeSpellsRow.Statement (.begin polraw) :=
  spells_of_row (pat := 0x100000000000) (m := 0xFFFFFFFFFF00)
    (by show ∀ r ∈ opcodeRows, r.mnemonic = "BEGIN" → _; decide)
    ((packFields_and 1 0xF false 7 1 0 0xFF 0 0xFFFF (polraw.zeroExtend 16) 0xFF00).trans
      (by rw [zeroExtend_and_high]; rfl))

theorem EncodeSpellsRow.set (p : PinArg) (value : Byte) (imm : Bool) :
    EncodeSpellsRow.Statement (.set p value imm) :=
  spells_of_row (pat := 0x200000000000) (m := 0xFE00FFFFFF00)
    (by show ∀ r ∈ opcodeRows, r.mnemonic = "SET" → _; decide)
    ((packFields_and 2 0xF imm 7 0 p.field 0 0 0xFFFF (value.zeroExtend 16) 0xFF00).trans
      (by rw [zeroExtend_and_high, masked_out, masked_out]; rfl))

theorem EncodeSpellsRow.setPercent (p : PinArg) (percent : Byte) (imm : Bool) :
    EncodeSpellsRow.Statement (.setPercent p percent imm) :=
  spells_of_row (pat := 0x300000000000) (m := 0xFE00FFFFFF00)
    (by show ∀ r ∈ opcodeRows, r.mnemonic = "SET_PERCENT" → _; decide)
    ((packFields_and 3 0xF imm 7 0 p.field 0 0 0xFFFF (percent.zeroExtend 16) 0xFF00).trans
      (by rw [zeroExtend_and_high, masked_out, masked_out]; rfl))

theorem EncodeSpellsRow.setFade (p : PinArg) (upMs downMs : Duration) :
    EncodeSpellsRow.Statement (.setFade p upMs downMs) :=
  spells_of_row (pat := 0x400000000000) (m := 0xFF0000000000)
    (by show ∀ r ∈ opcodeRows, r.mnemonic = "SET_FADE" → _; decide)
    ((packFields_and 4 0xF false 7 1 p.field 0 upMs 0 downMs 0).trans
      (by rw [masked_out, masked_out, masked_out]; rfl))

theorem EncodeSpellsRow.setPolarity (p : PinArg) (polraw : Byte) :
    EncodeSpellsRow.Statement (.setPolarity p polraw) :=
  spells_of_row (pat := 0x500000000000) (m := 0xFF00FFFFFF00)
    (by show ∀ r ∈ opcodeRows, r.mnemonic = "SET_POLARITY" → _; decide)
    ((packFields_and 5 0xF false 7 1 p.field 0 0 0xFFFF (polraw.zeroExtend 16) 0xFF00).trans
      (by rw [zeroExtend_and_high, masked_out]; rfl))

theorem EncodeSpellsRow.endChannel (p : PinArg) : EncodeSpellsRow.Statement (.endChannel p) :=
  spells_of_row (pat := 0x600000000000) (m := 0xFF00FFFFFFFF)
    (by show ∀ r ∈ opcodeRows, r.mnemonic = "END" → _; decide)
    ((packFields_and 6 0xF false 7 1 p.field 0 0 0xFFFF 0 0xFFFF).trans
      (by rw [masked_out]; rfl))

theorem EncodeSpellsRow.query (p : PinArg) : EncodeSpellsRow.Statement (.query p) :=
  spells_of_row (pat := 0x700000000000) (m := 0xFF00FFFFFFFF)
    (by show ∀ r ∈ opcodeRows, r.mnemonic = "QUERY" → _; decide)
    ((packFields_and 7 0xF false 7 1 p.field 0 0 0xFFFF 0 0xFFFF).trans
      (by rw [masked_out]; rfl))

end Sys2Proof.Laws
end

