-- ==== Sys2Proof/Tests/Slice0.lean ====
section
/-! SUPPORT. Tests: ill-formed commands are refused, the words of spec/95_test_vectors.md section 2.1
decode as the spec says, single steps give the spec's own vectors, and each statement's hypotheses are met by
a concrete state. Expected values are from 95_test_vectors.md (row named in the comment) or worked from the
rule named. -/

namespace Sys2Proof.Tests

open Sys2Proof.Machine

/-! ### States the tests start from -/

/-- S0 of 95_test_vectors.md section 0: after reset and BEGIN 0. -/
def armed : State := beginBlock 0 State.reset

/-- S0, then pin 5 acquired at duty 128. -/
def one : State := setDuty 5 128 false .ok armed

/-- Then pin 9 acquired at duty 200: two registers. -/
def two : State := setDuty 9 200 false .ok one

/-- Then pin 15: FREE is empty. -/
def full : State := setDuty 15 255 false .ok two

/-- Two channels, the counter about to wrap, a TICK waiting. -/
def wrapping : State := { two with tickCount := 255, inputs := [.tick] }

/-- One channel driven at 128, the counter one below it, a TICK waiting (row T4). -/
def threshold : State :=
  { hardReset [0] one with tickCount := 127, inputs := [.tick] }

/-- One channel driven at 255, the counter at 254, a TICK waiting (row T6). -/
def atTop : State := { setDuty 5 255 true .ok armed with tickCount := 254, inputs := [.tick] }

/-- What a command answers, as a state (every command has a next state). -/
def after (i : Instr) (s : State) : State :=
  match exec i s with
  | .next t => t
  | .fault _ => s
  | .refused _ => s

/-- What a step answers, as a state; the state itself where it is refused. -/
def stepped (s : State) : State :=
  match step s with
  | .next t => t
  | .fault _ => s
  | .refused _ => s

/-- Parameters that break R8: no channel. -/
def noChannels : State := { State.reset with cfg := { Config.params with nCh := 0 } }

/-! ### Ill-formed commands (R72, R79): the pin id 0xFF, for each check -/

theorem test_wellFormed_set_refuses : (Instr.set (.pin 0xFF) 1 false).wellFormed = false := by decide
theorem test_wellFormed_setPercent_refuses : (Instr.setPercent (.pin 0xFF) 1 false).wellFormed = false := by
  decide
theorem test_wellFormed_setFade_refuses : (Instr.setFade (.pin 0xFF) 1 1).wellFormed = false := by decide
theorem test_wellFormed_setPolarity_refuses : (Instr.setPolarity (.pin 0xFF) 1).wellFormed = false := by
  decide
theorem test_wellFormed_end_refuses : (Instr.endChannel (.pin 0xFF)).wellFormed = false := by decide
theorem test_wellFormed_query_refuses : (Instr.query (.pin 0xFF)).wellFormed = false := by decide

/-! ### Words written out from section 2.1 -/

theorem test_decode_nop : decode 0x000000000000 = .ok .nop := by rfl
theorem test_decode_begin : decode 0x100000000001 = .ok (.begin 1) := by rfl
theorem test_decode_set_imm : decode 0x210500000080 = .ok (.set (.pin 5) 128 true) := by rfl
theorem test_decode_set_all : decode 0x20FF000000C8 = .ok (.set .all 200 false) := by rfl
theorem test_decode_setPercent : decode 0x300300000032 = .ok (.setPercent (.pin 3) 50 false) := by rfl
theorem test_decode_setFade : decode 0x400503E80000 = .ok (.setFade (.pin 5) 1000 0) := by rfl
theorem test_decode_setPolarity : decode 0x500500000001 = .ok (.setPolarity (.pin 5) 1) := by rfl
theorem test_decode_end : decode 0x600500000000 = .ok (.endChannel (.pin 5)) := by rfl
theorem test_decode_query : decode 0x700300000000 = .ok (.query (.pin 3)) := by rfl
theorem test_encode_setFade : encode (.setFade (.pin 1) 500 250) = 0x400101F400FA := by decide
theorem test_encode_set_all_imm : encode (.set .all 200 true) = 0x21FF000000C8 := by decide

/-- The illegal words of section 2.1, each refused for its reason. -/
theorem test_decode_illegal :
    decode 0x800000000000 = .error .reservedOpcode ∧ decode 0xF00000000000 = .error .reservedOpcode ∧
    decode 0x000000000001 = .error .mustBeZero ∧ decode 0x100500000000 = .error .mustBeZero ∧
    decode 0x200512340080 = .error .mustBeZero ∧ decode 0x200500000180 = .error .mustBeZero ∧
    decode 0x220500000080 = .error .mustBeZero ∧ decode 0x410500000000 = .error .mustBeZero ∧
    decode 0x510500000001 = .error .mustBeZero ∧ decode 0x600500000001 = .error .mustBeZero ∧
    decode 0x700501000000 = .error .mustBeZero := by
  refine ⟨?_, ?_, ?_, ?_, ?_, ?_, ?_, ?_, ?_, ?_, ?_⟩ <;> rfl

theorem test_decodeTableWord : decodeTableWord 48 0x20FE000000FF = some (.set (.pin 254) 255 false) := by
  decide

/-! ### Assembly text (R79 to R81) -/

theorem test_assemble_set_imm :
    assembleLine "SET 5, 128, IMM ; comment".toList = some (.set (.pin 5) 128 true) := by decide
theorem test_assemble_hex_pseudo :
    assembleLine " FADE_ALL 0x10,100".toList = some (.setFade .all 16 100) := by decide
theorem test_assemble_refuses_pin_255 : assembleLine "END 255".toList = none := by decide
theorem test_assemble_refuses_value_300 : assembleLine "SET 4, 300".toList = none := by decide
theorem test_script_tick : scriptLine "TICK 2".toList = some [.tick, .tick] := by decide

/-! ### Single steps: rows of sections 2.2 to 2.8 -/

/-- K32. -/
theorem test_nop : after .nop full = full := by decide
/-- K2. -/
theorem test_begin_two : (after (.begin 2) State.reset).status = 0x00030001 := by decide
/-- K31. -/
theorem test_begin_again : (after (.begin 1) one).status = 0x00030000 ∧ (after (.begin 1) one).dir = one.dir := by
  decide
/-- K6: acquisition with the hard reset, its events in order. -/
theorem test_set_acquire_imm :
    (after (.set (.pin 5) 128 true) armed).status = 0x0101FF00 ∧
    (after (.set (.pin 5) 128 true) armed).trace =
      [.gpioWrite 0x10 0x20 .low, .pinDir 5 .output, .timerReset] := by decide
/-- S2: the pool is exhausted, and an invalid pin is reported before that (program P3). -/
theorem test_set_exhausted :
    after (.set (.pin 6) 60 true) full = { full with lastStatus := 4 } ∧
    after (.set (.pin 200) 1 true) full = { full with lastStatus := 3 } := by decide
/-- K13. -/
theorem test_setPercent_clamped :
    (after (.setPercent (.pin 3) 150 false) armed).status = 0x01010001 ∧
    ((after (.setPercent (.pin 3) 150 false) armed).record 0).target = 255 := by decide
/-- Percent 50 gives 127, not 128 (R133). -/
theorem test_setPercent_fifty :
    ((after (.setPercent (.pin 3) 50 false) armed).record 0).target = 127 := by decide
/-- K16. -/
theorem test_setFade_rates :
    ((after (.setFade (.pin 5) 1000 0) one).record 0).up = 4 ∧
    ((after (.setFade (.pin 5) 1000 0) one).record 0).down = 0 := by decide
/-- K20: nothing to change, the adjustment still reported. -/
theorem test_setFade_all_none : after (.setFade .all 1 1) armed = { armed with lastStatus := 1 } := by decide
/-- K22. -/
theorem test_setPolarity_adjusted :
    (after (.setPolarity (.pin 5) 2) one).status = 0x01010001 ∧
    ((after (.setPolarity (.pin 5) 2) one).record 0).pol = .inverted := by decide
/-- K23. -/
theorem test_setPolarity_unknown :
    after (.setPolarity (.pin 6) 1) one = { one with lastStatus := 2 } := by decide
/-- K25: the idle write and the direction in the rule's order, record 0 at the head of FREE again. -/
theorem test_end_events :
    (after (.endChannel (.pin 5)) { one with trace := [] }).trace =
      [.pinDir 5 .input, .gpioWrite 0x10 0x20 .low] ∧
    freeWalk (after (.endChannel (.pin 5)) one) = [0, 1, 2] := by decide
/-- Section 2.2, remove from the middle: ACTIVE = [2, 1, 0] becomes [2, 0]. -/
theorem test_end_middle : activeWalk (after (.endChannel (.pin 9)) full) = [2, 0] := by decide
/-- K29 with duty 128: found, index 0, target 128. -/
theorem test_query_found : (after (.query (.pin 5)) one).resp = 0x800080000000 := by decide
/-- K30: QUERY ALL clears resp. -/
theorem test_query_all :
    (after (.query .all) { one with resp := 0x800080000000 }).resp = 0 ∧
    (after (.query .all) one).lastStatus = 2 := by decide
/-- T1 on pin 5: the wrap jumps to the target and drives the pin on. -/
theorem test_tick_wrap :
    ((stepped wrapping).record 0).current = 128 ∧
    outCell (stepped wrapping).out 0x10 = { written := 0x20, levels := 0x20 } := by decide
/-- T4: off at the threshold. -/
theorem test_tick_threshold :
    (stepped threshold).tickCount = 128 ∧
    outCell (stepped threshold).out 0x10 = { written := 0x20, levels := 0 } := by decide
/-- T13: a TICK before BEGIN changes nothing. -/
theorem test_tick_idle : tickStep State.reset = State.reset := by decide
/-- R240, section 2.8. -/
theorem test_reset_step :
    (stepped { full with inputs := [.reset] }).status = 0 ∧
    (stepped { full with inputs := [.reset] }).pool = freshPool 3 := by decide
/-- Section 2.1, illegal word from reset; STATUS = 0x00000006. -/
theorem test_illegal_step :
    (stepped { State.reset with inputs := [.command 0x800000000000] }).status = 0x00000006 := by decide
/-- A table word is fetched and run. -/
theorem test_fetch_begin :
    (stepped (State.reset.withFetchWord 48 0x100000000001)).status = 0x00030000 := by decide
/-- Rows F5, F6, F8, F12, F13 of section 2.4. -/
theorem test_fadeStep :
    fadeStep 255 250 10 0 = 255 ∧ fadeStep 0 5 0 10 = 0 ∧ fadeStep 0 5 10 0 = 0 ∧
    fadeStep 50 40 3 200 = 43 ∧ fadeStep 40 50 200 3 = 47 := by decide
/-- Rows FR3, FR4, FR5, FR14 of section 2.5. -/
theorem test_fadeRate :
    fadeRate 16 15 = (255, true) ∧ fadeRate 16 16 = (255, false) ∧ fadeRate 16 17 = (240, false) ∧
    fadeRate 16 4081 = (0, false) := by decide

/-! ### The statements' hypotheses are met -/

theorem armed_inv : Inv armed :=
  ⟨by decide, ⟨by decide, by decide, by decide, by decide, by decide, by decide, by decide, by decide⟩,
    ⟨by decide, by decide, by decide, by decide, by decide, by decide⟩⟩

theorem two_inv : Inv two :=
  ⟨by decide, ⟨by decide, by decide, by decide, by decide, by decide, by decide, by decide, by decide⟩,
    ⟨by decide, by decide, by decide, by decide, by decide, by decide⟩⟩

theorem wrapping_inv : Inv wrapping :=
  ⟨by decide, ⟨by decide, by decide, by decide, by decide, by decide, by decide, by decide, by decide⟩,
    ⟨by decide, by decide, by decide, by decide, by decide, by decide⟩⟩

theorem threshold_inv : Inv threshold :=
  ⟨by decide, ⟨by decide, by decide, by decide, by decide, by decide, by decide, by decide, by decide⟩,
    ⟨by decide, by decide, by decide, by decide, by decide, by decide⟩⟩

theorem full_inv : Inv full :=
  ⟨by decide, ⟨by decide, by decide, by decide, by decide, by decide, by decide, by decide, by decide⟩,
    ⟨by decide, by decide, by decide, by decide, by decide, by decide⟩⟩

/-- DecodeOfEncodeIsTheCommand, at the largest pin id and value. -/
theorem witness_wellFormed : (Instr.set (.pin 254) 255 true).wellFormed = true := by decide
/-- EncodeOfDecodeIsTheWord, DecodedOperandsAreTheFields and both clauses of DecodeFollowsTheOpcodeTable. -/
theorem witness_decode :
    decode 0x20FE000000FF = .ok (.set (.pin 254) 255 false) ∧
    (⟨"SET", 0x200000000000#48, 0xFE00FFFFFF00#48⟩ : OpcodeRow) ∈ opcodeRows ∧
    (0x20FE000000FF#48 &&& 0xFE00FFFFFF00#48) = 0x200000000000#48 := ⟨rfl, by decide, by decide⟩
/-- IllegalCommandOnlyWritesStatusSix: first and last reserved opcode, and a must-be-zero bit at each end of
the field of a legal opcode. -/
theorem witness_illegal :
    State.reset.cfg.legal = true ∧ 8 ≤ (0x800000000000#48 >>> 44).toNat ∧
    8 ≤ (0xF00000000000#48 >>> 44).toNat ∧
    (∃ r ∈ opcodeRows, 0x200500000180#48 >>> 44 = r.pattern >>> 44 ∧ 0x200500000180#48 &&& r.mask ≠ r.pattern) ∧
    (∃ r ∈ opcodeRows, 0x700800000001#48 >>> 44 = r.pattern >>> 44 ∧ 0x700800000001#48 &&& r.mask ≠ r.pattern) := by
  decide
/-- AssembledCommandsAreWellFormed: the largest pin id (260, past it, is refused: it does not become pin 4). -/
theorem witness_assemble : assembleLine "QUERY 254".toList = some (.query (.pin 254)) ∧
    assembleLine "QUERY 260".toList = none := by decide
/-- StepRunsTheDecodedCommand, StepTakesTicksAndResets, CommandAndTickTogetherGoInOneOfBothOrders,
StepCompletesExactlyOnLegalParameters, HardwareResetState, GpioChangesOnlyThroughEvents: one state per kind
of event. -/
theorem witness_step :
    one.cfg.legal = true ∧ noChannels.cfg.legal = false ∧
    { one with inputs := [.command 0x700500000000] }.inputs = [.command 0x700500000000] ∧
    decode 0x700500000000 = .ok (.query (.pin 5)) ∧
    { one with inputs := [.tick] }.inputs = [.tick] ∧
    { one with inputs := [.reset] }.inputs = [.reset] ∧
    one.inputs = [] ∧ Input.command 0x700500000000 ≠ .reset ∧
    { one with inputs := [.together 0] }.inputs = [.together 0] :=
  ⟨by decide, by decide, rfl, rfl, rfl, rfl, by decide, by decide, rfl⟩
/-- NoOpCodesLeaveTheStateUnchanged: the smallest and the largest code of a command. -/
theorem witness_noOpCode :
    2 ≤ (after (.query (.pin 6)) one).lastStatus.toNat ∧
    exec (.query (.pin 6)) one = .next (after (.query (.pin 6)) one) ∧
    2 ≤ (after (.query (.pin 6)) State.reset).lastStatus.toNat := ⟨by decide, rfl, by decide⟩
/-- NotArmedCommandsOnlyReportNotArmed, EveryStepKeepsIdleBeforeBegin. -/
theorem witness_notArmed :
    State.reset.armed = false ∧ Instr.endChannel .all ≠ .nop ∧ (∀ q, Instr.endChannel .all ≠ .begin q) :=
  ⟨rfl, by decide, fun _ => by simp⟩
/-- NopChangesNothing, third clause. -/
theorem witness_nop_word : 0x080000000000#48 >>> 44 = 0 ∧ (0x080000000000#48 : Command) ≠ 0 := by decide
/-- PoolInitPutsEveryRecordOnFreeInOrder: the first and the last record. -/
theorem witness_poolInit :
    one.cfg.legal = true ∧ (0 : Link).toNat < one.cfg.nCh ∧ (2 : Link).toNat + 1 = one.cfg.nCh := by decide
/-- PushInsertsAtTheHead (record 0, taken off FREE) and RemoveUnlinksFromAnywhere (a middle record). -/
theorem witness_lists :
    linked (remove .free 0 armed) noLink ((remove .free 0 armed).head .free) [1, 2] = true ∧
    (0 : Link) ∉ ([1, 2] : List Link) ∧ (0 : Link) ≠ noLink ∧
    (0 : Link).toNat < (remove .free 0 armed).pool.length ∧
    linked full noLink (full.head .active) [2, 1, 0] = true ∧ (1 : Link) ∈ ([2, 1, 0] : List Link) := by decide
/-- LookupFindsTheActiveRecord, SetUpdatesAnActivePin, HardResetStartsACycleAtTheNextTick,
EndReleasesTheChannel, ReacquiredChannelHasNoResidue, QueryReportsTheRecord. -/
theorem witness_activePin :
    Inv two ∧ two.armed = true ∧ (PinArg.pin 5).field ≠ allPins ∧ lookup (PinArg.pin 5).field two = some 0 :=
  ⟨two_inv, by decide, by decide, by decide⟩
/-- SetAcquiresANewPin, at the highest pin of the test map; both instruction forms. -/
theorem witness_acquire :
    Inv two ∧ two.armed = true ∧ (PinArg.pin 15).field ≠ allPins ∧ lookup (PinArg.pin 15).field two = none ∧
    two.cfg.pinOf (PinArg.pin 15).field = some (0x11, 0x80) ∧ two.freeHead ≠ noLink ∧
    (∃ q : Byte, Instr.setPercent (.pin 15) 101 true = .setPercent (.pin 15) q true ∧
      (255 : Byte) = BitVec.ofNat 8 (min q.toNat 100 * 255 / 100) ∧
      (1 : Byte) = if 100 < q.toNat then 1 else 0) :=
  ⟨two_inv, by decide, by decide, by decide, by decide, by decide, 101, rfl, by decide, by decide⟩
/-- AcquisitionAbortsWithoutEffect: an undefined pin, and a defined one with FREE empty. -/
theorem witness_abort :
    full.armed = true ∧ (PinArg.pin 16).field ≠ allPins ∧ lookup (PinArg.pin 16).field full = none ∧
    full.cfg.pinOf (PinArg.pin 16).field = none ∧ lookup (PinArg.pin 6).field full = none ∧
    full.cfg.pinOf (PinArg.pin 6).field ≠ none ∧ full.freeHead = noLink := by decide
/-- SetAllUpdatesEveryActiveChannel, SetFadeWritesTheRates, SetPolarityWritesThePolarity: with the wildcard,
with and without an active channel, and for one pin. -/
theorem witness_all :
    two.armed = true ∧ PinArg.all.field = allPins ∧ activeWalk two = [1, 0] ∧ activeWalk armed = [] ∧
    targets (PinArg.pin 9).field two ≠ [] := by decide
/-- UnknownPinIsReportedWithoutEffect: a pin, and ALL for END and QUERY. -/
theorem witness_unknown :
    two.armed = true ∧ lookup (PinArg.pin 6).field two = none ∧ (PinArg.pin 6).field ≠ allPins ∧
    lookup PinArg.all.field two = none := by decide
/-- QueryAfterSetReportsTheTarget: an update and an acquisition. -/
theorem witness_setThenQuery :
    Inv two ∧ exec (.set (.pin 5) 7 true) two = .next (after (.set (.pin 5) 7 true) two) ∧
    (after (.set (.pin 5) 7 true) two).lastStatus = 0 ∧
    (after (.set (.pin 6) 7 false) two).lastStatus = 0 := ⟨two_inv, rfl, by decide, by decide⟩
/-- The clauses of FadeReachesTheTargetInTheStatedSteps, FadeRateFormula and FullRampLastsAtLeastTheDuration at
their boundaries. -/
theorem witness_fade :
    (255 < 255 * 16 / (15 : Duration).toNat) ∧ (255 * 16 / (16 : Duration).toNat = 255) ∧
    (fadeRate 16 16).2 = false ∧ (fadeRate 16 4080).1 = 1 ∧ (fadeRate 16 4080).2 = false := by decide
/-- WholeCyclesMakeOneFadeStepEach and TickAdvancesTheCounterModulo256. -/
theorem witness_cycles :
    Inv wrapping ∧ wrapping.cfg.legal = true ∧ wrapping.armed = true ∧ (0 : Link) ∈ activeWalk wrapping ∧
    wrapping.inputs = [.tick] := ⟨wrapping_inv, by decide, by decide, by decide, by decide⟩
/-- WrapTickFadesAndDrivesEveryChannel, WaveformOfOneCycle (k = 0 and 255), OneOrTwoPinWritesPerCycle. -/
theorem witness_wrap :
    Inv wrapping ∧ wrapping.armed = true ∧ wrapping.tickCount = 255 ∧ wrapping.inputs = .tick :: [] ∧
    (1 : Link) ∈ activeWalk wrapping := ⟨wrapping_inv, by decide, by decide, by decide, by decide⟩
/-- ThresholdTickTurnsOffAtCurrent, with a channel at its threshold. -/
theorem witness_threshold :
    Inv threshold ∧ threshold.armed = true ∧ threshold.tickCount ≠ 255 ∧ threshold.inputs = .tick :: [] ∧
    (0 : Link) ∈ activeWalk threshold ∧ (threshold.record 0).current = 128 ∧
    threshold.tickCount + 1 = (threshold.record 0).current :=
  ⟨threshold_inv, by decide, by decide, by decide, by decide, by decide, by decide⟩
/-- ThresholdTickTurnsOffAtCurrent at its boundary: the counter reaches 255 with a channel at 255 (row T6). -/
theorem witness_threshold_at_255 :
    Inv atTop ∧ atTop.armed = true ∧ atTop.tickCount ≠ 255 ∧ atTop.inputs = .tick :: [] ∧
    (0 : Link) ∈ activeWalk atTop ∧ (atTop.record 0).current = 255 ∧
    atTop.tickCount + 1 = (atTop.record 0).current ∧ (stepped atTop).out = atTop.out :=
  ⟨⟨by decide, ⟨by decide, by decide, by decide, by decide, by decide, by decide, by decide, by decide⟩,
    ⟨by decide, by decide, by decide, by decide, by decide, by decide⟩⟩,
    by decide, by decide, by decide, by decide, by decide, by decide, by decide⟩
/-- TickWritesOnlyCounterCurrentsAndPins, first clause. -/
theorem witness_idleTick : State.reset.armed = false := rfl
/-- GpioWriteTouchesOnlyItsBits, at the last register and the last bit, and PinDirSetsOneDirection. -/
theorem witness_gpio :
    Memory.wf full.out = true ∧ 0xFF < 2 ^ full.cfg.outAddrW ∧ 0x80 < 2 ^ full.cfg.outRegW ∧
    full.cfg.validPin 15 = true := by decide
/-- StatusWordLayout, InvariantHoldsAfterReset. -/
theorem witness_legal : full.cfg.legal = true ∧ Config.params.legal = true := by decide
/-- EveryStepKeepsThePoolInvariants, EveryStepKeepsTheForms, EveryStepKeepsActivePinsDriven,
EveryStepKeepsIdleBeforeBegin: a state with channels and a step it makes. -/
theorem witness_invariants :
    PoolWf wrapping ∧ FormsWf wrapping ∧ ActivePinsDriven wrapping ∧ IdleBeforeBegin State.reset ∧
    step wrapping = .next (stepped wrapping) :=
  ⟨wrapping_inv.pool, wrapping_inv.forms, by show ∀ c ∈ activeWalk wrapping, _; decide,
    fun _ => ⟨rfl, rfl, rfl, rfl, rfl, rfl⟩, rfl⟩

end Sys2Proof.Tests
end

section
/-! SUPPORT. The pool as a pair of threaded lists: what `remove` and `push` do to both lists at once
(spec/40_pool.md R101, R102), what a change of the working fields of active records leaves alone, and the
pool after PoolInit (R104). -/

namespace Sys2Proof.Machine

/-! ### Records: the part that is not links, and the part R28 speaks of -/

/-- A record without its links: what `push` and `remove` never change. -/
def Channel.content (r : Channel) : Channel := { r with next := noLink, prev := noLink }

/-- A record without the fields commands and fades rewrite while it is active: pin, register, mask and
links, which are all that R28 says of an active record. -/
def Channel.place (r : Channel) : Channel :=
  { r with pol := .normal, target := 0, current := 0, up := 0, down := 0 }

theorem Channel.content_eq_iff {r q : Channel} :
    r.content = q.content ↔ r.pin = q.pin ∧ r.pol = q.pol ∧ r.reg = q.reg ∧ r.mask = q.mask ∧
      r.target = q.target ∧ r.current = q.current ∧ r.up = q.up ∧ r.down = q.down := by
  simp [content]

theorem Channel.place_eq_iff {r q : Channel} :
    r.place = q.place ↔
      r.pin = q.pin ∧ r.reg = q.reg ∧ r.mask = q.mask ∧ r.next = q.next ∧ r.prev = q.prev := by
  simp [place]

/-- Whether a record holds the reset values of R21 is a matter of its content. -/
theorem Channel.resetFields_eq_self_congr {r q : Channel} (h : r.content = q.content) :
    r.resetFields = r ↔ q.resetFields = q := by
  have on_content : ∀ x : Channel, x.resetFields = x ↔ x.content.resetFields = x.content := by
    rintro ⟨pin, pol, reg, mask, target, current, up, down, next, prev⟩
    simp only [resetFields, content, Channel.mk.injEq, and_true]
  rw [on_content r, on_content q, h]

/-- An index no record has reads the free value of log entry 9. -/
theorem State.record_of_length_le {s : State} {c : Link} (h : s.pool.length ≤ c.toNat) :
    s.record c = Config.absentRecord c.toNat := by
  simp [State.record, h]

/-- What an update keeps of a record, it keeps of every record. -/
theorem State.record_update_keeps {α : Type} (q : Channel → α) {f : Channel → Channel}
    (hf : ∀ r, q (f r) = q r) (s : State) (c d : Link) :
    q ((s.update c f).record d) = q (s.record d) := by
  by_cases hd : d.toNat < s.pool.length
  · rw [State.record_update s c d f hd]
    split
    · exact hf _
    · rfl
  · have hd : s.pool.length ≤ d.toNat := Nat.not_lt.mp hd
    rw [State.record_of_length_le (by simpa using hd), State.record_of_length_le hd]

/-- Rewriting links keeps every record's content. -/
theorem content_record_relink (s : State) (c d : Link) (n p : Channel → Link) :
    ((s.update c (fun r => { r with next := n r, prev := p r })).record d).content =
      (s.record d).content :=
  State.record_update_keeps Channel.content (f := fun r => { r with next := n r, prev := p r })
    (fun _ => rfl) s c d

theorem content_record_push (L : ListId) (c d : Link) (s : State) :
    ((push L c s).record d).content = (s.record d).content := by
  simp only [push, State.record_setHead]
  split <;> simp only [content_record_relink]

theorem content_record_remove (L : ListId) (c d : Link) (s : State) :
    ((remove L c s).record d).content = (s.record d).content := by
  simp only [remove, content_record_relink]
  split <;> split <;> simp only [content_record_relink, State.record_setHead]

/-! ### Neighbours on a linked list -/

theorem linked_head {s : State} {pv hd : Link} {l : List Link} (h : linked s pv hd l = true) :
    hd = noLink ∨ hd ∈ l := by
  cases l with
  | nil => exact .inl (linked_nil.mp h)
  | cons d l => exact .inr ((linked_cons.mp h).1 ▸ List.mem_cons_self ..)

theorem noLink_not_mem {s : State} {pv hd : Link} {l : List Link} (h : linked s pv hd l = true) :
    noLink ∉ l := fun hm => (linked_inRange h _ hm).1 rfl

/-- The link after a listed record: another record of the list, or NONE. -/
theorem linked_next {s : State} {pv hd c : Link} {l : List Link} (h : linked s pv hd l = true)
    (hn : l.Nodup) (hc : c ∈ l) :
    (s.record c).next ≠ c ∧ ((s.record c).next = noLink ∨ (s.record c).next ∈ l) := by
  induction l generalizing pv hd with
  | nil => cases hc
  | cons d l ih =>
    obtain ⟨_, hd0, _, _, hl⟩ := linked_cons.mp h
    obtain ⟨hdl, hn⟩ := List.nodup_cons.mp hn
    rcases List.mem_cons.mp hc with rfl | hc
    · rcases linked_head hl with h0 | hm
      · exact ⟨fun e => hd0 (e ▸ h0), .inl h0⟩
      · exact ⟨fun e => hdl (e ▸ hm), .inr (List.mem_cons_of_mem _ hm)⟩
    · obtain ⟨hne, hmem⟩ := ih hl hn hc
      exact ⟨hne, hmem.imp_right (List.mem_cons_of_mem _)⟩

/-- The link before a listed record: what stands before the list, for its head, or another record of it. -/
theorem linked_prev {s : State} {pv hd c : Link} {l : List Link} (h : linked s pv hd l = true)
    (hn : l.Nodup) (hc : c ∈ l) :
    hd = c ∧ (s.record c).prev = pv ∨
      hd ≠ c ∧ (s.record c).prev ∈ l ∧ (s.record c).prev ≠ c := by
  induction l generalizing pv hd with
  | nil => cases hc
  | cons d l ih =>
    obtain ⟨rfl, _, _, hp, hl⟩ := linked_cons.mp h
    obtain ⟨hdl, hn⟩ := List.nodup_cons.mp hn
    rcases List.mem_cons.mp hc with rfl | hc
    · exact .inl ⟨rfl, hp⟩
    · have hne : hd ≠ c := fun e => hdl (e ▸ hc)
      rcases ih hl hn hc with ⟨_, hpc⟩ | ⟨_, hpm, hpc⟩
      · exact .inr ⟨hne, hpc ▸ List.mem_cons_self .., hpc ▸ hne⟩
      · exact .inr ⟨hne, List.mem_cons_of_mem _ hpm, hpc⟩

/-- Bypassing record `c` in both directions unlinks it, wherever on the list it stands (R102). -/
theorem linked_erase {s t : State} {c pv hd : Link} {l : List Link}
    (hlen : t.pool.length = s.pool.length)
    (hrec : ∀ d ∈ l, d ≠ c →
      (t.record d).next = (if d = (s.record c).prev then (s.record c).next else (s.record d).next) ∧
      (t.record d).prev = (if d = (s.record c).next then (s.record c).prev else (s.record d).prev))
    (h : linked s pv hd l = true) (hn : l.Nodup) (hpv : pv ∉ l) (hc : c ∈ l) :
    linked t pv (if hd = c then (s.record c).next else hd) (l.erase c) = true := by
  induction l generalizing pv hd with
  | nil => cases hc
  | cons d l ih =>
    obtain ⟨rfl, hd0, hlt, hp, hl⟩ := linked_cons.mp h
    obtain ⟨hdl, hn⟩ := List.nodup_cons.mp hn
    by_cases hdc : hd = c
    · subst hdc
      rw [List.erase_cons_head, if_pos rfl]
      cases l with
      | nil => exact hl
      | cons e l =>
        obtain ⟨he, he0, helt, _, hel⟩ := linked_cons.mp hl
        obtain ⟨hel', _⟩ := List.nodup_cons.mp hn
        have unchanged : ∀ x ∈ e :: l, (t.record x).next = (s.record x).next := fun x hx => by
          have hxp : x ≠ (s.record hd).prev := fun e =>
            hpv (hp ▸ e ▸ List.mem_cons_of_mem _ hx)
          rw [(hrec x (List.mem_cons_of_mem _ hx) (fun e => hdl (e ▸ hx))).1, if_neg hxp]
        have hprev : ∀ x ∈ e :: l, (t.record x).prev = if x = e then pv else (s.record x).prev :=
          fun x hx => by
            rw [(hrec x (List.mem_cons_of_mem _ hx) (fun e => hdl (e ▸ hx))).2, he, hp]
        refine linked_cons.mpr ⟨he, he0, hlen ▸ helt, ?_, ?_⟩
        · rw [hprev e (List.mem_cons_self ..), if_pos rfl]
        · rw [unchanged e (List.mem_cons_self ..), ← hel]
          refine linked_congr hlen fun x hx => ⟨unchanged x (List.mem_cons_of_mem _ hx), ?_⟩
          rw [hprev x (List.mem_cons_of_mem _ hx), if_neg (fun e' : x = e => hel' (e' ▸ hx))]
    · have hcl : c ∈ l := (List.mem_cons.mp hc).resolve_left (Ne.symm hdc)
      have hnext : hd ≠ (s.record c).next := fun e =>
        (linked_next hl hn hcl).2.elim (fun h0 => hd0 (e.trans h0)) (fun hm => hdl (e ▸ hm))
      have hprev : hd = (s.record c).prev ↔ (s.record hd).next = c := by
        rcases linked_prev hl hn hcl with ⟨hnc, hpc⟩ | ⟨hnc, hpm, _⟩
        · simp [hnc, hpc]
        · simp only [hnc, iff_false]
          exact fun e => hdl (e ▸ hpm)
      obtain ⟨htn, htp⟩ := hrec hd (List.mem_cons_self ..) hdc
      rw [if_neg hnext] at htp
      rw [if_neg hdc, List.erase_cons_tail (by simpa using hdc)]
      refine linked_cons.mpr ⟨rfl, hd0, hlen ▸ hlt, htp.trans hp, ?_⟩
      rw [htn, if_congr hprev rfl rfl]
      exact ih (fun x hx => hrec x (List.mem_cons_of_mem _ hx)) hl hn hdl hcl

/-! ### `remove` and `push` on one list -/

/-- The neighbours of a listed record: what `record_remove` asks of them, and that both are NONE or on the
list too. -/
theorem linked_neighbours {s : State} {hd c : Link} {l : List Link} (h : linked s noLink hd l = true)
    (hn : l.Nodup) (hc : c ∈ l) :
    (s.record c).prev ≠ c ∧ (s.record c).next ≠ c ∧
      ((s.record c).prev = noLink ∨ (s.record c).prev ∈ l) ∧
      ((s.record c).next = noLink ∨ (s.record c).next ∈ l) := by
  obtain ⟨hnc, hnext⟩ := linked_next h hn hc
  rcases linked_prev h hn hc with ⟨_, hp⟩ | ⟨_, hp, hpc⟩
  · exact ⟨hp ▸ (linked_inRange h c hc).1.symm, hnc, .inl hp, hnext⟩
  · exact ⟨hpc, hnc, .inr hp, hnext⟩

/-- `remove(L, c)` rewrites no record off the list (R102). -/
theorem record_remove_off {s : State} {L : ListId} {c d hd : Link} {l : List Link}
    (h : linked s noLink hd l = true) (hn : l.Nodup) (hc : c ∈ l) (hd : d ∉ l) (hd0 : d ≠ noLink)
    (hlt : d.toNat < s.pool.length) : (remove L c s).record d = s.record d := by
  obtain ⟨hpc, hnc, hprev, hnext⟩ := linked_neighbours h hn hc
  have off : ∀ x : Link, x = noLink ∨ x ∈ l → d ≠ x := fun x hx e =>
    hx.elim (fun e0 => hd0 (e.trans e0)) (fun hm => hd (e ▸ hm))
  rw [record_remove d hpc hnc hlt, if_neg (off c (.inr hc))]
  simp [off _ hprev, off _ hnext]

/-- `remove(L, c)` takes a record out from anywhere in its list (R102). -/
theorem linked_remove {s : State} {L : ListId} {c : Link} {l : List Link}
    (h : linked s noLink (s.head L) l = true) (hn : l.Nodup) (hc : c ∈ l) :
    linked (remove L c s) noLink ((remove L c s).head L) (l.erase c) = true := by
  have h0 : noLink ∉ l := noLink_not_mem h
  obtain ⟨hpc, hnc, _, _⟩ := linked_neighbours h hn hc
  have hhead : (remove L c s).head L = if s.head L = c then (s.record c).next else s.head L := by
    rw [remove_head]
    refine if_congr ?_ rfl rfl
    rcases linked_prev h hn hc with ⟨hh, hp⟩ | ⟨hh, hp, _⟩
    · simp [hh, hp]
    · simp only [hh, iff_false]
      exact fun e => h0 (e ▸ hp)
  rw [hhead]
  refine linked_erase (remove_length L c s) (fun d hd hdc => ?_) h hn h0 hc
  obtain ⟨hd0, hlt⟩ := linked_inRange h d hd
  have guarded : ∀ x : Link, (x ≠ noLink ∧ d = x) ↔ d = x := fun x =>
    ⟨fun e => e.2, fun e => ⟨fun e0 => hd0 (e.trans e0), e⟩⟩
  rw [record_remove d hpc hnc hlt, if_neg hdc]
  exact ⟨if_congr (guarded _) rfl rfl, if_congr (guarded _) rfl rfl⟩

/-- `push(L, c)` rewrites only `c` and the old head of the list (R101). -/
theorem record_push_off {s : State} {L : ListId} {c d : Link} (hhc : s.head L ≠ c) (hdc : d ≠ c)
    (hdh : s.head L = noLink ∨ d ≠ s.head L) (hlt : d.toNat < s.pool.length) :
    (push L c s).record d = s.record d := by
  rw [record_push d hhc hlt, if_neg hdc, if_neg fun ⟨hne, e⟩ => hdh.elim hne fun hn => hn e]

/-- `push(L, c)` puts a record that is not on the list at its head (R101). -/
theorem linked_push {s : State} {L : ListId} {c : Link} {l : List Link}
    (h : linked s noLink (s.head L) l = true) (hn : l.Nodup) (hc : c ∉ l) (hc0 : c ≠ noLink)
    (hlt : c.toNat < s.pool.length) :
    linked (push L c s) noLink ((push L c s).head L) (c :: l) = true := by
  have hlen : (push L c s).pool.length = s.pool.length := push_length L c s
  have hhc : s.head L ≠ c := fun e =>
    (linked_head h).elim (fun e0 => hc0 (e.symm.trans e0)) (fun hm => hc (e ▸ hm))
  have own := record_push c hhc hlt
  rw [if_pos rfl] at own
  refine linked_cons.mpr ⟨push_head L c s, hc0, hlen ▸ hlt, by rw [own], ?_⟩
  rw [own]
  cases l with
  | nil => exact h
  | cons e l =>
    obtain ⟨he, he0, helt, _, hl⟩ := linked_cons.mp h
    obtain ⟨hel, _⟩ := List.nodup_cons.mp hn
    have first := record_push e hhc helt
    rw [if_neg fun e' : e = c => hc (e' ▸ List.mem_cons_self ..), if_pos ⟨he ▸ he0, he.symm⟩] at first
    refine linked_cons.mpr ⟨he, he0, hlen ▸ helt, by rw [first], ?_⟩
    rw [first, ← hl]
    refine linked_congr hlen fun d hd => ?_
    rw [record_push_off hhc (fun e' => hc (e' ▸ List.mem_cons_of_mem _ hd))
      (.inr fun e' => hel (he ▸ e' ▸ hd)) (linked_inRange hl d hd).2]
    exact ⟨rfl, rfl⟩

/-! ### Two disjoint lists at once -/

/-- The links run through the lists `l`, which are disjoint and hold no record twice (R28). -/
structure Threaded (s : State) (l : ListId → List Link) : Prop where
  linked : ∀ L, linked s noLink (s.head L) (l L) = true
  nodup : ∀ L, (l L).Nodup
  disjoint : ∀ L K, L ≠ K → ∀ c ∈ l L, c ∉ l K

/-- The two lists as the bounded walks give them (R105). -/
def walks (s : State) : ListId → List Link
  | .free => freeWalk s
  | .active => activeWalk s

theorem PoolWf.threaded {s : State} (h : PoolWf s) : Threaded s (walks s) := by
  obtain ⟨hF, hA, hFA⟩ := List.nodup_append'.mp h.disjoint
  refine ⟨fun L => ?_, fun L => ?_, fun L K hLK c hc hK => ?_⟩
  · cases L
    · exact h.freeLinked
    · exact h.activeLinked
  · cases L
    · exact hF
    · exact hA
  · cases L <;> cases K
    · exact hLK rfl
    · exact hFA hc hK
    · exact hFA hK hc
    · exact hLK rfl

/-- R28 from threaded lists: they are what the walks give, and the pool is well-formed. -/
theorem Threaded.poolWf {s : State} {l : ListId → List Link} (h : Threaded s l)
    (size : s.pool.length = s.cfg.nCh)
    (union : ∀ c ∈ List.range s.cfg.nCh, BitVec.ofNat 8 c ∈ l .free ++ l .active)
    (pins : ((l .active).map (fun c => (s.record c).pin)).Nodup)
    (mapped : ∀ c ∈ l .active, (s.record c).pin ≠ allPins ∧
      s.cfg.pinOf (s.record c).pin = some ((s.record c).reg, (s.record c).mask))
    (reset : ∀ c ∈ l .free, (s.record c).resetFields = s.record c) :
    walks s = l ∧ PoolWf s := by
  obtain ⟨hF, hA, hwf⟩ := PoolWf.of_lists size (h.linked .free) (h.linked .active)
    (List.nodup_append'.mpr
      ⟨h.nodup .free, h.nodup .active, fun c hF hA => h.disjoint .free .active (by decide) c hF hA⟩)
    union pins mapped reset
  exact ⟨funext fun L => by cases L <;> assumption, hwf⟩

theorem Threaded.inRange {s : State} {l : ListId → List Link} (h : Threaded s l) {L : ListId} {c : Link}
    (hc : c ∈ l L) : c ≠ noLink ∧ c.toNat < s.pool.length :=
  linked_inRange (h.linked L) c hc

theorem Threaded.congr {s t : State} {l : ListId → List Link} (h : Threaded s l)
    (hlen : t.pool.length = s.pool.length) (hhead : ∀ L, t.head L = s.head L)
    (hrec : ∀ L, ∀ c ∈ l L,
      (t.record c).next = (s.record c).next ∧ (t.record c).prev = (s.record c).prev) :
    Threaded t l :=
  ⟨fun L => by rw [hhead, linked_congr hlen (hrec L)]; exact h.linked L, h.nodup, h.disjoint⟩

/-- One list replaced by another, while the records of the other list and its head stay as they are. -/
theorem Threaded.replace {s t : State} {l : ListId → List Link} (h : Threaded s l) {L : ListId}
    {m : List Link} (hlen : t.pool.length = s.pool.length) (hm : Machine.linked t noLink (t.head L) m = true)
    (hn : m.Nodup) (hdisj : ∀ K, K ≠ L → ∀ c ∈ m, c ∉ l K) (hhead : ∀ K, K ≠ L → t.head K = s.head K)
    (hrec : ∀ K, K ≠ L → ∀ c ∈ l K, t.record c = s.record c) : Threaded t (Function.update l L m) := by
  refine ⟨fun K => ?_, fun K => ?_, fun K M hKM c hK hM => ?_⟩
  · by_cases hK : K = L
    · subst hK
      rwa [Function.update_self]
    · rw [Function.update_of_ne hK, hhead K hK,
        linked_congr hlen fun c hc => by rw [hrec K hK c hc]; exact ⟨rfl, rfl⟩]
      exact h.linked K
  · by_cases hK : K = L
    · subst hK
      rwa [Function.update_self]
    · rw [Function.update_of_ne hK]
      exact h.nodup K
  · by_cases hKL : K = L
    · subst hKL
      rw [Function.update_self] at hK
      rw [Function.update_of_ne (Ne.symm hKM)] at hM
      exact hdisj M (Ne.symm hKM) c hK hM
    · rw [Function.update_of_ne hKL] at hK
      by_cases hML : M = L
      · subst hML
        rw [Function.update_self] at hM
        exact hdisj K hKL c hM hK
      · rw [Function.update_of_ne hML] at hM
        exact h.disjoint K M hKM c hK hM

/-- `remove(L, c)` of a record on `L` takes it off `L` and leaves the other list (R102). -/
theorem Threaded.remove {s : State} {l : ListId → List Link} (h : Threaded s l) {L : ListId} {c : Link}
    (hc : c ∈ l L) : Threaded (remove L c s) (Function.update l L ((l L).erase c)) :=
  h.replace (remove_length L c s) (linked_remove (h.linked L) (h.nodup L) hc) ((h.nodup L).erase c)
    (fun K hK d hd => h.disjoint L K (Ne.symm hK) d (List.mem_of_mem_erase hd))
    (fun _ hK => remove_head_other c s hK)
    (fun K hK d hd => record_remove_off (h.linked L) (h.nodup L) hc (h.disjoint K L hK d hd)
      (h.inRange hd).1 (h.inRange hd).2)

/-- `push(L, c)` of a record on neither list puts it at the head of `L` and leaves the other list (R101). -/
theorem Threaded.push {s : State} {l : ListId → List Link} (h : Threaded s l) {L : ListId} {c : Link}
    (hc : ∀ K, c ∉ l K) (hc0 : c ≠ noLink) (hlt : c.toNat < s.pool.length) :
    Threaded (push L c s) (Function.update l L (c :: l L)) := by
  have hhead := linked_head (h.linked L)
  refine h.replace (push_length L c s) (linked_push (h.linked L) (h.nodup L) (hc L) hc0 hlt)
    (List.nodup_cons.mpr ⟨hc L, h.nodup L⟩) (fun K hK d hd => ?_)
    (fun _ hK => push_head_other c s hK) (fun K hK d hd => ?_)
  · rcases List.mem_cons.mp hd with rfl | hd
    · exact hc K
    · exact h.disjoint L K (Ne.symm hK) d hd
  · exact record_push_off
      (fun e => hhead.elim (fun e0 => hc0 (e.symm.trans e0)) (fun hm => hc L (e ▸ hm)))
      (fun e => hc K (e ▸ hd))
      (hhead.imp_right fun hm e => h.disjoint K L hK d hd (e ▸ hm)) (h.inRange hd).2

/-! ### A record moved from one list to the other -/

/-- The lists after record `c` has gone from `L` to the head of `K`. -/
def moveRecord (l : ListId → List Link) (L K : ListId) (c : Link) : ListId → List Link :=
  Function.update (Function.update l L ((l L).erase c)) K (c :: l K)

/-- After the move `c` is on `K` only, and every other record is where it was. -/
theorem Threaded.mem_moveRecord {s : State} {l : ListId → List Link} (h : Threaded s l) {L K : ListId}
    {c : Link} (hKL : K ≠ L) (hc : c ∈ l L) (M : ListId) (d : Link) :
    d ∈ moveRecord l L K c M ↔ (d = c ∧ M = K) ∨ (d ≠ c ∧ d ∈ l M) := by
  have stays : ∀ N, N ≠ L → d ∈ l N → d ≠ c := fun N hN hd e => h.disjoint N L hN d hd (e ▸ hc)
  unfold moveRecord
  by_cases hMK : M = K
  · subst hMK
    rw [Function.update_self, List.mem_cons]
    have := stays M hKL
    tauto
  · rw [Function.update_of_ne hMK]
    by_cases hML : M = L
    · subst hML
      rw [Function.update_self, (h.nodup M).mem_erase_iff]
      tauto
    · rw [Function.update_of_ne hML]
      have := stays M hML
      tauto

/-- A record on `L` taken off it, rewritten by `f` outside its links, and pushed on the other list: the
shape of both `Acquire` (R124) and `Release` (R125), `u` being the state before the push. -/
theorem Threaded.move {s u : State} {l : ListId → List Link} (h : Threaded s l) {L K : ListId} {c : Link}
    {f : Channel → Channel} (hKL : K ≠ L) (hc : c ∈ l L)
    (hf : ∀ r, (f r).next = r.next ∧ (f r).prev = r.prev)
    (hpool : u.pool = ((Machine.remove L c s).update c f).pool)
    (hhead : ∀ M, u.head M = (Machine.remove L c s).head M) :
    Threaded (Machine.push K c u) (moveRecord l L K c) := by
  have hrec := State.record_congr hpool
  have hlen : u.pool.length = s.pool.length := by rw [hpool, State.update_length, remove_length]
  have hu : Threaded u (Function.update l L ((l L).erase c)) := by
    refine (h.remove hc).congr (by rw [hlen, remove_length]) hhead fun _ d _ => ?_
    rw [hrec]
    exact ⟨State.record_update_keeps Channel.next (fun r => (hf r).1) _ c d,
      State.record_update_keeps Channel.prev (fun r => (hf r).2) _ c d⟩
  have off : ∀ M, c ∉ Function.update l L ((l L).erase c) M := fun M => by
    by_cases hM : M = L
    · subst hM
      rw [Function.update_self]
      exact (h.nodup M).not_mem_erase
    · rw [Function.update_of_ne hM]
      exact h.disjoint L M (Ne.symm hM) c hc
  have pushed := hu.push (L := K) off (h.inRange hc).1 (hlen ▸ (h.inRange hc).2)
  rwa [Function.update_of_ne hKL] at pushed

/-- The records after such a move: `c` is rewritten, every other record keeps its content. -/
theorem content_record_move {s u : State} {L K : ListId} {c : Link} {f : Channel → Channel}
    (hf : ∀ r q : Channel, r.content = q.content → (f r).content = (f q).content)
    (hpool : u.pool = ((remove L c s).update c f).pool) (d : Link) (hd : d.toNat < s.pool.length) :
    ((push K c u).record d).content =
      if d = c then (f (s.record c)).content else (s.record d).content := by
  rw [content_record_push, State.record_congr hpool,
    State.record_update _ c d f (by rwa [remove_length])]
  by_cases hdc : d = c
  · subst hdc
    rw [if_pos rfl, if_pos rfl]
    exact hf _ _ (content_record_remove L d d s)
  · rw [if_neg hdc, if_neg hdc, content_record_remove]

end Sys2Proof.Machine
end

section
/-! SUPPORT. R28 under each way the pool changes: PoolInit, a rewrite of active records' working fields,
`Acquire` and `Release`. -/

namespace Sys2Proof.Machine

/-! ### PoolInit -/

theorem nCh_bounds_of_legal {P : Params} (h : P.legal = true) : 1 ≤ P.nCh ∧ P.nCh ≤ 255 := by
  simp only [Params.legal, Bool.and_eq_true, decide_eq_true_eq] at h
  omega

/-- The fresh pool from record `k` on is linked in index order (R104). -/
theorem linked_freshPool {s : State} {n : Nat} (hp : s.pool = freshPool n) (hn : n ≤ 255) (m k : Nat)
    (hk : k + m = n) :
    linked s (if k = 0 then noLink else BitVec.ofNat 8 (k - 1))
      (if k = n then noLink else BitVec.ofNat 8 k) ((List.range' k m).map (BitVec.ofNat 8)) = true := by
  induction m generalizing k with
  | zero => exact linked_nil.mpr (if_pos hk)
  | succ m ih =>
    have hkn : k < n := by omega
    have hkn' : k ≠ n := Nat.ne_of_lt hkn
    have hto : (BitVec.ofNat 8 k).toNat = k := by
      rw [BitVec.toNat_ofNat]; omega
    have hrec : s.record (BitVec.ofNat 8 k) = initialChannel n k := by
      simp only [State.record, hp, hto, freshPool]
      simp [hkn]
    have hne : BitVec.ofNat 8 k ≠ noLink := fun e => by
      have h255 : k = 255 := hto.symm.trans (congrArg BitVec.toNat e)
      omega
    have ih := ih (k + 1) (by omega)
    rw [if_neg (Nat.succ_ne_zero k), Nat.add_sub_cancel] at ih
    refine linked_cons.mpr ⟨if_neg hkn', hne, ?_, ?_, ?_⟩
    · rw [hto, hp, freshPool_length]; exact hkn
    · rw [hrec]; rfl
    · rw [hrec]; exact ih

/-- A state with the pool and heads of PoolInit has every record on FREE in index order, and meets R28. -/
theorem poolWf_of_fresh {s : State} (hP : s.cfg.legal = true) (hp : s.pool = freshPool s.cfg.nCh)
    (hF : s.freeHead = 0) (hA : s.activeHead = noLink) :
    freeWalk s = (List.range s.cfg.nCh).map (BitVec.ofNat 8) ∧ activeWalk s = [] ∧ PoolWf s := by
  obtain ⟨h1, h255⟩ := nCh_bounds_of_legal hP
  have hlinked := linked_freshPool hp h255 s.cfg.nCh 0 (Nat.zero_add _)
  rw [if_pos rfl, if_neg (by omega), ← List.range_eq_range'] at hlinked
  refine PoolWf.of_lists (by rw [hp, freshPool_length]) (hF ▸ hlinked) (linked_nil.mpr hA) ?_ ?_
    List.nodup_nil (fun c hc => nomatch hc) ?_
  · rw [List.append_nil]
    refine List.nodup_range.map_on fun x hx y hy hxy => ?_
    have hxy := congrArg BitVec.toNat hxy
    simp only [BitVec.toNat_ofNat, List.mem_range] at hxy hx hy
    omega
  · exact fun c hc => List.mem_append_left _ (List.mem_map_of_mem hc)
  · intro c hc
    have hlt : c.toNat < s.cfg.nCh := by
      have := (linked_inRange hlinked c hc).2
      rwa [hp, freshPool_length] at this
    have hrec : s.record c = initialChannel s.cfg.nCh c.toNat := by
      simp [State.record, hp, freshPool, hlt]
    rw [hrec]
    rfl

/-! ### Rewriting active records -/

/-- From `s` to `t` the lists, the assignments and the free records are kept: only the working fields of
other records may differ. -/
structure KeepsShape (s t : State) : Prop where
  cfg : t.cfg = s.cfg
  size : t.pool.length = s.pool.length
  freeHead : t.freeHead = s.freeHead
  activeHead : t.activeHead = s.activeHead
  place : ∀ c, (t.record c).place = (s.record c).place
  free : ∀ c ∈ freeWalk s, t.record c = s.record c

/-- A change of nothing the pool is made of. -/
theorem KeepsShape.of_pool_eq {s t : State} (hcfg : t.cfg = s.cfg) (hpool : t.pool = s.pool)
    (hF : t.freeHead = s.freeHead) (hA : t.activeHead = s.activeHead) : KeepsShape s t :=
  ⟨hcfg, by rw [hpool], hF, hA, fun c => by rw [State.record_congr hpool],
    fun c _ => State.record_congr hpool c⟩

theorem KeepsShape.links {s t : State} (h : KeepsShape s t) (c : Link) :
    (t.record c).next = (s.record c).next ∧ (t.record c).prev = (s.record c).prev :=
  have ⟨_, _, _, hn, hp⟩ := Channel.place_eq_iff.mp (h.place c)
  ⟨hn, hp⟩

theorem KeepsShape.walks_eq {s t : State} (h : KeepsShape s t) :
    freeWalk t = freeWalk s ∧ activeWalk t = activeWalk s := by
  have hwalk := walkFrom_congr (fun c => (h.links c).1)
  simp only [freeWalk, activeWalk, h.cfg, h.freeHead, h.activeHead, hwalk, and_self]

theorem KeepsShape.trans {s t u : State} (h : KeepsShape s t) (h' : KeepsShape t u) : KeepsShape s u :=
  ⟨h'.cfg.trans h.cfg, h'.size.trans h.size, h'.freeHead.trans h.freeHead,
    h'.activeHead.trans h.activeHead, fun c => (h'.place c).trans (h.place c),
    fun c hc => (h'.free c (h.walks_eq.1 ▸ hc)).trans (h.free c hc)⟩

/-- An update of the working fields of a record that is not free. -/
theorem KeepsShape.update {s : State} {c : Link} {f : Channel → Channel} (hc : c ∉ freeWalk s)
    (hf : ∀ r, (f r).place = r.place) : KeepsShape s (s.update c f) :=
  ⟨rfl, State.update_length s c f, rfl, rfl, State.record_update_keeps Channel.place hf s c,
    fun _ hd => State.record_update_other s f fun e => hc (e ▸ hd)⟩

/-- Work that keeps the shape for each record that is not free keeps it over a list of such records. -/
theorem KeepsShape.foldl {g : State → Link → State}
    (hg : ∀ u c, c ∉ freeWalk u → KeepsShape u (g u c)) (S : List Link) (s : State)
    (hS : ∀ c ∈ S, c ∉ freeWalk s) : KeepsShape s (S.foldl g s) := by
  induction S generalizing s with
  | nil => exact .of_pool_eq rfl rfl rfl rfl
  | cons c S ih =>
    have hc := hg s c (hS c (List.mem_cons_self ..))
    refine hc.trans (ih (g s c) fun d hd => ?_)
    rw [hc.walks_eq.1]
    exact hS d (List.mem_cons_of_mem _ hd)

theorem KeepsShape.updateAll {s : State} {S : List Link} {f : Channel → Channel}
    (hS : ∀ c ∈ S, c ∉ freeWalk s) (hf : ∀ r, (f r).place = r.place) : KeepsShape s (s.updateAll S f) :=
  KeepsShape.foldl (fun _ _ hc => .update hc hf) S s hS

theorem KeepsShape.hardReset {s : State} {S : List Link} (hS : ∀ c ∈ S, c ∉ freeWalk s) :
    KeepsShape s (hardReset S s) :=
  (KeepsShape.updateAll (f := fun r => { r with current := r.target }) hS fun _ => rfl).trans
    (.of_pool_eq rfl rfl rfl rfl)

theorem PoolWf.active_not_free {s : State} (h : PoolWf s) {c : Link} (hc : c ∈ activeWalk s) :
    c ∉ freeWalk s :=
  h.threaded.disjoint .active .free (by decide) c hc

theorem PoolWf.of_keepsShape {s t : State} (h : PoolWf s) (k : KeepsShape s t) : PoolWf t := by
  have hthread : Threaded t (walks s) :=
    h.threaded.congr k.size (fun L => by cases L <;> [exact k.freeHead; exact k.activeHead])
      fun _ c _ => k.links c
  have assigned : ∀ c, (t.record c).pin = (s.record c).pin ∧ (t.record c).reg = (s.record c).reg ∧
      (t.record c).mask = (s.record c).mask := fun c =>
    have ⟨hpin, hreg, hmask, _, _⟩ := Channel.place_eq_iff.mp (k.place c)
    ⟨hpin, hreg, hmask⟩
  refine (hthread.poolWf (k.size.trans (h.size.trans (congrArg _ k.cfg.symm))) ?_ ?_ ?_ ?_).2
  · rw [k.cfg]
    exact h.union
  · simp only [fun c => (assigned c).1]
    exact h.pinsUnique
  · intro c hc
    obtain ⟨hpin, hreg, hmask⟩ := assigned c
    rw [k.cfg, hpin, hreg, hmask]
    exact h.activeMapped c hc
  · intro c hc
    rw [k.free c hc]
    exact h.freeReset c hc

/-- Every TICK keeps the shape of the pool (R170). -/
theorem KeepsShape.tickStep {s : State} (h : PoolWf s) : KeepsShape s (tickStep s) := by
  have hcount : KeepsShape s s.countTick := .of_pool_eq rfl rfl rfl rfl
  have hS : ∀ c ∈ activeWalk s.countTick, c ∉ freeWalk s.countTick := by
    rw [hcount.walks_eq.1, hcount.walks_eq.2]
    exact fun c => h.active_not_free
  rcases tickStep_cases s with ⟨_, ht⟩ | ⟨_, _, ht⟩ | ⟨_, _, ht⟩
  · rw [ht]
    exact .of_pool_eq rfl rfl rfl rfl
  · rw [ht]
    refine hcount.trans (KeepsShape.foldl (fun u c hc => ?_) _ _ hS)
    exact (KeepsShape.update (f := Channel.fade) hc fun _ => rfl).trans (.of_pool_eq rfl rfl rfl rfl)
  · rw [ht]
    refine hcount.trans (KeepsShape.foldl (fun u c _ => ?_) _ _ hS)
    rw [thresholdChannel_frame]
    exact .of_pool_eq rfl rfl rfl rfl

/-! ### Acquire and Release -/

/-- A record moved from one list to the other keeps R28 when it meets R28's conditions on its new list:
a pin of its own with that pin's register and mask on ACTIVE, the reset values on FREE. `u` is the state
before the push. -/
theorem PoolWf.move {s u : State} {L K : ListId} {c : Link} {f : Channel → Channel} (h : PoolWf s)
    (hKL : K ≠ L) (hc : c ∈ walks s L)
    (hlinks : ∀ r, (f r).next = r.next ∧ (f r).prev = r.prev)
    (hcontent : ∀ r q : Channel, r.content = q.content → (f r).content = (f q).content)
    (hpool : u.pool = ((remove L c s).update c f).pool)
    (hhead : ∀ M, u.head M = (remove L c s).head M) (hcfg : u.cfg = s.cfg)
    (hactive : K = .active → (∀ d ∈ activeWalk s, (s.record d).pin ≠ (f (s.record c)).pin) ∧
      (f (s.record c)).pin ≠ allPins ∧
      s.cfg.pinOf (f (s.record c)).pin = some ((f (s.record c)).reg, (f (s.record c)).mask))
    (hfree : K = .free → (f (s.record c)).resetFields = f (s.record c)) :
    walks (push K c u) = moveRecord (walks s) L K c ∧ PoolWf (push K c u) := by
  have hmem := h.threaded.mem_moveRecord hKL hc
  have hrec := content_record_move (K := K) hcontent hpool
  have moved : ((push K c u).record c).content = (f (s.record c)).content := by
    rw [hrec c (h.threaded.inRange hc).2, if_pos rfl]
  have others : ∀ M, ∀ d ∈ walks s M, d ≠ c →
      ((push K c u).record d).content = (s.record d).content := fun M d hd hdc => by
    rw [hrec d (h.threaded.inRange hd).2, if_neg hdc]
  have hcfg' : (push K c u).cfg = s.cfg := by rw [push_cfg, hcfg]
  apply (h.threaded.move hKL hc hlinks hpool hhead).poolWf
  case size => rw [push_length, hpool, State.update_length, remove_length, hcfg', h.size]
  case union =>
    intro x hx
    rw [hcfg'] at hx
    have hM : ∃ M, BitVec.ofNat 8 x ∈ walks s M := (List.mem_append.mp (h.union x hx)).elim
      (fun hF => ⟨.free, hF⟩) (fun hA => ⟨.active, hA⟩)
    obtain ⟨N, hN⟩ : ∃ N, BitVec.ofNat 8 x ∈ moveRecord (walks s) L K c N := by
      obtain ⟨M, hM⟩ := hM
      by_cases hxc : BitVec.ofNat 8 x = c
      · exact ⟨K, (hmem _ _).mpr (.inl ⟨hxc, rfl⟩)⟩
      · exact ⟨M, (hmem _ _).mpr (.inr ⟨hxc, hM⟩)⟩
    cases N
    · exact List.mem_append_left _ hN
    · exact List.mem_append_right _ hN
  case pins =>
    refine ((h.threaded.move hKL hc hlinks hpool hhead).nodup .active).map_on fun x hx y hy hxy => ?_
    have pin_of : ∀ z ∈ moveRecord (walks s) L K c .active,
        (z = c ∧ ListId.active = K ∧ ((push K c u).record z).pin = (f (s.record c)).pin) ∨
        (z ∈ activeWalk s ∧ ((push K c u).record z).pin = (s.record z).pin) := fun z hz =>
      ((hmem _ _).mp hz).imp
        (fun ⟨hzc, hK⟩ => ⟨hzc, hK, hzc ▸ (Channel.content_eq_iff.mp moved).1⟩)
        (fun ⟨hzc, hz⟩ => ⟨hz, (Channel.content_eq_iff.mp (others .active z hz hzc)).1⟩)
    rcases pin_of x hx with ⟨hxc, hK, hpx⟩ | ⟨hxA, hpx⟩ <;>
      rcases pin_of y hy with ⟨hyc, hK', hpy⟩ | ⟨hyA, hpy⟩
    · exact hxc.trans hyc.symm
    · exact absurd (hpy.symm.trans (hxy.symm.trans hpx)) ((hactive hK.symm).1 y hyA)
    · exact absurd (hpx.symm.trans (hxy.trans hpy)) ((hactive hK'.symm).1 x hxA)
    · exact List.inj_on_of_nodup_map h.pinsUnique hxA hyA (hpx.symm.trans (hxy.trans hpy))
  case mapped =>
    intro d hd
    rw [hcfg']
    rcases (hmem _ _).mp hd with ⟨rfl, hK⟩ | ⟨hdc, hd⟩
    · obtain ⟨hpin, -, hreg, hmask, -⟩ := Channel.content_eq_iff.mp moved
      rw [hpin, hreg, hmask]
      exact (hactive hK.symm).2
    · obtain ⟨hpin, -, hreg, hmask, -⟩ := Channel.content_eq_iff.mp (others .active d hd hdc)
      rw [hpin, hreg, hmask]
      exact h.activeMapped d hd
  case reset =>
    intro d hd
    rcases (hmem _ _).mp hd with ⟨rfl, hK⟩ | ⟨hdc, hd⟩
    · exact (Channel.resetFields_eq_self_congr moved).mpr (hfree hK.symm)
    · exact (Channel.resetFields_eq_self_congr (others .free d hd hdc)).mpr (h.freeReset d hd)

/-- `Acquire` of a pin that is not active (R124): the head of FREE goes to the head of ACTIVE, and R28 is
kept. -/
theorem PoolWf.acquire {s t : State} {p v : Byte} {c : Link} (h : PoolWf s) (hp : p ≠ allPins)
    (hl : lookup p s = none) (hacq : acquire p v s = .ok (c, t)) :
    freeWalk t = (freeWalk s).erase c ∧ activeWalk t = c :: activeWalk s ∧ PoolWf t := by
  obtain ⟨a, m, hpin, hne, rfl, rfl⟩ := acquire_ok hacq
  have hc : s.freeHead ∈ walks s .free := (linked_head h.freeLinked).resolve_left hne
  obtain ⟨hwalks, hwf⟩ := h.move (K := .active) (L := .free) (by decide) hc
    (f := Channel.assign p s.defaultPol a m v)
    (u := pinDir p .output (gpioWrite a m (offLevel s.defaultPol)
      ((remove .free s.freeHead s).update s.freeHead (Channel.assign p s.defaultPol a m v))))
    (fun _ => ⟨rfl, rfl⟩)
    (fun r q hrq => by simp_all [Channel.content_eq_iff, Channel.assign])
    rfl (fun M => by cases M <;> rfl) (by simp)
    (fun _ => ⟨fun d hd => lookup_none.mp hl d hd, hp, hpin⟩) (fun hK => nomatch hK)
  exact ⟨congrFun hwalks .free, congrFun hwalks .active, hwf⟩

/-- `Release` of an active record (R125): it goes to the head of FREE, and R28 is kept. -/
theorem PoolWf.release {s : State} {c : Link} (h : PoolWf s) (hc : c ∈ activeWalk s) :
    freeWalk (release c s) = c :: freeWalk s ∧ activeWalk (release c s) = (activeWalk s).erase c ∧
      PoolWf (release c s) := by
  obtain ⟨hwalks, hwf⟩ := h.move (K := .free) (L := .active) (c := c) (f := Channel.resetFields)
    (u := resetFields c (gpioWrite (s.record c).reg (s.record c).mask (offLevel (s.record c).pol)
      (pinDir (s.record c).pin .input (remove .active c s)))) (by decide) hc
    (fun _ => ⟨rfl, rfl⟩)
    (fun r q _ => by simp [Channel.content_eq_iff, Channel.resetFields])
    rfl (fun M => by cases M <;> rfl) (by simp)
    (fun hK => nomatch hK) (fun _ => rfl)
  obtain ⟨hpin, hpol, hreg, hmask, -⟩ := Channel.content_eq_iff.mp (content_record_remove .active c c s)
  have hrel : Machine.release c s = push .free c (resetFields c
      (gpioWrite (s.record c).reg (s.record c).mask (offLevel (s.record c).pol)
        (pinDir (s.record c).pin .input (remove .active c s)))) := by
    simp only [Machine.release, State.record_pinDir, hpin, hpol, hreg, hmask]
  rw [hrel]
  exact ⟨congrFun hwalks .free, congrFun hwalks .active, hwf⟩

end Sys2Proof.Machine
end

section
/-! SUPPORT. What one step can do, said once: a command (spec/41_registry.md R120 to R137), and one event
taken from the ports (spec/20_memory.md R53). -/

namespace Sys2Proof.Machine

/-! ### Commands -/

theorem resultCode_toByte_le (e : ResultCode) : e.toByte.toNat ≤ 6 := by
  cases e <;> decide

theorem okCode_toByte_le (adjusted : Bool) : (okCode adjusted).toByte.toNat ≤ 1 := by
  cases adjusted <;> decide

/-- What a command does to a state (R120 to R137), with what its guards leave known: its record list is
active, its rewrite touches working fields only, a taken record is the one `Acquire` answers. -/
inductive CommandEffect (s : State) : Instr → State → Prop where
  /-- NOP: nothing (R130). -/
  | nop : CommandEffect s .nop s
  /-- BEGIN (R131). -/
  | begin (q : Byte) : CommandEffect s (.begin q) (beginBlock q s)
  /-- A no-op code, and nothing else (R121). -/
  | abort {i : Instr} {e : ResultCode} (code : 2 ≤ e.toByte.toNat)
      (notQuery : e = .unknownPin → i.mnemonic ≠ "QUERY") : CommandEffect s i (finish e s)
  /-- QUERY of a pin that is not active clears `resp` (R137). -/
  | queryUnknown {p : PinArg} (armed : s.armed = true) :
      CommandEffect s (.query p) (finish .unknownPin { s with resp := 0 })
  /-- QUERY of an active pin (R137). -/
  | queryFound {p : PinArg} {c : Link} (armed : s.armed = true) :
      CommandEffect s (.query p) (finish .ok { s with resp := responseWord c (s.record c) })
  /-- Active records rewritten, with the hard reset where `imm` asks for it (R126, R132 to R135). -/
  | rewrite {i : Instr} {S : List Link} {f : Channel → Channel} {imm adjusted : Bool}
      (armed : s.armed = true) (active : ∀ c ∈ S, c ∈ activeWalk s)
      (place : ∀ r, (f r).place = r.place) :
      CommandEffect s i (finish (okCode adjusted)
        (if imm then hardReset S (s.updateAll S f) else s.updateAll S f))
  /-- A record acquired for a pin that is not active (R124, R132). -/
  | acquire {i : Instr} {p v : Byte} {c : Link} {u : State} {imm adjusted : Bool}
      (armed : s.armed = true) (pin : p ≠ allPins) (inactive : lookup p s = none)
      (taken : acquire p v s = .ok (c, u)) :
      CommandEffect s i (finish (okCode adjusted) (if imm then hardReset [c] u else u))
  /-- An active record released (R125, R136). -/
  | release {i : Instr} {c : Link} (armed : s.armed = true) (active : c ∈ activeWalk s) :
      CommandEffect s i (finish .ok (release c s))

/-- The NOT_ARMED gate (R120): it is enough to know the body where BEGIN has executed. -/
theorem whenArmed_effect {s : State} {i : Instr} {k : State → State}
    (h : s.armed = true → CommandEffect s i (k s)) : CommandEffect s i (whenArmed s k) := by
  cases ha : s.armed with
  | true => rw [whenArmed_armed ha]; exact h ha
  | false => rw [whenArmed_idle ha]; exact .abort (by decide) (fun e => nomatch e)

theorem setDuty_effect {s : State} {i : Instr} (armed : s.armed = true) (hi : i.mnemonic ≠ "QUERY")
    (p v : Byte) (imm adjusted : Bool) : CommandEffect s i (setDuty p v imm (okCode adjusted) s) := by
  rcases setDuty_cases p v imm (okCode adjusted) s with
    ⟨_, h⟩ | ⟨_, c, hc, h⟩ | ⟨_, _, e, he, h⟩ | ⟨hp, hl, c, u, hu, h⟩
  · have hd := CommandEffect.rewrite (i := i) (S := activeWalk s) (f := fun r => { r with target := v })
      (imm := decide (imm = true ∧ activeWalk s ≠ [])) (adjusted := adjusted) armed (fun _ hc => hc)
      (fun _ => rfl)
    simpa only [h, decide_eq_true_eq] using hd
  · rw [h]
    exact .rewrite (S := [c]) (f := fun r => { r with target := v }) armed
      (fun d hd => List.mem_singleton.mp hd ▸ (lookup_some hc).1) (fun _ => rfl)
  · rw [h]
    refine .abort ?_ (fun _ => hi)
    rcases acquire_error.mp he with ⟨_, rfl⟩ | ⟨_, _, rfl⟩ <;> decide
  · rw [h]
    exact .acquire armed hp hl hu

theorem updateTargets_effect {s : State} {i : Instr} (armed : s.armed = true)
    (hi : i.mnemonic ≠ "QUERY") (p : Byte) {f : Channel → Channel} (hf : ∀ r, (f r).place = r.place)
    (adjusted : Bool) : CommandEffect s i (updateTargets p f (okCode adjusted) s) := by
  have active : ∀ c ∈ targets p s, c ∈ activeWalk s := by
    intro c hc
    by_cases hp : p = allPins
    · simpa [targets, hp] using hc
    · rw [targets_pin hp, Option.mem_toList] at hc
      exact (lookup_some hc).1
  rcases updateTargets_cases p f (okCode adjusted) s with ⟨_, _, h⟩ | ⟨_, h⟩
  · rw [h]
    exact .abort (by decide) (fun _ => hi)
  · rw [h]
    exact .rewrite (imm := false) armed active hf

theorem endPin_effect {s : State} {p : PinArg} (armed : s.armed = true) :
    CommandEffect s (.endChannel p) (endPin p.field s) := by
  unfold endPin
  cases h : lookup p.field s with
  | none => exact .abort (by decide) (fun _ => by simp [Instr.mnemonic])
  | some c => exact .release armed (lookup_some h).1

theorem queryPin_effect {s : State} {p : PinArg} (armed : s.armed = true) :
    CommandEffect s (.query p) (queryPin p.field s) := by
  unfold queryPin
  cases lookup p.field s with
  | none => exact .queryUnknown armed
  | some c => exact .queryFound armed

/-- Every command has a next state (R210), which one of the effects describes. -/
theorem exec_next (i : Instr) (s : State) : ∃ t, exec i s = .next t ∧ CommandEffect s i t := by
  cases i with
  | nop => exact ⟨_, rfl, .nop⟩
  | begin q => exact ⟨_, rfl, .begin q⟩
  | set p v imm =>
    exact ⟨_, rfl, whenArmed_effect fun ha => setDuty_effect ha (by simp [Instr.mnemonic]) _ _ _ false⟩
  | setPercent p q imm =>
    exact ⟨_, rfl, whenArmed_effect fun ha => setDuty_effect ha (by simp [Instr.mnemonic]) _ _ _ _⟩
  | setFade p up down =>
    exact ⟨_, rfl, whenArmed_effect fun ha =>
      updateTargets_effect (i := .setFade p up down) ha (by simp [Instr.mnemonic]) _ (fun _ => by rfl) _⟩
  | setPolarity p q =>
    exact ⟨_, rfl, whenArmed_effect fun ha =>
      updateTargets_effect (i := .setPolarity p q) ha (by simp [Instr.mnemonic]) _ (fun _ => by rfl) _⟩
  | endChannel p => exact ⟨_, rfl, whenArmed_effect endPin_effect⟩
  | query p => exact ⟨_, rfl, whenArmed_effect queryPin_effect⟩

theorem exec_effect {i : Instr} {s t : State} (h : exec i s = .next t) : CommandEffect s i t := by
  obtain ⟨u, hu, heff⟩ := exec_next i s
  rw [hu, Host.Outcome.next.injEq] at h
  exact h ▸ heff

/-! ### Steps -/

/-- The state with other events waiting and the count of settled arrivals at `n`: what taking an event
leaves for the event's own step (log entries 1, 18). -/
def State.withArrivals (s : State) (es : List Input) (n : Nat) : State :=
  { s with inputs := es, arbitrations := n }

/-- What a step does (R53): nothing with no event waiting, else a command, an illegal word, a TICK or an
RST, on the state without the event taken. -/
inductive StepEffect (s : State) : State → Prop where
  | idle (inputs : s.inputs = []) : StepEffect s s
  | command {es : List Input} {n : Nat} {i : Instr} {t : State}
      (effect : CommandEffect (s.withArrivals es n) i t) : StepEffect s t
  | illegal {es : List Input} {n : Nat} : StepEffect s (illegalCommand (s.withArrivals es n))
  | tick {es : List Input} {n : Nat} : StepEffect s (tickStep (s.withArrivals es n))
  | reset {es : List Input} {n : Nat} (inputs : s.inputs = .reset :: es) :
      StepEffect s (hardwareReset (s.withArrivals es n))

theorem commandStep_next (w : Command) (s : State) (es : List Input) (n : Nat) :
    ∃ t, commandStep w (s.withArrivals es n) = .next t ∧ StepEffect s t := by
  unfold commandStep
  cases decode w with
  | error _ => exact ⟨_, rfl, .illegal⟩
  | ok i =>
    obtain ⟨t, ht, heff⟩ := exec_next i (s.withArrivals es n)
    exact ⟨t, ht, .command heff⟩

/-- With legal parameters a step has a next state (R210), which one of the effects describes. -/
theorem step_next {s : State} (h : s.cfg.legal = true) : ∃ t, step s = .next t ∧ StepEffect s t := by
  unfold step
  rw [if_pos h]
  cases hin : s.inputs with
  | nil => exact ⟨s, rfl, .idle hin⟩
  | cons e rest =>
    cases e with
    | command w => exact commandStep_next w s rest s.arbitrations
    | tick => exact ⟨_, rfl, .tick (n := s.arbitrations)⟩
    | reset => exact ⟨_, rfl, .reset (n := s.arbitrations) hin⟩
    | together w =>
      simp only [takeInput]
      split
      · exact commandStep_next w s _ _
      · exact ⟨_, rfl, .tick⟩

/-- A step with a next state had legal parameters (I2), and one of the effects describes it. -/
theorem step_effect {s t : State} (h : step s = .next t) : s.cfg.legal = true ∧ StepEffect s t := by
  by_cases hP : s.cfg.legal = true
  · obtain ⟨u, hu, heff⟩ := step_next hP
    rw [hu, Host.Outcome.next.injEq] at h
    exact ⟨hP, h ▸ heff⟩
  · simp [step, hP] at h

/-- An invariant is kept by every step when it does not read what waits at the ports and every command,
illegal word, TICK and RST keeps it. -/
theorem StepEffect.keeps {I : State → Prop} {s t : State} (h : StepEffect s t)
    (legal : s.cfg.legal = true) (init : I s)
    (arrivals : ∀ es n, I s → I (s.withArrivals es n))
    (command : ∀ {u t : State} {i : Instr}, u.cfg.legal = true → I u → CommandEffect u i t → I t)
    (illegal : ∀ u : State, I u → I (illegalCommand u))
    (tick : ∀ u : State, I u → I (tickStep u))
    (reset : ∀ u : State, u.cfg.legal = true → I (hardwareReset u)) : I t := by
  cases h with
  | idle => exact init
  | @command es n _ _ effect => exact command (u := s.withArrivals es n) legal (arrivals es n init) effect
  | illegal => exact illegal _ (arrivals _ _ init)
  | tick => exact tick _ (arrivals _ _ init)
  | @reset es n _ => exact reset (s.withArrivals es n) legal

end Sys2Proof.Machine
end

section
/-! SUPPORT. The environment as a replay of the emitted events (spec/10_state.md R41, 20_memory.md R55,
R56). -/

namespace Sys2Proof.Machine

/-- An event that fits the ports: address and mask of a GPIO_OUT event are OUT_ADDR_W and OUT_REG_W bits
wide (R7). -/
def Output.fitsPorts (P : Params) : Output → Prop
  | .gpioWrite a m _ => a < 2 ^ P.outAddrW ∧ m < 2 ^ P.outRegW
  | .pinDir _ _ => True
  | .timerReset => True

/-- From `s` to `t` the parameters are kept, events that fit the ports are appended to the trace, and OUT
and DIR are what exactly those events make of them. -/
def Emits (s t : State) : Prop :=
  t.cfg = s.cfg ∧ ∃ es : List Output, (∀ e ∈ es, e.fitsPorts s.cfg) ∧ t.trace = s.trace ++ es ∧
    t.out = replayOut s.out es ∧ t.dir = replayDir s.cfg s.dir es

/-- A change that touches none of it emits nothing. -/
theorem Emits.of_eq {s t : State} (hcfg : t.cfg = s.cfg) (htrace : t.trace = s.trace)
    (hout : t.out = s.out) (hdir : t.dir = s.dir) : Emits s t :=
  ⟨hcfg, [], by simp, by rw [htrace, List.append_nil], hout, hdir⟩

theorem Emits.trans {s t u : State} (h : Emits s t) (h' : Emits t u) : Emits s u := by
  obtain ⟨hcfg, es, hfit, htrace, hout, hdir⟩ := h
  obtain ⟨hcfg', es', hfit', htrace', hout', hdir'⟩ := h'
  rw [hcfg] at hfit' hdir'
  refine ⟨hcfg'.trans hcfg, es ++ es', fun e he => ?_, ?_, ?_, ?_⟩
  · exact (List.mem_append.mp he).elim (hfit e) (hfit' e)
  · rw [htrace', htrace, List.append_assoc]
  · rw [hout', hout, replayOut, replayOut, replayOut, List.foldl_append]
  · rw [hdir', hdir, replayDir, replayDir, replayDir, List.foldl_append]

theorem emits_gpioWrite (a m : Nat) (l : Level) (s : State) : Emits s (gpioWrite a m l s) := by
  refine ⟨rfl, [.gpioWrite (s.cfg.addrBits a) (s.cfg.maskBits m) l], fun e he => ?_, rfl, rfl, rfl⟩
  rw [List.mem_singleton.mp he]
  exact ⟨Params.addrBits_lt .., Params.maskBits_lt ..⟩

theorem emits_pinDir (p : Byte) (d : Direction) (s : State) : Emits s (pinDir p d s) := by
  refine ⟨rfl, [.pinDir p d], fun e he => ?_, rfl, rfl, rfl⟩
  rw [List.mem_singleton.mp he]
  trivial

theorem emits_timerReset (s : State) : Emits s (timerReset s) := by
  refine ⟨rfl, [.timerReset], fun e he => ?_, rfl, rfl, rfl⟩
  rw [List.mem_singleton.mp he]
  trivial

theorem emits_push (L : ListId) (c : Link) (s : State) : Emits s (push L c s) :=
  .of_eq (by simp) (by simp) (by simp) (by simp)

theorem emits_remove (L : ListId) (c : Link) (s : State) : Emits s (remove L c s) :=
  .of_eq (by simp) (by simp) (by simp) (by simp)

theorem emits_update (s : State) (c : Link) (f : Channel → Channel) : Emits s (s.update c f) :=
  .of_eq rfl rfl rfl rfl

theorem emits_foldl {g : State → Link → State} (hg : ∀ s c, Emits s (g s c)) (S : List Link) (s : State) :
    Emits s (S.foldl g s) := by
  induction S generalizing s with
  | nil => exact .of_eq rfl rfl rfl rfl
  | cons c S ih => exact (hg s c).trans (ih (g s c))

theorem emits_hardReset (S : List Link) (s : State) : Emits s (hardReset S s) :=
  (Emits.of_eq (by simp) (by simp) (by simp) (by simp)).trans (emits_timerReset _)

theorem emits_acquire {p v : Byte} {s t : State} {c : Link} (h : acquire p v s = .ok (c, t)) :
    Emits s t := by
  obtain ⟨a, m, -, -, -, rfl⟩ := acquire_ok h
  exact (((emits_remove ..).trans (emits_update ..)).trans (emits_gpioWrite ..)).trans
    ((emits_pinDir ..).trans (emits_push ..))

theorem emits_release (c : Link) (s : State) : Emits s (release c s) := by
  exact (((emits_remove ..).trans (emits_pinDir ..)).trans (emits_gpioWrite ..)).trans
    ((emits_update ..).trans (emits_push ..))

theorem emits_tickStep (s : State) : Emits s (tickStep s) := by
  have counted : Emits s s.countTick := .of_eq rfl rfl rfl rfl
  rcases tickStep_cases s with ⟨_, ht⟩ | ⟨_, _, ht⟩ | ⟨_, _, ht⟩
  · rw [ht]
    exact .of_eq rfl rfl rfl rfl
  · rw [ht]
    refine counted.trans (emits_foldl (fun u c => ?_) _ _)
    exact (emits_update u c Channel.fade).trans (emits_gpioWrite ..)
  · rw [ht]
    refine counted.trans (emits_foldl (fun u c => ?_) _ _)
    unfold thresholdChannel
    split
    · exact emits_gpioWrite ..
    · exact .of_eq rfl rfl rfl rfl

/-- A command changes OUT and DIR through its events only. -/
theorem CommandEffect.emits {s t : State} {i : Instr} (h : CommandEffect s i t) : Emits s t := by
  have finished : ∀ (e : ResultCode) (u : State), Emits u (finish e u) := fun _ _ =>
    .of_eq rfl rfl rfl rfl
  cases h with
  | nop => exact .of_eq rfl rfl rfl rfl
  | begin q => exact .of_eq rfl rfl rfl rfl
  | abort => exact finished ..
  | queryUnknown => exact .of_eq rfl rfl rfl rfl
  | queryFound => exact .of_eq rfl rfl rfl rfl
  | @rewrite _ S f imm =>
    have rewritten : Emits s (s.updateAll S f) := .of_eq (by simp) (by simp) (by simp) (by simp)
    cases imm with
    | false => exact rewritten.trans (finished ..)
    | true => exact (rewritten.trans (emits_hardReset ..)).trans (finished ..)
  | @acquire _ _ _ _ _ imm _ _ _ _ taken =>
    cases imm with
    | false => exact (emits_acquire taken).trans (finished ..)
    | true => exact ((emits_acquire taken).trans (emits_hardReset ..)).trans (finished ..)
  | release => exact (emits_release ..).trans (finished ..)

/-! ### The canonical forms under a replay -/

theorem replayOut_wf {mem : List (Nat × OutReg)} (es : List Output) (h : Memory.wf mem = true) :
    Memory.wf (replayOut mem es) = true := by
  induction es generalizing mem with
  | nil => exact h
  | cons e es ih =>
    cases e with
    | gpioWrite a m l => exact ih (writeOut_wf a m l h)
    | pinDir _ _ => exact ih h
    | timerReset => exact ih h

theorem replayOut_range {P : Params} {mem : List (Nat × OutReg)} (es : List Output)
    (hfit : ∀ e ∈ es, e.fitsPorts P)
    (h : ∀ e ∈ mem, e.1 < 2 ^ P.outAddrW ∧ e.2.written < 2 ^ P.outRegW) :
    ∀ e ∈ replayOut mem es, e.1 < 2 ^ P.outAddrW ∧ e.2.written < 2 ^ P.outRegW := by
  induction es generalizing mem with
  | nil => exact h
  | cons e es ih =>
    obtain ⟨he, hes⟩ := List.forall_mem_cons.mp hfit
    cases e with
    | gpioWrite a m l => exact ih hes (writeOut_range l h he.1 he.2)
    | pinDir _ _ => exact ih hes h
    | timerReset => exact ih hes h

theorem replayDir_wf {P : Params} {dirs : List (Nat × Direction)} (es : List Output)
    (hsorted : storeSorted dirs = true)
    (hrange : ∀ e ∈ dirs, e.1 < 256 ∧ P.validPin (BitVec.ofNat 8 e.1) = true) :
    storeSorted (replayDir P dirs es) = true ∧
      ∀ e ∈ replayDir P dirs es, e.1 < 256 ∧ P.validPin (BitVec.ofNat 8 e.1) = true := by
  induction es generalizing dirs with
  | nil => exact ⟨hsorted, hrange⟩
  | cons e es ih =>
    cases e with
    | gpioWrite _ _ _ => exact ih hsorted hrange
    | pinDir p d =>
      exact ih (pinDir_sorted (s := { State.resetWith P with dir := dirs }) p d hsorted)
        (pinDir_range (s := { State.resetWith P with dir := dirs }) p d hrange)
    | timerReset => exact ih hsorted hrange

/-- Whatever changes OUT and DIR through events only keeps their forms. -/
theorem FormsWf.of_emits {s t : State} (h : FormsWf s) (ht : Emits s t) (hcode : t.lastStatus.toNat ≤ 6)
    (hresp : t.resp.extractLsb' 40 6 = 0) : FormsWf t := by
  obtain ⟨hcfg, es, hfit, -, hout, hdir⟩ := ht
  obtain ⟨hsorted, hrange⟩ := replayDir_wf es h.dirWf h.dirRange
  refine ⟨hcode, hresp, ?_, ?_, ?_, ?_⟩
  · rw [hout]
    exact replayOut_wf es h.outWf
  · rw [hout, hcfg]
    exact replayOut_range es hfit h.outRange
  · rw [hdir]
    exact hsorted
  · rw [hdir, hcfg]
    exact hrange

end Sys2Proof.Machine
end

section
/-! The statements about the state (spec/10_state.md): its invariants over every step, its result words, and
its environment. -/

namespace Sys2Proof.Machine

/-! ### R28 over a step -/

theorem CommandEffect.poolWf {s t : State} {i : Instr} (legal : s.cfg.legal = true) (h : PoolWf s)
    (heff : CommandEffect s i t) : PoolWf t := by
  have finished : ∀ (e : ResultCode) (u : State), PoolWf u → PoolWf (finish e u) := fun _ _ hu =>
    hu.of_keepsShape (.of_pool_eq rfl rfl rfl rfl)
  cases heff with
  | nop => exact h
  | begin q => exact (poolWf_of_fresh (s := beginBlock q s) legal rfl rfl rfl).2.2
  | abort => exact finished _ _ h
  | queryUnknown => exact h.of_keepsShape (.of_pool_eq rfl rfl rfl rfl)
  | queryFound => exact h.of_keepsShape (.of_pool_eq rfl rfl rfl rfl)
  | @rewrite _ S f imm _ _ active place =>
    have hS : ∀ c ∈ S, c ∉ freeWalk s := fun c hc => h.active_not_free (active c hc)
    have rewritten : KeepsShape s (s.updateAll S f) := .updateAll hS place
    apply finished
    cases imm with
    | false => exact h.of_keepsShape rewritten
    | true => exact h.of_keepsShape (rewritten.trans (.hardReset (rewritten.walks_eq.1 ▸ hS)))
  | @acquire _ _ _ c u imm _ _ pin inactive taken =>
    obtain ⟨-, hactive, hu⟩ := h.acquire pin inactive taken
    apply finished
    cases imm with
    | false => exact hu
    | true =>
      refine hu.of_keepsShape (.hardReset fun d hd => ?_)
      rw [List.mem_singleton.mp hd]
      exact hu.active_not_free (hactive ▸ List.mem_cons_self ..)
  | release _ active => exact finished _ _ (h.release active).2.2

/-- Settles O57: each way a step changes the pool keeps R28. -/
theorem everyStepKeepsThePoolInvariants : Obligations.EveryStepKeepsThePoolInvariants := by
  intro s t hwf hstep
  obtain ⟨legal, heff⟩ := step_effect hstep
  refine heff.keeps legal hwf
    (arrivals := fun _ _ h => h.of_keepsShape (.of_pool_eq rfl rfl rfl rfl))
    (command := fun hP h heff => heff.poolWf hP h)
    (illegal := fun _ h => h.of_keepsShape (.of_pool_eq rfl rfl rfl rfl))
    (tick := fun _ h => h.of_keepsShape (.tickStep h))
    (reset := fun u hP => (poolWf_of_fresh (s := hardwareReset u) hP rfl rfl rfl).2.2)

/-! ### The result words as numbers -/

/-- An appended word as a number. -/
theorem toNat_append_add {v w : Nat} (x : BitVec v) (y : BitVec w) :
    (x ++ y).toNat = x.toNat * 2 ^ w + y.toNat := by
  rw [BitVec.toNat_append, ← Nat.shiftLeft_add_eq_or_of_lt y.isLt, Nat.shiftLeft_eq]

/-- A response word as a number: each field at its bit position (R36). -/
theorem responseWord_toNat (c : Link) (r : Channel) :
    (responseWord c r).toNat = 2 ^ 47 + r.pol.toBit.toNat * 2 ^ 46 + c.toNat * 2 ^ 32 +
      r.target.toNat * 2 ^ 24 + r.current.toNat * 2 ^ 16 + r.up.toNat * 2 ^ 8 + r.down.toNat := by
  simp only [responseWord, toNat_append_add, BitVec.reduceToNat]
  omega

/-- The reserved bits of a response word are 0 (R36). -/
theorem responseWord_reserved (c : Link) (r : Channel) :
    (responseWord c r).extractLsb' 40 6 = 0 := by
  apply BitVec.eq_of_toNat_eq
  have hc := c.isLt
  have ht := r.target.isLt
  have hcur := r.current.isLt
  have hup := r.up.isLt
  have hdown := r.down.isLt
  simp only [BitVec.extractLsb'_toNat, responseWord_toNat, Nat.shiftRight_eq_div_pow, BitVec.reduceToNat]
  omega

/-- STATUS as a number: each field at its bit position (R37). -/
theorem status_toNat (s : State) :
    s.status.toNat = s.activeCount % 2 ^ 8 * 2 ^ 24 + s.defaultPol.toBit.toNat * 2 ^ 17 +
      s.armed.toNat * 2 ^ 16 + s.tickCount.toNat * 2 ^ 8 + s.lastStatus.toNat := by
  simp only [State.status, toNat_append_add, BitVec.toNat_ofNat, BitVec.toNat_ofBool, BitVec.reduceToNat]
  omega

/-- The fields of STATUS (R37). -/
theorem status_fields (s : State) :
    s.status.extractLsb' 0 8 = s.lastStatus ∧ s.status.extractLsb' 8 8 = s.tickCount ∧
    s.status.extractLsb' 16 1 = BitVec.ofBool s.armed ∧
    s.status.extractLsb' 17 1 = s.defaultPol.toBit ∧ s.status.extractLsb' 18 6 = 0 ∧
    s.status.extractLsb' 24 8 = BitVec.ofNat 8 s.activeCount := by
  have hl := s.lastStatus.isLt
  have ht := s.tickCount.isLt
  have ha : s.armed.toNat < 2 := s.armed.toNat_lt
  have hp := s.defaultPol.toBit.isLt
  refine ⟨?_, ?_, ?_, ?_, ?_, ?_⟩ <;> apply BitVec.eq_of_toNat_eq <;>
    simp only [BitVec.extractLsb'_toNat, status_toNat, Nat.shiftRight_eq_div_pow, BitVec.toNat_ofBool,
      BitVec.toNat_ofNat, BitVec.reduceToNat] <;> omega

/-! ### The forms over a step -/

/-- `Release`, `Acquire` and `HardReset` write neither `armed` nor `resp`. -/
theorem release_results (c : Link) (s : State) :
    (release c s).armed = s.armed ∧ (release c s).resp = s.resp := by
  simp [release]

theorem acquire_results {p v : Byte} {s t : State} {c : Link} (h : acquire p v s = .ok (c, t)) :
    t.armed = s.armed ∧ t.resp = s.resp := by
  obtain ⟨a, m, -, -, -, rfl⟩ := acquire_ok h
  simp

theorem hardReset_results (S : List Link) (s : State) :
    (hardReset S s).armed = s.armed ∧ (hardReset S s).resp = s.resp := by
  rw [hardReset_eq]
  exact ⟨rfl, rfl⟩

/-- A command leaves `resp` as it was, clears it, or writes the response word of a record (R36, R137). -/
theorem CommandEffect.resp {s t : State} {i : Instr} (h : CommandEffect s i t) :
    t.resp = s.resp ∨ t.resp = 0 ∨ ∃ c r, t.resp = responseWord c r := by
  cases h with
  | nop => exact .inl rfl
  | begin q => exact .inr (.inl rfl)
  | abort => exact .inl rfl
  | queryUnknown => exact .inr (.inl rfl)
  | queryFound => exact .inr (.inr ⟨_, _, rfl⟩)
  | @rewrite _ _ _ imm =>
    refine .inl ?_
    cases imm
    · simp
    · simp [(hardReset_results _ _).2]
  | @acquire _ _ _ _ _ imm _ _ _ _ taken =>
    refine .inl ?_
    cases imm
    · simp [(acquire_results taken).2]
    · simp [(hardReset_results _ _).2, (acquire_results taken).2]
  | release => exact .inl (by simp [(release_results _ _).2])

/-- A command leaves `last_status` as it was or writes a code of R35. -/
theorem CommandEffect.code {s t : State} {i : Instr} (h : CommandEffect s i t) :
    t.lastStatus = s.lastStatus ∨ ∃ e : ResultCode, t.lastStatus = e.toByte := by
  cases h with
  | nop => exact .inl rfl
  | _ => exact .inr ⟨_, finish_lastStatus ..⟩

theorem CommandEffect.formsWf {s t : State} {i : Instr} (h : FormsWf s) (heff : CommandEffect s i t) :
    FormsWf t := by
  refine h.of_emits heff.emits ?_ ?_
  · rcases heff.code with hc | ⟨e, hc⟩
    · exact hc ▸ h.codes
    · exact hc ▸ resultCode_toByte_le e
  · rcases heff.resp with hr | hr | ⟨c, r, hr⟩
    · exact hr ▸ h.respReserved
    · rw [hr]; rfl
    · exact hr ▸ responseWord_reserved c r

/-- A TICK writes none of the registers the host set (R170). -/
theorem tickStep_registers (s : State) :
    (tickStep s).lastStatus = s.lastStatus ∧ (tickStep s).resp = s.resp ∧
      (tickStep s).armed = s.armed := by
  have wrap := foldl_keeps (fun u => (u.lastStatus, u.resp, u.armed)) wrapChannel
    (fun u c => by rw [wrapChannel_frame]) (activeWalk s.countTick) s.countTick
  have threshold := foldl_keeps (fun u => (u.lastStatus, u.resp, u.armed)) thresholdChannel
    (fun u c => by rw [thresholdChannel_frame]) (activeWalk s.countTick) s.countTick
  simp only [Prod.mk.injEq] at wrap threshold
  rcases tickStep_cases s with ⟨_, ht⟩ | ⟨_, _, ht⟩ | ⟨_, _, ht⟩
  · rw [ht]
    exact ⟨rfl, rfl, rfl⟩
  · rw [ht]
    exact wrap
  · rw [ht]
    exact threshold

theorem formsWf_hardwareReset (s : State) : FormsWf (hardwareReset s) :=
  ⟨by simp, by simp, rfl, by simp, rfl, by simp⟩

/-- Settles O58: OUT and DIR change through events that fit the ports, `last_status` through `finish`, and
`resp` by response words. -/
theorem everyStepKeepsTheForms : Obligations.EveryStepKeepsTheForms := by
  intro s t hforms hstep
  obtain ⟨legal, heff⟩ := step_effect hstep
  refine heff.keeps legal hforms
    (arrivals := fun _ _ h => h.of_emits (.of_eq rfl rfl rfl rfl) h.codes h.respReserved)
    (command := fun _ h heff => heff.formsWf h)
    (illegal := fun _ h => h.of_emits (.of_eq rfl rfl rfl rfl) (resultCode_toByte_le _) h.respReserved)
    (tick := fun u h => ?_)
    (reset := fun u _ => formsWf_hardwareReset u)
  obtain ⟨hcode, hresp, -⟩ := tickStep_registers u
  exact h.of_emits (emits_tickStep u) (hcode ▸ h.codes) (hresp ▸ h.respReserved)

/-! ### Result codes -/

/-- Settles O14: only `abort` and QUERY of an inactive pin end with a code of 2 or more. -/
theorem noOpCodesLeaveTheStateUnchanged : Obligations.NoOpCodesLeaveTheStateUnchanged := by
  intro i s t hnop hexec hcode
  have noError : ∀ (adjusted : Bool) (u : State),
      ¬ 2 ≤ (finish (okCode adjusted) u).lastStatus.toNat := fun adjusted u => by
    have := okCode_toByte_le adjusted
    rw [finish_lastStatus]
    omega
  cases exec_effect hexec with
  | nop => exact absurd rfl hnop
  | begin q => exact absurd hcode (noError _ _)
  | @abort _ e _ notQuery =>
    have hkeep : ¬ (e.toByte = 2 ∧ i.mnemonic = "QUERY") := fun ⟨he, hi⟩ =>
      notQuery (by revert he; cases e <;> decide) hi
    rw [finish_lastStatus, if_neg hkeep]
    rfl
  | queryUnknown => rfl
  | queryFound => exact absurd hcode (noError false _)
  | rewrite => exact absurd hcode (noError _ _)
  | acquire => exact absurd hcode (noError _ _)
  | release => exact absurd hcode (noError false _)

/-- Settles O15: the gate of R120 stands before every body. -/
theorem notArmedCommandsOnlyReportNotArmed : Obligations.NotArmedCommandsOnlyReportNotArmed := by
  intro i s harmed hnop hbegin
  have gate : ∀ k : State → State,
      (.next (whenArmed s k) : Host.Outcome State Fault Refusal) = .next { s with lastStatus := 5 } :=
    fun k => by rw [whenArmed_idle harmed]; rfl
  cases i with
  | nop => exact absurd rfl hnop
  | begin q => exact absurd rfl (hbegin q)
  | set | setPercent | setFade | setPolarity | endChannel | query => exact gate _

/-! ### The duty of a cycle -/

theorem cycleLevel_eq_onLevel_iff (pol : Polarity) (v : Byte) (k : Nat) :
    cycleLevel pol v k = onLevel pol ↔ v = 255 ∨ k < v.toNat := by
  have hne : offLevel pol ≠ onLevel pol := by cases pol <;> decide
  unfold cycleLevel
  split
  case isTrue hon => exact ⟨fun _ => hon, fun _ => rfl⟩
  case isFalse hoff => exact ⟨fun e => absurd e hne, fun hon => absurd hon hoff⟩

/-- Of the first `n` numbers, `min m n` are below `m`. -/
theorem countP_lt_range (m n : Nat) : (List.range n).countP (fun k => decide (k < m)) = min m n := by
  induction n with
  | zero => simp
  | succ n ih =>
    rw [List.range_succ, List.countP_append, ih, List.countP_singleton]
    by_cases h : n < m
    · simp only [h, decide_true, if_true]
      omega
    · simp only [h, decide_false, Bool.false_eq_true, if_false]
      omega

/-- Settles O48: on at every tick of the cycle for 255, else exactly at the ticks below `v`. -/
theorem dutyIsTheNumberOfTicksOn : Obligations.DutyIsTheNumberOfTicksOn := by
  intro pol v
  simp only [cycleLevel_eq_onLevel_iff, dutyTicks]
  by_cases hv : v = 255
  · simp [hv]
  · simp only [hv, false_or, if_false, countP_lt_range]
    exact Nat.min_eq_left v.isLt.le

/-! ### OUT and DIR -/

/-- Settles O52: every step but RST is one that emits. -/
theorem gpioChangesOnlyThroughEvents : Obligations.GpioChangesOnlyThroughEvents := by
  intro s e rest legal hin hreset
  obtain ⟨t, hstep, heff⟩ := step_next legal
  have taken : ∀ es n, Emits s (s.withArrivals es n) := fun _ _ => .of_eq rfl rfl rfl rfl
  have hemits : Emits s t := by
    cases heff with
    | idle => exact .of_eq rfl rfl rfl rfl
    | command effect => exact (taken _ _).trans effect.emits
    | illegal => exact .of_eq rfl rfl rfl rfl
    | tick => exact (taken _ _).trans (emits_tickStep _)
    | reset hin' => exact absurd (List.cons.inj (hin.symm.trans hin')).1 hreset
  obtain ⟨-, es, -, htrace, hout, hdir⟩ := hemits
  exact ⟨t, es, hstep, htrace, hout, hdir⟩

/-! ### Before the first BEGIN -/

/-- A command after which the block is still not armed has left all but `last_status` (R33, R224). -/
theorem CommandEffect.idleBeforeBegin {s t : State} {i : Instr} (h : IdleBeforeBegin s)
    (heff : CommandEffect s i t) : IdleBeforeBegin t := by
  have of_armed : t.armed = true → IdleBeforeBegin t := fun ha hf => absurd (ha.symm.trans hf) (by decide)
  cases heff with
  | nop => exact h
  | begin q => exact of_armed rfl
  | abort => exact h
  | queryUnknown armed => exact of_armed armed
  | queryFound armed => exact of_armed armed
  | @rewrite _ _ _ imm _ armed =>
    refine of_armed ?_
    cases imm
    · simpa using armed
    · simpa [(hardReset_results _ _).1] using armed
  | @acquire _ _ _ _ _ imm _ armed _ _ taken =>
    refine of_armed ?_
    cases imm
    · simpa [(acquire_results taken).1] using armed
    · simpa [(hardReset_results _ _).1, (acquire_results taken).1] using armed
  | release armed => exact of_armed (by simpa [(release_results _ _).1] using armed)

theorem idleBeforeBegin_tickStep {s : State} (h : IdleBeforeBegin s) : IdleBeforeBegin (tickStep s) := by
  intro hf
  have hs : s.armed = false := (tickStep_registers s).2.2.symm.trans hf
  have hkeep : tickStep s = s := by rw [tickStep, hs]; rfl
  rw [hkeep]
  exact h hs

/-- Settles O59: while not armed only `last_status` is written, and RST writes the reset values. -/
theorem everyStepKeepsIdleBeforeBegin : Obligations.EveryStepKeepsIdleBeforeBegin := by
  intro s t hidle hstep
  obtain ⟨legal, heff⟩ := step_effect hstep
  exact heff.keeps legal hidle
    (arrivals := fun _ _ h => h)
    (command := fun _ h heff => heff.idleBeforeBegin h)
    (illegal := fun _ h => h)
    (tick := fun _ h => idleBeforeBegin_tickStep h)
    (reset := fun _ _ _ => ⟨rfl, rfl, rfl, rfl, rfl, rfl⟩)

/-! ### After reset -/

theorem activeWalk_of_activeHead_none {s : State} (h : s.activeHead = noLink) : activeWalk s = [] := by
  unfold activeWalk
  rw [h]
  cases s.cfg.nCh <;> simp [walkFrom]

/-- Settles O53. The count is not truncated because R8 bounds the pool by 255 records. -/
theorem statusWordLayout : Obligations.StatusWordLayout := by
  refine ⟨fun s legal => ?_, fun P _ => ?_⟩
  · obtain ⟨hlast, htick, harmed, hpol, hzero, hcount⟩ := status_fields s
    refine ⟨hlast, htick, ?_, ?_, hzero, ?_⟩
    · rw [harmed]
      cases s.armed <;> decide
    · rw [hpol]
      cases s.defaultPol <;> decide
    · have h255 := (nCh_bounds_of_legal legal).2
      have hle := activeWalk_length s
      rw [hcount, BitVec.toNat_ofNat]
      exact Nat.mod_eq_of_lt (by unfold State.activeCount; omega)
  · have hnone : (State.resetWith P).activeCount = 0 :=
      congrArg List.length (activeWalk_of_activeHead_none rfl)
    apply BitVec.eq_of_toNat_eq
    rw [status_toNat, hnone]
    simp [State.resetWith, Polarity.toBit]

theorem inv_resetWith {P : Params} (legal : P.legal = true) : Inv (State.resetWith P) :=
  ⟨legal, (poolWf_of_fresh (s := State.resetWith P) legal rfl rfl rfl).2.2,
    ⟨by simp [State.resetWith], by simp [State.resetWith], rfl, by simp [State.resetWith], rfl,
      by simp [State.resetWith]⟩⟩

/-- Settles O56: PoolInit meets R28, and no channel is active. -/
theorem invariantHoldsAfterReset : Obligations.InvariantHoldsAfterReset := by
  refine ⟨fun P legal => ⟨inv_resetWith legal, fun _ => ⟨rfl, rfl, rfl, rfl, rfl, rfl⟩, ?_⟩,
    inv_resetWith (by decide)⟩
  intro c hc
  rw [activeWalk_of_activeHead_none rfl] at hc
  cases hc

end Sys2Proof.Machine
end

section
/-! The statements about the step and the host's view of it (spec/20_memory.md): TICK and STATUS (R54), the
command step (R52, R120), and the GPIO writes (R55, R56). -/

namespace Sys2Proof

/-! ### What the decoder answers -/

theorem checkZero_eq_ok {zero : Bool} {i j : Instr} :
    checkZero zero i = .ok j ↔ zero = true ∧ i = j := by
  cases zero <;> simp [checkZero]

theorem pinArgOf_wellFormed (b : Byte) : (pinArgOf b).wellFormed = true := by
  unfold pinArgOf
  split
  case isTrue => rfl
  case isFalse h => exact decide_eq_true h

/-- Only a pin operand can be ill-formed, and `pinArgOf` never answers the id 0xFF (R72). -/
theorem decode_wellFormed {w : Command} {i : Instr} (h : decode w = .ok i) : i.wellFormed = true := by
  have checked : ∀ {zero : Bool} {j : Instr}, j.wellFormed = true → checkZero zero j = .ok i →
      i.wellFormed = true := fun hj hz => (checkZero_eq_ok.mp hz).2 ▸ hj
  have pinForm := pinArgOf_wellFormed (pinField w)
  unfold decode at h
  split_ifs at h
  · exact checked (j := .nop) rfl h
  · exact checked (j := .begin _) rfl h
  · exact checked (j := .set _ _ _) pinForm h
  · exact checked (j := .setPercent _ _ _) pinForm h
  · exact checked (j := .setFade _ _ _) pinForm h
  · exact checked (j := .setPolarity _ _) pinForm h
  · exact checked (j := .endChannel _) pinForm h
  · exact checked (j := .query _) pinForm h

/-! ### Addresses and masks that fit the port -/

theorem Params.addrBits_of_lt {P : Params} {a : Nat} (h : a < 2 ^ P.outAddrW) : P.addrBits a = a :=
  Nat.mod_eq_of_lt h

theorem Params.maskBits_of_lt {P : Params} {m : Nat} (h : m < 2 ^ P.outRegW) : P.maskBits m = m :=
  Nat.mod_eq_of_lt h

namespace Machine

/-! ### What a TICK keeps -/

/-- A TICK is made of counting, fade steps and pin writes (R170 to R173): what each of them keeps, it keeps. -/
theorem tickStep_keeps {α : Type} (q : State → α) (count : ∀ u : State, q u.countTick = q u)
    (fade : ∀ (u : State) (c : Link), q (u.update c Channel.fade) = q u)
    (driven : ∀ (u : State) (c : Link) (on : Bool), q (drive c on u) = q u) (s : State) :
    q (tickStep s) = q s := by
  have wrap : ∀ u c, q (wrapChannel u c) = q u := fun u c => (driven _ c _).trans (fade u c)
  have threshold : ∀ u c, q (thresholdChannel u c) = q u := fun u c => by
    unfold thresholdChannel
    split
    · exact driven u c false
    · rfl
  rcases tickStep_cases s with ⟨_, ht⟩ | ⟨_, _, ht⟩ | ⟨_, _, ht⟩
  · rw [ht]
  · rw [ht]
    exact (foldl_keeps q wrapChannel wrap _ _).trans (count s)
  · rw [ht]
    exact (foldl_keeps q thresholdChannel threshold _ _).trans (count s)

/-- The walk of ACTIVE reads the parameters, the head and the `next` links only. -/
theorem activeWalk_congr {s t : State} (hcfg : t.cfg = s.cfg) (hhead : t.activeHead = s.activeHead)
    (hnext : ∀ c, (t.record c).next = (s.record c).next) : activeWalk t = activeWalk s := by
  rw [activeWalk, activeWalk, hcfg, hhead, walkFrom_congr hnext]

/-- ACTIVE keeps its records and their order over a TICK, in every state: a fade step writes no link. -/
theorem activeWalk_tickStep (s : State) : activeWalk (tickStep s) = activeWalk s := by
  have count : ∀ u : State, activeWalk u.countTick = activeWalk u := fun _ =>
    activeWalk_congr rfl rfl fun _ => rfl
  have fade : ∀ (u : State) (c : Link), activeWalk (u.update c Channel.fade) = activeWalk u := fun u c =>
    activeWalk_congr rfl rfl (State.record_update_keeps Channel.next (f := Channel.fade) (fun _ => rfl) u c)
  have driven : ∀ (u : State) (c : Link) (on : Bool), activeWalk (drive c on u) = activeWalk u :=
    fun _ _ _ => activeWalk_congr rfl rfl fun _ => rfl
  exact tickStep_keeps activeWalk count fade driven s

theorem tickStep_defaultPol (s : State) : (tickStep s).defaultPol = s.defaultPol :=
  tickStep_keeps State.defaultPol (fun _ => rfl) (fun _ _ => rfl) (fun _ _ _ => rfl) s

/-- The upper half of STATUS holds neither the counter nor `last_status` (R37). -/
theorem status_upper (s : State) :
    s.status.extractLsb' 16 16 =
      BitVec.ofNat 8 s.activeCount ++ (0 : BitVec 6) ++ s.defaultPol.toBit ++ BitVec.ofBool s.armed := by
  have hl := s.lastStatus.isLt
  have ht := s.tickCount.isLt
  have ha : s.armed.toNat < 2 := s.armed.toNat_lt
  have hp := s.defaultPol.toBit.isLt
  apply BitVec.eq_of_toNat_eq
  simp only [BitVec.extractLsb'_toNat, status_toNat, Nat.shiftRight_eq_div_pow, toNat_append_add,
    BitVec.toNat_ofBool, BitVec.toNat_ofNat, BitVec.reduceToNat]
  omega

/-- Settles O54: a TICK keeps `last_status`, `resp`, and each field of the upper half; the active count
because it writes no link. -/
theorem tickChangesOnlyTheCounterOfStatus : Obligations.TickChangesOnlyTheCounterOfStatus := by
  intro s
  obtain ⟨hlast, hresp, harmed⟩ := tickStep_registers s
  have hcount : (tickStep s).activeCount = s.activeCount := congrArg List.length (activeWalk_tickStep s)
  refine ⟨?_, ?_, hresp⟩
  · rw [(status_fields _).1, (status_fields _).1, hlast]
  · rw [status_upper, status_upper, hcount, tickStep_defaultPol, harmed]

/-! ### The command step -/

theorem step_eq_takeInput {s : State} {e : Input} {rest : List Input} (legal : s.cfg.legal = true)
    (waiting : s.inputs = e :: rest) : step s = takeInput e { s with inputs := rest } := by
  rw [step, if_pos legal, waiting]

theorem commandStep_of_decode {w : Command} {i : Instr} (h : decode w = .ok i) (s : State) :
    commandStep w s = exec i s := by
  rw [commandStep, h]

/-- Settles O9: the event taken is a command word, and its decoding picks the arm of exec. -/
theorem stepRunsTheDecodedCommand : Obligations.StepRunsTheDecodedCommand := by
  intro s w rest i legal waiting hdec
  refine ⟨decode_wellFormed hdec, ?_⟩
  calc step s = commandStep w { s with inputs := rest } := step_eq_takeInput legal waiting
    _ = exec i { s with inputs := rest } := commandStep_of_decode hdec _

/-! ### GPIO writes -/

/-- Settles O50: an address and a mask inside the register space reach the port uncut. -/
theorem gpioWriteTouchesOnlyItsBits : Obligations.GpioWriteTouchesOnlyItsBits := by
  intro s a m lvl hwf ha hm
  have haddr := Params.addrBits_of_lt ha
  have hmask := Params.maskBits_of_lt hm
  refine ⟨fun b j => ?_, rfl, ?_⟩
  · rw [outBit_gpioWrite a m lvl b j hwf, haddr, hmask]
  · rw [gpioWrite_trace, haddr, hmask]

/-- Settles O51: directions are kept per pin number, so the write reaches no other pin. -/
theorem pinDirSetsOneDirection : Obligations.PinDirSetsOneDirection := by
  intro s p d hvalid
  refine ⟨fun x => ?_, rfl, pinDir_trace p d s⟩
  simp only [pinDirection_pinDir, hvalid, and_true]

end Machine

end Sys2Proof
end

section
/-! SUPPORT. Operands and the fields they stand in (spec/30_encoding.md R72), words that are the encoding of
a command (R70), and words under a row's mask (R74). -/

namespace Sys2Proof

/-! ### Operands in their fields -/

/-- An 8-bit operand is the low byte of B, whose high byte is zero. -/
theorem bField_eq_zeroExtend_iff {w : Command} {v : Byte} :
    bField w = v.zeroExtend 16 ↔ bHighField w = 0 ∧ bLowField w = v := by
  have hv := v.isLt
  rw [← BitVec.toNat_inj, ← BitVec.toNat_inj, ← BitVec.toNat_inj]
  simp only [bField, bHighField, bLowField, BitVec.extractLsb'_toNat, Nat.shiftRight_eq_div_pow,
    BitVec.truncate_eq_setWidth, BitVec.toNat_setWidth, BitVec.reduceToNat]
  omega

theorem bField_of_bHighField {w : Command} (high : bHighField w = 0) :
    bField w = (bLowField w).zeroExtend 16 := bField_eq_zeroExtend_iff.mpr ⟨high, rfl⟩

theorem pinArgOf_field {p : PinArg} (form : p.wellFormed = true) : pinArgOf p.field = p := by
  cases p with
  | all => rfl
  | pin id => exact if_neg (of_decide_eq_true form)

theorem field_pinArgOf (b : Byte) : (pinArgOf b).field = b := by
  unfold pinArgOf
  split
  case isTrue h => exact h.symm
  case isFalse => rfl

theorem eq_all_iff_field {p : PinArg} (form : p.wellFormed = true) : p = .all ↔ p.field = allPins := by
  cases p with
  | all => exact ⟨fun _ => rfl, fun _ => rfl⟩
  | pin id => exact ⟨fun e => (nomatch e), fun e => absurd e (of_decide_eq_true form)⟩

@[simp] theorem ofBool_beq_one (b : Bool) : (BitVec.ofBool b == 1#1) = b := by cases b <;> rfl

/-! ### The fields of a packed word -/

@[simp] theorem fields_packFields (op : BitVec 4) (imm : Bool) (pin : Byte) (a b : Duration) :
    opField (packFields op imm pin a b) = op ∧ rsvField (packFields op imm pin a b) = 0 ∧
      immField (packFields op imm pin a b) = BitVec.ofBool imm ∧
      pinField (packFields op imm pin a b) = pin ∧ aField (packFields op imm pin a b) = a ∧
      bField (packFields op imm pin a b) = b :=
  ⟨opField_packFields .., rsvField_packFields .., immField_packFields .., pinField_packFields ..,
    aField_packFields .., bField_packFields ..⟩

@[simp] theorem byteField_packFields (op : BitVec 4) (imm : Bool) (pin : Byte) (a : Duration) (v : Byte) :
    bHighField (packFields op imm pin a (v.zeroExtend 16)) = 0 ∧
      bLowField (packFields op imm pin a (v.zeroExtend 16)) = v :=
  bField_eq_zeroExtend_iff.mp (bField_packFields ..)

theorem packFields_of_fields {w : Command} {op : BitVec 4} {imm : Bool} {pin : Byte} {a b : Duration}
    (hop : opField w = op) (rsv : rsvField w = 0) (himm : (immField w == 1) = imm) (hpin : pinField w = pin)
    (ha : aField w = a) (hb : bField w = b) : packFields op imm pin a b = w := by
  subst hop himm hpin ha hb
  exact packFields_fields w rsv

/-! ### Words whose must-be-zero fields are zero, one lemma per row with operands (R74) -/

section
variable {w : Command} (rsv : rsvField w = 0)
include rsv

theorem encode_begin_of_fields (op : opField w = 1) (imm : immField w = 0) (pin : pinField w = 0)
    (a : aField w = 0) (high : bHighField w = 0) : encode (.begin (bLowField w)) = w :=
  packFields_of_fields op rsv (by rw [imm]; rfl) pin a (bField_of_bHighField high)

theorem encode_set_of_fields (op : opField w = 2) (a : aField w = 0) (high : bHighField w = 0) :
    encode (.set (pinArgOf (pinField w)) (bLowField w) (immField w == 1)) = w :=
  packFields_of_fields op rsv rfl (field_pinArgOf _).symm a (bField_of_bHighField high)

theorem encode_setPercent_of_fields (op : opField w = 3) (a : aField w = 0) (high : bHighField w = 0) :
    encode (.setPercent (pinArgOf (pinField w)) (bLowField w) (immField w == 1)) = w :=
  packFields_of_fields op rsv rfl (field_pinArgOf _).symm a (bField_of_bHighField high)

theorem encode_setFade_of_fields (op : opField w = 4) (imm : immField w = 0) :
    encode (.setFade (pinArgOf (pinField w)) (aField w) (bField w)) = w :=
  packFields_of_fields op rsv (by rw [imm]; rfl) (field_pinArgOf _).symm rfl rfl

theorem encode_setPolarity_of_fields (op : opField w = 5) (imm : immField w = 0) (a : aField w = 0)
    (high : bHighField w = 0) : encode (.setPolarity (pinArgOf (pinField w)) (bLowField w)) = w :=
  packFields_of_fields op rsv (by rw [imm]; rfl) (field_pinArgOf _).symm a (bField_of_bHighField high)

theorem encode_endChannel_of_fields (op : opField w = 6) (imm : immField w = 0) (a : aField w = 0)
    (b : bField w = 0) : encode (.endChannel (pinArgOf (pinField w))) = w :=
  packFields_of_fields op rsv (by rw [imm]; rfl) (field_pinArgOf _).symm a b

theorem encode_query_of_fields (op : opField w = 7) (imm : immField w = 0) (a : aField w = 0)
    (b : bField w = 0) : encode (.query (pinArgOf (pinField w))) = w :=
  packFields_of_fields op rsv (by rw [imm]; rfl) (field_pinArgOf _).symm a b

end

/-! ### Words under a row's mask (R74) -/

/-- A field the mask covers is the pattern's. -/
theorem field_of_masked {w m p : Command} {start len : Nat} (h : w &&& m = p)
    (covered : m.extractLsb' start len = BitVec.allOnes len := by decide) :
    w.extractLsb' start len = p.extractLsb' start len := by
  rw [← h, BitVec.extractLsb'_and, covered, BitVec.and_allOnes]

/-- A word that matches a row is the encoding of a well-formed command of the row's mnemonic: every
must-be-zero field of the row lies under its mask. -/
theorem exists_encode_of_row {w : Command} {r : OpcodeRow} (hr : r ∈ opcodeRows)
    (h : w &&& r.mask = r.pattern) :
    ∃ i : Instr, i.wellFormed = true ∧ encode i = w ∧ i.mnemonic = r.mnemonic := by
  have pinForm := pinArgOf_wellFormed (pinField w)
  simp only [opcodeRows, List.mem_cons, List.not_mem_nil, or_false] at hr
  rcases hr with rfl | rfl | rfl | rfl | rfl | rfl | rfl | rfl
  · have hw : w &&& BitVec.allOnes 48 = 0 := h
    rw [BitVec.and_allOnes] at hw
    exact ⟨.nop, rfl, hw.symm, rfl⟩
  all_goals
    have op := field_of_masked (start := 44) (len := 4) h
    have rsv := field_of_masked (start := 41) (len := 3) h
  · exact ⟨.begin _, rfl, encode_begin_of_fields rsv op (field_of_masked h) (field_of_masked h)
      (field_of_masked h) (field_of_masked h), rfl⟩
  · exact ⟨.set _ _ _, pinForm, encode_set_of_fields rsv op (field_of_masked h) (field_of_masked h), rfl⟩
  · exact ⟨.setPercent _ _ _, pinForm,
      encode_setPercent_of_fields rsv op (field_of_masked h) (field_of_masked h), rfl⟩
  · exact ⟨.setFade _ _ _, pinForm, encode_setFade_of_fields rsv op (field_of_masked h), rfl⟩
  · exact ⟨.setPolarity _ _, pinForm, encode_setPolarity_of_fields rsv op (field_of_masked h)
      (field_of_masked h) (field_of_masked h), rfl⟩
  · exact ⟨.endChannel _, pinForm, encode_endChannel_of_fields rsv op (field_of_masked h)
      (field_of_masked h) (field_of_masked h), rfl⟩
  · exact ⟨.query _, pinForm, encode_query_of_fields rsv op (field_of_masked h) (field_of_masked h)
      (field_of_masked h), rfl⟩

theorem encode_matches_row {i : Instr} {r : OpcodeRow} (hr : r ∈ opcodeRows)
    (hm : i.mnemonic = r.mnemonic) : encode i &&& r.mask = r.pattern := by
  have spells : Laws.EncodeSpellsRow.Statement i := by
    cases i with
    | nop => exact Laws.EncodeSpellsRow.nop
    | begin q => exact Laws.EncodeSpellsRow.begin q
    | set p v imm => exact Laws.EncodeSpellsRow.set p v imm
    | setPercent p v imm => exact Laws.EncodeSpellsRow.setPercent p v imm
    | setFade p u d => exact Laws.EncodeSpellsRow.setFade p u d
    | setPolarity p q => exact Laws.EncodeSpellsRow.setPolarity p q
    | endChannel p => exact Laws.EncodeSpellsRow.endChannel p
    | query p => exact Laws.EncodeSpellsRow.query p
  exact eq_of_beq (spells r hr hm.symm)

theorem exists_row (i : Instr) : ∃ r ∈ opcodeRows, i.mnemonic = r.mnemonic := by
  cases i <;> simp [opcodeRows, Instr.mnemonic]

theorem opField_of_row {w : Command} {r : OpcodeRow} (hr : r ∈ opcodeRows)
    (h : w &&& r.mask = r.pattern) : opField w = opField r.pattern := by
  have covered : ∀ r ∈ opcodeRows, r.mask.extractLsb' 44 4 = BitVec.allOnes 4 := by decide
  exact field_of_masked h (covered r hr)

theorem row_unique {r₁ r₂ : OpcodeRow} (hr₁ : r₁ ∈ opcodeRows) (hr₂ : r₂ ∈ opcodeRows)
    (h : opField r₁.pattern = opField r₂.pattern) : r₁ = r₂ := by
  have distinct : ∀ r₁ ∈ opcodeRows, ∀ r₂ ∈ opcodeRows,
      opField r₁.pattern = opField r₂.pattern → r₁ = r₂ := by decide
  exact distinct r₁ hr₁ r₂ hr₂ h

theorem toNat_opField (w : Command) : (opField w).toNat = (w >>> 44).toNat := by
  have hw := w.isLt
  simp only [opField, BitVec.extractLsb'_toNat, BitVec.toNat_ushiftRight, Nat.shiftRight_eq_div_pow]
  omega

theorem opField_congr {w v : Command} (h : w >>> 44 = v >>> 44) : opField w = opField v :=
  BitVec.eq_of_toNat_eq (by rw [toNat_opField, toNat_opField, h])

end Sys2Proof
end

section
/-! The statements about the command word (spec/30_encoding.md R70 to R76). -/

namespace Sys2Proof

/-! ### The round trip -/

/-- Settles O2: the fields of a packed word are what was packed, and a pin operand that is well-formed is
read back from its field. -/
theorem decodeOfEncodeIsTheCommand : Obligations.DecodeOfEncodeIsTheCommand := by
  intro i form
  cases i with
  | nop => rfl
  | begin q => simp [encode, decode, checkZero_eq_ok]
  | set p v imm | setPercent p v imm | setFade p u d | setPolarity p q | endChannel p | query p =>
    have hp := pinArgOf_field (p := p) form
    simp [encode, decode, checkZero_eq_ok, hp]

theorem encode_of_decode {w : Command} {i : Instr} (h : decode w = .ok i) : encode i = w := by
  unfold decode at h
  split_ifs at h with nop begin set setPercent setFade setPolarity endChannel query <;>
    obtain ⟨zero, rfl⟩ := checkZero_eq_ok.mp h <;>
    simp only [Bool.and_eq_true, beq_iff_eq] at zero
  · exact zero.symm
  · obtain ⟨⟨⟨⟨rsv, imm⟩, pin⟩, a⟩, high⟩ := zero
    exact encode_begin_of_fields rsv begin imm pin a high
  · obtain ⟨⟨rsv, a⟩, high⟩ := zero
    exact encode_set_of_fields rsv set a high
  · obtain ⟨⟨rsv, a⟩, high⟩ := zero
    exact encode_setPercent_of_fields rsv setPercent a high
  · obtain ⟨rsv, imm⟩ := zero
    exact encode_setFade_of_fields rsv setFade imm
  · obtain ⟨⟨⟨rsv, imm⟩, a⟩, high⟩ := zero
    exact encode_setPolarity_of_fields rsv setPolarity imm a high
  · obtain ⟨⟨⟨rsv, imm⟩, a⟩, b⟩ := zero
    exact encode_endChannel_of_fields rsv endChannel imm a b
  · obtain ⟨⟨⟨rsv, imm⟩, a⟩, b⟩ := zero
    exact encode_query_of_fields rsv query imm a b

/-- Settles O3: in each branch of the decoder the fields that are no operand are zero. -/
theorem encodeOfDecodeIsTheWord : Obligations.EncodeOfDecodeIsTheWord :=
  fun _ _ h => ⟨encode_of_decode h, decode_wellFormed h⟩

/-! ### The table -/

theorem matches_row_iff_decode {w : Command} {r : OpcodeRow} (hr : r ∈ opcodeRows) :
    w &&& r.mask = r.pattern ↔ ∃ i, decode w = .ok i ∧ i.mnemonic = r.mnemonic := by
  constructor
  · intro h
    obtain ⟨i, form, rfl, hm⟩ := exists_encode_of_row hr h
    exact ⟨i, decodeOfEncodeIsTheCommand i form, hm⟩
  · rintro ⟨i, h, hm⟩
    rw [← encode_of_decode h]
    exact encode_matches_row hr hm

/-- Settles O4: a row's words are the encodings of its commands, and no two rows share their `op`. -/
theorem decodeFollowsTheOpcodeTable : Obligations.DecodeFollowsTheOpcodeTable :=
  ⟨fun _ _ hr => matches_row_iff_decode hr,
    fun _ _ hr₁ _ hr₂ h₁ h₂ =>
      row_unique hr₁ hr₂ ((opField_of_row hr₁ h₁).symm.trans (opField_of_row hr₂ h₂))⟩

/-! ### The operands -/

theorem pinOperand_of_field {w : Command} {p : PinArg} (form : p.wellFormed = true)
    (h : pinField w = p.field) :
    p.field = w.extractLsb' 32 8 ∧ (p = .all ↔ w.extractLsb' 32 8 = (255 : Byte)) := by
  refine ⟨h.symm, (eq_all_iff_field form).trans ?_⟩
  rw [← h]
  rfl

theorem getLsbD_of_immField {w : Command} {imm : Bool} (h : immField w = BitVec.ofBool imm) :
    imm = w.getLsbD 40 := by
  have hbit := congrArg (BitVec.getLsbD · 0) h
  simpa [immField] using hbit.symm

/-- Settles O5: the word is the packing of the command's operands. -/
theorem decodedOperandsAreTheFields : Obligations.DecodedOperandsAreTheFields := by
  intro w i h
  have form := decode_wellFormed h
  obtain rfl := encode_of_decode h
  cases i with
  | nop => trivial
  | begin q => exact (byteField_packFields ..).2.symm
  | set p v imm | setPercent p v imm =>
    obtain ⟨hfield, hall⟩ := pinOperand_of_field form (pinField_packFields ..)
    exact ⟨hfield, hall, (byteField_packFields ..).2.symm, getLsbD_of_immField (immField_packFields ..)⟩
  | setFade p u d =>
    obtain ⟨hfield, hall⟩ := pinOperand_of_field form (pinField_packFields ..)
    exact ⟨hfield, hall, (aField_packFields ..).symm, (bField_packFields ..).symm⟩
  | setPolarity p q =>
    obtain ⟨hfield, hall⟩ := pinOperand_of_field form (pinField_packFields ..)
    exact ⟨hfield, hall, (byteField_packFields ..).2.symm⟩
  | endChannel p | query p => exact pinOperand_of_field form (pinField_packFields ..)

/-! ### Illegal words and NOP -/

/-- What decodes matches the row of its mnemonic, which has one of the eight opcodes and a zero in every
must-be-zero bit. -/
theorem not_decode_of_illegal {w : Command}
    (h : 8 ≤ (w >>> 44).toNat ∨ ∃ r ∈ opcodeRows, w >>> 44 = r.pattern >>> 44 ∧ w &&& r.mask ≠ r.pattern)
    (i : Instr) : decode w ≠ .ok i := by
  intro hdec
  obtain ⟨r, hr, hm⟩ := exists_row i
  have hmatch := (matches_row_iff_decode hr).mpr ⟨i, hdec, hm⟩
  have hop := opField_of_row hr hmatch
  rcases h with reserved | ⟨r', hr', hop', hne⟩
  · have small : ∀ r ∈ opcodeRows, (opField r.pattern).toNat < 8 := by decide
    rw [← toNat_opField, hop] at reserved
    exact absurd (small r hr) (Nat.not_lt.mpr reserved)
  · obtain rfl := row_unique hr hr' (hop.symm.trans (opField_congr hop'))
    exact hne hmatch

theorem commandStep_of_not_decode {w : Command} (h : ∀ i, decode w ≠ .ok i) (s : Machine.State) :
    Machine.commandStep w s = .next (Machine.illegalCommand s) := by
  unfold Machine.commandStep
  split
  case h_1 i hi => exact absurd hi (h i)
  case h_2 => rfl

/-- Settles O6: such a word does not decode, and the step is ILLEGAL_COMMAND. -/
theorem illegalCommandOnlyWritesStatusSix : Obligations.IllegalCommandOnlyWritesStatusSix := by
  intro s w rest legal waiting illegal
  calc Machine.step s = Machine.commandStep w { s with inputs := rest } :=
        Machine.step_eq_takeInput legal waiting
    _ = .next (Machine.illegalCommand { s with inputs := rest }) :=
        commandStep_of_not_decode (not_decode_of_illegal illegal) _

/-- Settles O1, row by row. -/
theorem decodeOfWrittenWords : Obligations.DecodeOfWrittenWords :=
  ⟨rfl, rfl, rfl, rfl, rfl, rfl, rfl, rfl⟩

/-- Settles O7, row by row. -/
theorem pseudoInstructionExpansions : Obligations.PseudoInstructionExpansions :=
  ⟨fun _ _ => rfl, fun _ _ => rfl, fun _ _ => rfl, fun _ => rfl, fun _ => rfl, fun _ => rfl, fun _ => rfl⟩

/-- Settles O16: the branch of `op` 0 checks the whole word. -/
theorem nopChangesNothing : Obligations.NopChangesNothing := by
  refine ⟨decodeOfEncodeIsTheCommand .nop rfl, fun _ => rfl, fun w op hne => ?_⟩
  have hop : opField w = 0 := opField_congr (v := 0) op
  rw [decode, if_pos hop, beq_eq_false_iff_ne.mpr hne]
  rfl

end Sys2Proof
end

section
/-! The statement about the assembler (spec/30_encoding.md R79, R80): the parser of each kind of operand
answers exactly what R79 writes, and so does the assembler of a line. -/

namespace Sys2Proof.Machine

/-! ### Number operands -/

theorem parseUpTo_eq_some {max n : Nat} {cs : List Char} :
    parseUpTo max cs = some n ↔ NumberWritten max cs n := by
  unfold parseUpTo NumberWritten
  cases parseNumber cs with
  | none => simp
  | some k =>
    simp only [Option.ite_none_right_eq_some, Option.some.injEq]
    exact ⟨fun ⟨hle, e⟩ => ⟨e, e ▸ hle⟩, fun ⟨e, hle⟩ => ⟨e ▸ hle, e⟩⟩

/-- A number in a range that fits the width is the operand's value, nothing cut off. -/
theorem map_ofNat_parseUpTo {width max : Nat} (fits : max < 2 ^ width) {cs : List Char}
    {v : BitVec width} :
    (parseUpTo max cs).map (BitVec.ofNat width) = some v ↔ NumberWritten max cs v.toNat := by
  rw [Option.map_eq_some_iff]
  constructor
  · rintro ⟨n, hn, rfl⟩
    have written := parseUpTo_eq_some.mp hn
    rwa [BitVec.toNat_ofNat, Nat.mod_eq_of_lt (written.2.trans_lt fits)]
  · exact fun written => ⟨v.toNat, parseUpTo_eq_some.mpr written, by simp⟩

theorem parseByte_eq_some {cs : List Char} {v : Byte} :
    parseByte cs = some v ↔ NumberWritten 255 cs v.toNat := map_ofNat_parseUpTo (by decide)

theorem parseDuration_eq_some {cs : List Char} {d : Duration} :
    parseDuration cs = some d ↔ NumberWritten 65535 cs d.toNat := map_ofNat_parseUpTo (by decide)

/-- A keyword is no number: it has a letter where a decimal digit would stand. -/
theorem not_numberWritten_of_parseNumber {max n : Nat} {cs : List Char} (h : parseNumber cs = none) :
    ¬ NumberWritten max cs n := fun written => absurd (h.symm.trans written.1) (by simp)

/-! ### Pin, polarity and IMM -/

theorem parsePin_eq_some {cs : List Char} {p : PinArg} : parsePin cs = some p ↔ PinWritten cs p := by
  unfold parsePin
  split
  case isTrue keyword =>
    subst keyword
    constructor
    · rintro ⟨⟩
      exact .all
    · intro written
      cases written with
      | all => rfl
      | pin number => exact absurd number (not_numberWritten_of_parseNumber (by decide))
  case isFalse notAll =>
    have twoMaps : (parseUpTo 254 cs).map (fun n => PinArg.pin (BitVec.ofNat 8 n)) =
        ((parseUpTo 254 cs).map (BitVec.ofNat 8)).map .pin := (Option.map_map ..).symm
    rw [twoMaps, Option.map_eq_some_iff]
    simp only [map_ofNat_parseUpTo (width := 8) (max := 254) (by decide)]
    constructor
    · rintro ⟨id, number, rfl⟩
      exact .pin number
    · intro written
      cases written with
      | all => exact absurd rfl notAll
      | pin number => exact ⟨_, number, rfl⟩

theorem parsePolarity_eq_some {cs : List Char} {q : Byte} :
    parsePolarity cs = some q ↔ PolarityWritten cs q := by
  unfold parsePolarity
  split_ifs with normal inverted
  · subst normal
    constructor
    · rintro ⟨⟩
      exact .normal
    · intro written
      cases written with
      | normal => rfl
      | number number => exact absurd number (not_numberWritten_of_parseNumber (by decide))
  · subst inverted
    constructor
    · rintro ⟨⟩
      exact .inverted
    · intro written
      cases written with
      | inverted => rfl
      | number number => exact absurd number (not_numberWritten_of_parseNumber (by decide))
  · rw [parseByte_eq_some]
    constructor
    · exact .number
    · intro written
      cases written with
      | normal => exact absurd rfl normal
      | inverted => exact absurd rfl inverted
      | number number => exact number

theorem parseImm_eq_some {rest : List (List Char)} {imm : Bool} :
    parseImm rest = some imm ↔ ImmWritten rest imm := by
  constructor
  · intro h
    unfold parseImm at h
    split at h
    · cases h
      exact .absent
    · obtain ⟨rfl, h⟩ := Option.ite_none_right_eq_some.mp h
      cases h
      exact .present
    · cases h
  · intro written
    cases written <;> rfl

/-! ### Commands -/

theorem assembleParts_eq_some {name : AsmName} {ops : List (List Char)} {i : Instr} :
    assembleParts name ops = some i ↔ CommandWritten name ops i := by
  constructor
  · intro h
    unfold assembleParts at h
    split at h <;>
      simp only [Option.bind_eq_bind, Option.bind_eq_some_iff, Option.map_eq_some_iff, Option.some.injEq,
        parsePin_eq_some, parseByte_eq_some, parseDuration_eq_some, parsePolarity_eq_some,
        parseImm_eq_some, reduceCtorEq] at h
    · exact h ▸ .nop
    · obtain ⟨q, hq, rfl⟩ := h
      exact .begin hq
    · obtain ⟨p, hp, v, hv, imm, hi, rfl⟩ := h
      exact .set hp hv hi
    · obtain ⟨p, hp, v, hv, imm, hi, rfl⟩ := h
      exact .setPercent hp hv hi
    · obtain ⟨p, hp, u, hu, d, hd, rfl⟩ := h
      exact .setFade hp hu hd
    · obtain ⟨p, hp, q, hq, rfl⟩ := h
      exact .setPolarity hp hq
    · obtain ⟨p, hp, rfl⟩ := h
      exact .endChannel hp
    · obtain ⟨p, hp, rfl⟩ := h
      exact .query hp
    · obtain ⟨v, hv, imm, hi, rfl⟩ := h
      exact .setAll hv hi
    · obtain ⟨v, hv, imm, hi, rfl⟩ := h
      exact .setPercentAll hv hi
    · obtain ⟨u, hu, d, hd, rfl⟩ := h
      exact .fadeAll hu hd
    · obtain ⟨p, hp, rfl⟩ := h
      exact .invert hp
    · obtain ⟨p, hp, rfl⟩ := h
      exact .normal hp
    · obtain ⟨p, hp, rfl⟩ := h
      exact .off hp
    · obtain ⟨p, hp, rfl⟩ := h
      exact .full hp
  · intro written
    cases written with
    | nop => rfl
    | begin hq => simp [assembleParts, parsePolarity_eq_some.mpr hq]
    | set hp hv hi | setPercent hp hv hi =>
      simp [assembleParts, parsePin_eq_some.mpr hp, parseByte_eq_some.mpr hv, parseImm_eq_some.mpr hi]
    | setFade hp hu hd =>
      simp [assembleParts, parsePin_eq_some.mpr hp, parseDuration_eq_some.mpr hu,
        parseDuration_eq_some.mpr hd]
    | setPolarity hp hq => simp [assembleParts, parsePin_eq_some.mpr hp, parsePolarity_eq_some.mpr hq]
    | setAll hv hi | setPercentAll hv hi =>
      simp [assembleParts, Pseudo.expand, parseByte_eq_some.mpr hv, parseImm_eq_some.mpr hi]
    | fadeAll hu hd =>
      simp [assembleParts, Pseudo.expand, parseDuration_eq_some.mpr hu, parseDuration_eq_some.mpr hd]
    | endChannel hp | query hp | invert hp | normal hp | off hp | full hp =>
      simp [assembleParts, Pseudo.expand, parsePin_eq_some.mpr hp]

/-! ### Well-formedness -/

theorem PinWritten.wellFormed {cs : List Char} {p : PinArg} (written : PinWritten cs p) :
    p.wellFormed = true := by
  cases written with
  | all => rfl
  | pin number =>
    refine decide_eq_true fun e => ?_
    have hle := number.2
    rw [e] at hle
    exact absurd hle (by decide)

theorem CommandWritten.wellFormed {name : AsmName} {ops : List (List Char)} {i : Instr}
    (written : CommandWritten name ops i) : i.wellFormed = true := by
  cases written with
  | nop | begin | setAll | setPercentAll | fadeAll => rfl
  | set hp | setPercent hp | setFade hp | setPolarity hp | endChannel hp | query hp | invert hp | normal hp
  | off hp | full hp => exact hp.wellFormed

theorem assembleLine_eq_some {line : List Char} {i : Instr} :
    assembleLine line = some i ↔
      ∃ name, asmNameOf (lineParts line).1 = some name ∧
        CommandWritten name (operandTexts (lineParts line).2) i := by
  unfold assembleLine
  cases asmNameOf (lineParts line).1 with
  | none => simp
  | some name => simp [assembleParts_eq_some]

/-- Settles O8: the assembler and the relation agree operand by operand, and a number up to 254 is not the
field value of ALL. -/
theorem assembledCommandsAreWellFormed : Obligations.AssembledCommandsAreWellFormed := by
  refine ⟨fun _ _ => assembleLine_eq_some, fun line i h => ?_⟩
  obtain ⟨name, -, written⟩ := assembleLine_eq_some.mp h
  exact written.wellFormed

end Sys2Proof.Machine
end

section
/-! The statements about the channel pool (spec/40_pool.md): PoolInit (R104), `push` (R101), `remove` (R102) and
`lookup` (R105). -/

namespace Sys2Proof.Machine

/-! ### PoolInit -/

theorem ofNat_toNat_add_one (c : Link) : BitVec.ofNat 8 (c.toNat + 1) = c + 1 := by
  bv_omega

theorem ofNat_toNat_sub_one {c : Link} (h : c ≠ 0) : BitVec.ofNat 8 (c.toNat - 1) = c - 1 := by
  bv_omega

/-- A record after PoolInit (R104), its links computed in the 8 bits of its own index. -/
theorem initialChannel_toNat (n : Nat) (c : Link) :
    initialChannel n c.toNat =
      { pin := 0xFF, pol := .normal, reg := 0, mask := 0, target := 0, current := 0, up := 0, down := 0
        next := if c.toNat + 1 = n then 0xFF else c + 1
        prev := if c = 0 then 0xFF else c - 1 } := by
  have first : c.toNat = 0 ↔ c = 0 := by bv_omega
  simp only [initialChannel, noLink, first, ofNat_toNat_add_one]
  by_cases h0 : c = 0
  · simp only [h0, if_true]
  · simp only [h0, if_false, ofNat_toNat_sub_one h0]

/-- Settles O18: the fresh pool is linked in index order, so the bounded walk of FREE gives its records in
that order. -/
theorem poolInitPutsEveryRecordOnFreeInOrder : Obligations.PoolInitPutsEveryRecordOnFreeInOrder := by
  intro s legal
  obtain ⟨hfree, hactive, hwf⟩ := poolWf_of_fresh (s := poolInit s) legal rfl rfl rfl
  exact ⟨hwf.size, fun c hc => (record_poolInit s hc).trans (initialChannel_toNat _ c), rfl, rfl,
    hfree, hactive, rfl⟩

/-! ### What relinking leaves alone -/

/-- A record with the content of another and its links is that record. -/
theorem Channel.relink_of_content_eq {r q : Channel} (h : r.content = q.content) :
    { r with next := q.next, prev := q.prev } = q :=
  congrArg (fun x : Channel => { x with next := q.next, prev := q.prev }) h

/-- An index outside a pool reads the same in every pool of that size (log entry 9). -/
theorem State.record_eq_of_not_lt {s t : State} {d : Link} (hlen : t.pool.length = s.pool.length)
    (hd : ¬ d.toNat < s.pool.length) : t.record d = s.record d := by
  have hle : s.pool.length ≤ d.toNat := Nat.not_lt.mp hd
  rw [State.record_of_length_le (hlen ▸ hle), State.record_of_length_le hle]

/-- `push` writes nothing outside the pool and the heads (R101). -/
theorem push_frame (L : ListId) (c : Link) (s : State) :
    { push L c s with pool := s.pool, freeHead := s.freeHead, activeHead := s.activeHead } = s := by
  simp

/-- `remove` writes nothing outside the pool and the heads (R102). -/
theorem remove_frame (L : ListId) (c : Link) (s : State) :
    { remove L c s with pool := s.pool, freeHead := s.freeHead, activeHead := s.activeHead } = s := by
  simp

/-! ### Records off the list -/

theorem linked_head_ne {s : State} {pv hd c : Link} {l : List Link} (h : linked s pv hd l = true)
    (hc : c ∉ l) (hc0 : c ≠ noLink) : hd ≠ c := fun e =>
  (linked_head h).elim (fun e0 => hc0 (e.symm.trans e0)) (fun hm => hc (e ▸ hm))

/-- `push(L, c)` on a linked list rewrites no index but `c` and the list's own (R101). -/
theorem record_push_unlisted {s : State} {L : ListId} {c d : Link} {l : List Link}
    (h : linked s noLink (s.head L) l = true) (hc : c ∉ l) (hc0 : c ≠ noLink) (hd : d ∉ c :: l) :
    (push L c s).record d = s.record d := by
  by_cases hlt : d.toNat < s.pool.length
  · obtain ⟨hdc, hdl⟩ := not_or.mp (mt List.mem_cons.mpr hd)
    exact record_push_off (linked_head_ne h hc hc0) hdc
      ((linked_head h).imp_right fun hm e => hdl (e ▸ hm)) hlt
  · exact State.record_eq_of_not_lt (push_length L c s) hlt

/-- `remove(L, c)` rewrites no index off the list (R102): a neighbour is on the list or NONE, and NONE is
never written through. -/
theorem record_remove_unlisted {s : State} {L : ListId} {c d hd : Link} {l : List Link}
    (h : linked s noLink hd l = true) (hn : l.Nodup) (hc : c ∈ l) (hdl : d ∉ l) :
    (remove L c s).record d = s.record d := by
  by_cases hlt : d.toNat < s.pool.length
  · obtain ⟨hpc, hnc, hprev, hnext⟩ := linked_neighbours h hn hc
    have off : ∀ x : Link, x = noLink ∨ x ∈ l → ¬ (x ≠ noLink ∧ d = x) := fun x hx ⟨hx0, e⟩ =>
      hdl (e ▸ hx.resolve_left hx0)
    rw [record_remove d hpc hnc hlt, if_neg fun e : d = c => hdl (e ▸ hc), if_neg (off _ hprev),
      if_neg (off _ hnext)]
  · exact State.record_eq_of_not_lt (remove_length L c s) hlt

/-- A removed record keeps its content and has no links (R102). -/
theorem record_remove_self {s : State} {L : ListId} {c hd : Link} {l : List Link}
    (h : linked s noLink hd l = true) (hn : l.Nodup) (hc : c ∈ l) :
    (remove L c s).record c = (s.record c).content := by
  obtain ⟨hpc, hnc, -, -⟩ := linked_neighbours h hn hc
  rw [record_remove c hpc hnc (linked_inRange h c hc).2, if_pos rfl]
  rfl

/-! ### `push` and `remove` -/

/-- Settles O21: `push` writes two records, `c` and the old head, and of those only links. -/
theorem pushInsertsAtTheHead : Obligations.PushInsertsAtTheHead := by
  intro s L c l h hn hc hc0 hlt
  exact ⟨linked_push h hn hc hc0 hlt, fun K hK => push_head_other c s hK,
    fun d hd => record_push_unlisted h hc hc0 hd,
    fun d => Channel.relink_of_content_eq (content_record_push L c d s), push_length L c s,
    push_frame L c s⟩

/-- Settles O22: `remove` writes `c` and its neighbours, which are on the list or NONE, and of those only
links. -/
theorem removeUnlinksFromAnywhere : Obligations.RemoveUnlinksFromAnywhere := by
  intro s L c l h hn hc
  have own := record_remove_self (L := L) h hn hc
  exact ⟨linked_remove h hn hc, congrArg Channel.next own, congrArg Channel.prev own,
    fun K hK => remove_head_other c s hK, fun d hd => record_remove_unlisted h hn hc hd,
    fun d => Channel.relink_of_content_eq (content_record_remove L c d s), remove_length L c s,
    remove_frame L c s⟩

/-! ### Lookup -/

/-- Where pins are unique on ACTIVE (R28), the first record with the pin is the only one. -/
theorem PoolWf.lookup_eq_some {s : State} (h : PoolWf s) {p : Byte} {c : Link} :
    lookup p s = some c ↔ c ∈ activeWalk s ∧ (s.record c).pin = p := by
  refine ⟨lookup_some, fun ⟨hc, hp⟩ => ?_⟩
  cases hl : lookup p s with
  | none => exact absurd hp (lookup_none.mp hl c hc)
  | some d =>
    obtain ⟨hd, hpd⟩ := lookup_some hl
    exact congrArg some (List.inj_on_of_nodup_map h.pinsUnique hd hc (hpd.trans hp.symm))

/-- No active record holds the pin id 0xFF (R22, R28). -/
theorem PoolWf.lookup_allPins {s : State} (h : PoolWf s) : lookup allPins s = none :=
  lookup_none.mpr fun c hc => (h.activeMapped c hc).1

/-- Settles O23: R28 makes the pins of ACTIVE unique and none of them 0xFF. -/
theorem lookupFindsTheActiveRecord : Obligations.LookupFindsTheActiveRecord := fun _ inv =>
  ⟨fun _ _ => inv.pool.lookup_eq_some, inv.pool.lookup_allPins⟩

end Sys2Proof.Machine
end

section
/-! SUPPORT. PIN_MAP of a legal parameter set (spec/00_scope.md R9), and which operations leave an OUT bit or a
direction alone (spec/20_memory.md R55, R56). -/

namespace Sys2Proof

/-! ### PIN_MAP -/

theorem Params.pinMap_of_legal {P : Params} (legal : P.legal = true) :
    (∀ e ∈ P.pinMap, P.entryLegal e = true) ∧ entriesDistinct P.pinMap = true := by
  simp only [Params.legal, Bool.and_eq_true, List.all_eq_true] at legal
  exact ⟨legal.1.2, legal.2⟩

theorem Params.mem_pinMap_of_pinOf {P : Params} {p : Byte} {a m : Nat}
    (h : P.pinOf p = some (a, m)) : ⟨p, a, m⟩ ∈ P.pinMap := by
  obtain ⟨⟨q, b, k⟩, found, same⟩ := Option.map_eq_some_iff.mp h
  obtain ⟨rfl, rfl⟩ := Prod.mk.inj same
  have hq : q = p := by simpa using List.find?_some found
  exact hq ▸ List.mem_of_find?_eq_some found

/-- A mapped address fits the port, and a mapped mask is one bit inside it (R9). -/
theorem Params.pinOf_fits {P : Params} (legal : P.legal = true) {p : Byte} {a m : Nat}
    (h : P.pinOf p = some (a, m)) : a < 2 ^ P.outAddrW ∧ ∃ i < P.outRegW, m = 2 ^ i := by
  have hentry := (pinMap_of_legal legal).1 _ (mem_pinMap_of_pinOf h)
  simp only [Params.entryLegal, Params.oneHot, Bool.and_eq_true, decide_eq_true_eq, List.any_eq_true,
    List.mem_range, beq_iff_eq] at hentry
  exact hentry.1

/-- Two entries of a distinct list with one register and mask are one entry (R9). -/
theorem Params.entriesDistinct_injective {es : List PinEntry} (h : entriesDistinct es = true)
    {e f : PinEntry} (he : e ∈ es) (hf : f ∈ es) (same : (e.reg, e.mask) = (f.reg, f.mask)) : e = f := by
  induction es with
  | nil => cases he
  | cons d es ih =>
    simp only [entriesDistinct, Bool.and_eq_true, List.all_eq_true, decide_eq_true_eq] at h
    obtain ⟨hd, hes⟩ := h
    rcases List.mem_cons.mp he with rfl | he' <;> rcases List.mem_cons.mp hf with rfl | hf'
    · rfl
    · exact absurd same (hd f hf').2
    · exact absurd same.symm (hd e he').2
    · exact ih hes he' hf'

/-- PIN_MAP is injective (R9). -/
theorem Params.pinOf_injective {P : Params} (legal : P.legal = true) {p q : Byte} {r : Nat × Nat}
    (hp : P.pinOf p = some r) (hq : P.pinOf q = some r) : p = q :=
  congrArg PinEntry.pin (entriesDistinct_injective (pinMap_of_legal legal).2 (mem_pinMap_of_pinOf hp)
    (mem_pinMap_of_pinOf hq) rfl)

/-- The mapped bits of two pins are different bits (R9). -/
theorem Params.pinOf_disjoint {P : Params} (legal : P.legal = true) {p q : Byte} {a b m k j : Nat}
    (hp : P.pinOf p = some (a, m)) (hq : P.pinOf q = some (b, k)) (hpq : p ≠ q)
    (hm : m.testBit j = true) : ¬ (a = b ∧ k.testBit j = true) := by
  rintro ⟨rfl, hk⟩
  obtain ⟨-, i, -, rfl⟩ := pinOf_fits legal hp
  obtain ⟨-, l, -, rfl⟩ := pinOf_fits legal hq
  rw [Nat.testBit_two_pow, decide_eq_true_eq] at hm hk
  subst hm hk
  exact hpq (pinOf_injective legal hp hq)

theorem Params.portBits_of_pinOf {P : Params} (legal : P.legal = true) {p : Byte} {a m : Nat}
    (h : P.pinOf p = some (a, m)) : P.addrBits a = a ∧ P.maskBits m = m := by
  obtain ⟨ha, i, hi, rfl⟩ := pinOf_fits legal h
  exact ⟨addrBits_of_lt ha, maskBits_of_lt (Nat.pow_lt_pow_right (by decide) hi)⟩

theorem Params.validPin_of_pinOf {P : Params} {p : Byte} {r : Nat × Nat} (h : P.pinOf p = some r) :
    P.validPin p = true := by
  rw [validPin, h]
  rfl

namespace Machine

/-! ### What an OUT bit and a direction are read from -/

theorem outBit_congr {s t : State} (hcfg : t.cfg = s.cfg) (hresets : t.resets = s.resets)
    (hout : t.out = s.out) (b j : Nat) : t.outBit b j = s.outBit b j := by
  simp only [State.outBit, State.outReg, hcfg, hresets, hout]

theorem pinDirection_congr {s t : State} (hcfg : t.cfg = s.cfg) (hresets : t.resets = s.resets)
    (hdir : t.dir = s.dir) (x : Byte) : t.pinDirection x = s.pinDirection x := by
  simp only [State.pinDirection, hcfg, hresets, hdir]

@[simp] theorem outBit_update (s : State) (c : Link) (f : Channel → Channel) (b j : Nat) :
    (s.update c f).outBit b j = s.outBit b j := outBit_congr rfl rfl rfl b j
@[simp] theorem outBit_push (L : ListId) (c : Link) (s : State) (b j : Nat) :
    (push L c s).outBit b j = s.outBit b j := outBit_congr (by simp) (by simp) (by simp) b j
@[simp] theorem outBit_remove (L : ListId) (c : Link) (s : State) (b j : Nat) :
    (remove L c s).outBit b j = s.outBit b j := outBit_congr (by simp) (by simp) (by simp) b j
@[simp] theorem outBit_resetFields (c : Link) (s : State) (b j : Nat) :
    (resetFields c s).outBit b j = s.outBit b j := outBit_congr rfl rfl rfl b j
@[simp] theorem outBit_pinDir (p : Byte) (d : Direction) (s : State) (b j : Nat) :
    (pinDir p d s).outBit b j = s.outBit b j := outBit_congr rfl rfl rfl b j

@[simp] theorem pinDirection_update (s : State) (c : Link) (f : Channel → Channel) (x : Byte) :
    (s.update c f).pinDirection x = s.pinDirection x := pinDirection_congr rfl rfl rfl x
@[simp] theorem pinDirection_push (L : ListId) (c : Link) (s : State) (x : Byte) :
    (push L c s).pinDirection x = s.pinDirection x :=
  pinDirection_congr (by simp) (by simp) (by simp) x
@[simp] theorem pinDirection_remove (L : ListId) (c : Link) (s : State) (x : Byte) :
    (remove L c s).pinDirection x = s.pinDirection x :=
  pinDirection_congr (by simp) (by simp) (by simp) x
@[simp] theorem pinDirection_resetFields (c : Link) (s : State) (x : Byte) :
    (resetFields c s).pinDirection x = s.pinDirection x := pinDirection_congr rfl rfl rfl x
@[simp] theorem pinDirection_gpioWrite (a m : Nat) (l : Level) (s : State) (x : Byte) :
    (gpioWrite a m l s).pinDirection x = s.pinDirection x := pinDirection_congr rfl rfl rfl x
@[simp] theorem pinDirection_finish (code : ResultCode) (s : State) (x : Byte) :
    (finish code s).pinDirection x = s.pinDirection x := pinDirection_congr rfl rfl rfl x

/-- Whether the idle level of a polarity is low or high, as a bit and as the written level (R174). -/
theorem offLevel_eq (pol : Polarity) :
    offLevel pol = (if pol = .normal then .low else .high) ∧
      decide (offLevel pol = .high) = decide (pol = .inverted) := by
  cases pol <;> decide

end Machine

end Sys2Proof
end

section
/-! SUPPORT. What `Acquire` and `Release` do to each record, the heads, OUT, DIR and the trace
(spec/41_registry.md R124, R125). -/

namespace Sys2Proof.Machine

/-! ### The invariants over a command and over other changes -/

theorem CommandEffect.inv {s t : State} {i : Instr} (h : Inv s) (heff : CommandEffect s i t) : Inv t :=
  ⟨heff.emits.1 ▸ h.legal, heff.poolWf h.legal h.pool, heff.formsWf h.forms⟩

theorem exec_keeps_inv {i : Instr} {s t : State} (h : Inv s) (hexec : exec i s = .next t) : Inv t :=
  (exec_effect hexec).inv h

theorem KeepsShape.finish (code : ResultCode) (s : State) : KeepsShape s (finish code s) :=
  .of_pool_eq rfl rfl rfl rfl

theorem KeepsShape.withArrivals (s : State) (es : List Input) (n : Nat) :
    KeepsShape s (s.withArrivals es n) := .of_pool_eq rfl rfl rfl rfl

theorem Inv.of_keepsShape {s t : State} (inv : Inv s) (k : KeepsShape s t) (e : Emits s t)
    (hstatus : t.lastStatus = s.lastStatus) (hresp : t.resp = s.resp) : Inv t :=
  ⟨k.cfg.symm ▸ inv.legal, inv.pool.of_keepsShape k,
    inv.forms.of_emits e (hstatus ▸ inv.forms.codes) (hresp ▸ inv.forms.respReserved)⟩

/-- The invariants do not read what waits at the ports. -/
theorem Inv.withArrivals {s : State} (inv : Inv s) (es : List Input) (n : Nat) :
    Inv (s.withArrivals es n) :=
  inv.of_keepsShape (.withArrivals s es n) (.of_eq rfl rfl rfl rfl) rfl rfl

/-! ### Heads and ranges -/

/-- An index of the pool is not NONE (R8, R27). -/
theorem ne_noLink_of_lt {P : Params} (legal : P.legal = true) {d : Link} (hd : d.toNat < P.nCh) :
    d ≠ noLink := by
  rintro rfl
  have h255 := (nCh_bounds_of_legal legal).2
  exact absurd hd (by simp only [noLink, BitVec.reduceToNat]; omega)

theorem PoolWf.freeNodup {s : State} (h : PoolWf s) : (freeWalk s).Nodup := h.threaded.nodup .free

theorem PoolWf.activeNodup {s : State} (h : PoolWf s) : (activeWalk s).Nodup := h.threaded.nodup .active

theorem PoolWf.inRange_of_active {s : State} (h : PoolWf s) {c : Link} (hc : c ∈ activeWalk s) :
    c ≠ noLink ∧ c.toNat < s.pool.length := h.threaded.inRange (L := .active) hc

/-- Different active records hold different pins (R28). -/
theorem PoolWf.pin_ne {s : State} (h : PoolWf s) {c d : Link} (hc : c ∈ activeWalk s) (hd : d ∈ activeWalk s)
    (hdc : d ≠ c) : (s.record d).pin ≠ (s.record c).pin := fun e =>
  hdc (List.inj_on_of_nodup_map h.pinsUnique hd hc e)

theorem Inv.lt_of_active {s : State} (inv : Inv s) {c : Link} (hc : c ∈ activeWalk s) :
    c.toNat < s.cfg.nCh :=
  inv.pool.size ▸ (inv.pool.inRange_of_active hc).2

theorem PoolWf.freeHead_mem {s : State} (h : PoolWf s) (hne : s.freeHead ≠ noLink) :
    s.freeHead ∈ freeWalk s :=
  (linked_head h.freeLinked).resolve_left hne

theorem PoolWf.freeHead_cons_erase {s : State} (h : PoolWf s) (hne : s.freeHead ≠ noLink) :
    s.freeHead :: (freeWalk s).erase s.freeHead = freeWalk s := by
  have hlinked := h.freeLinked
  cases hF : freeWalk s with
  | nil =>
    rw [hF] at hlinked
    exact absurd (linked_nil.mp hlinked) hne
  | cons d l =>
    rw [hF] at hlinked
    rw [(linked_cons.mp hlinked).1, List.erase_cons_head]

/-- The head of FREE has nothing before it and holds the reset values (R28). -/
theorem PoolWf.freeHead_record {s : State} (h : PoolWf s) (hne : s.freeHead ≠ noLink) :
    (s.record s.freeHead).prev = noLink ∧
      s.record s.freeHead = (s.record s.freeHead).resetFields := by
  have hmem := h.freeHead_mem hne
  refine ⟨?_, (h.freeReset _ hmem).symm⟩
  rcases linked_prev h.freeLinked h.freeNodup hmem with ⟨_, hp⟩ | ⟨hf, _⟩
  · exact hp
  · exact absurd rfl hf

theorem PoolWf.active_ne_freeHead {s : State} (h : PoolWf s) {d : Link} (hd : d ∈ activeWalk s) :
    d ≠ s.freeHead := fun e =>
  (linked_head h.freeLinked).elim (fun e0 => (h.inRange_of_active hd).1 (e.trans e0))
    (fun hm => h.active_not_free hd (e ▸ hm))

@[simp] theorem push_active_freeHead (c : Link) (s : State) : (push .active c s).freeHead = s.freeHead :=
  push_head_other (L := .active) (K := .free) c s (by decide)
@[simp] theorem push_active_activeHead (c : Link) (s : State) : (push .active c s).activeHead = c :=
  push_head .active c s
@[simp] theorem push_free_freeHead (c : Link) (s : State) : (push .free c s).freeHead = c :=
  push_head .free c s
@[simp] theorem push_free_activeHead (c : Link) (s : State) : (push .free c s).activeHead = s.activeHead :=
  push_head_other (L := .free) (K := .active) c s (by decide)

/-- After `remove(L, c)` the head is the record after `c` where `c` was the head (R102). -/
theorem remove_head_of_linked {s : State} {L : ListId} {c : Link} {l : List Link}
    (h : linked s noLink (s.head L) l = true) (hn : l.Nodup) (hc : c ∈ l) :
    (remove L c s).head L = if s.head L = c then (s.record c).next else s.head L := by
  rw [remove_head]
  refine if_congr ?_ rfl rfl
  rcases linked_prev h hn hc with ⟨hh, hp⟩ | ⟨hh, hp, -⟩
  · simp [hh, hp]
  · simp only [hh, iff_false]
    exact fun e => noLink_not_mem h (e ▸ hp)

/-- Every other record after `remove(L, c)` (R102): bypassed links, nothing else. -/
theorem record_remove_other {s : State} {L : ListId} {c d hd : Link} {l : List Link}
    (h : linked s noLink hd l = true) (hn : l.Nodup) (hc : c ∈ l) (hdc : d ≠ c) (hd0 : d ≠ noLink)
    (hlt : d.toNat < s.pool.length) :
    (remove L c s).record d =
      { s.record d with
        next := if d = (s.record c).prev then (s.record c).next else (s.record d).next
        prev := if d = (s.record c).next then (s.record c).prev else (s.record d).prev } := by
  have guarded : ∀ x : Link, (x ≠ noLink ∧ d = x) ↔ d = x := fun x =>
    ⟨fun e => e.2, fun e => ⟨fun e0 => hd0 (e.trans e0), e⟩⟩
  obtain ⟨hpc, hnc, -, -⟩ := linked_neighbours h hn hc
  rw [record_remove d hpc hnc hlt, if_neg hdc]
  simp only [guarded]

/-! ### The records after a move between the lists -/

/-- The moved record: rewritten by `f`, at the head of its new list (R101, R102). -/
theorem Threaded.record_move_self {s u : State} {l : ListId → List Link} (h : Threaded s l)
    {L K : ListId} {c : Link} {f : Channel → Channel} (hKL : K ≠ L) (hc : c ∈ l L)
    (hpool : u.pool = ((Machine.remove L c s).update c f).pool)
    (hhead : u.head K = (Machine.remove L c s).head K) :
    (Machine.push K c u).record c = { f (s.record c).content with prev := noLink, next := s.head K } := by
  have hlt : c.toNat < (Machine.remove L c s).pool.length := by simpa using (h.inRange hc).2
  have hK : u.head K = s.head K := hhead.trans (remove_head_other c s hKL)
  have hne : s.head K ≠ c :=
    linked_head_ne (h.linked K) (h.disjoint L K (Ne.symm hKL) c hc) (h.inRange hc).1
  rw [record_push c (hK ▸ hne) (by rw [hpool]; simpa using hlt), if_pos rfl, State.record_congr hpool,
    State.record_update _ _ _ _ hlt, if_pos rfl, record_remove_self (h.linked L) (h.nodup L) hc, hK]

/-- Every other record: at most its links to the neighbours of `c`, and its link to the new head. -/
theorem Threaded.record_move_other {s u : State} {l : ListId → List Link} (h : Threaded s l)
    {L K : ListId} {c d : Link} {f : Channel → Channel} (hKL : K ≠ L) (hc : c ∈ l L)
    (hpool : u.pool = ((Machine.remove L c s).update c f).pool)
    (hhead : u.head K = (Machine.remove L c s).head K) (hdc : d ≠ c) (hd0 : d ≠ noLink)
    (hlt : d.toNat < s.pool.length) :
    (Machine.push K c u).record d =
      { s.record d with
        next := if d = (s.record c).prev then (s.record c).next else (s.record d).next
        prev :=
          if d = s.head K then c
          else if d = (s.record c).next then (s.record c).prev
          else (s.record d).prev } := by
  have hK : u.head K = s.head K := hhead.trans (remove_head_other c s hKL)
  have hne : s.head K ≠ c :=
    linked_head_ne (h.linked K) (h.disjoint L K (Ne.symm hKL) c hc) (h.inRange hc).1
  rw [record_push d (hK ▸ hne) (by rw [hpool]; simpa using hlt), if_neg hdc, State.record_congr hpool,
    State.record_update_other _ _ hdc, record_remove_other (h.linked L) (h.nodup L) hc hdc hd0 hlt, hK]
  by_cases hd : d = s.head K
  · rw [if_pos ⟨hd ▸ hd0, hd⟩, if_pos hd]
  · rw [if_neg fun e => hd e.2, if_neg hd]

/-! ### Acquire -/

/-- The state in which `Acquire(p, v)` pushes the head of FREE on ACTIVE (R124). -/
def assignedState (p v : Byte) (a m : Nat) (s : State) : State :=
  pinDir p .output (gpioWrite a m (offLevel s.defaultPol)
    ((remove .free s.freeHead s).update s.freeHead (Channel.assign p s.defaultPol a m v)))

/-- The state after `Acquire(p, v)` of a pin mapped to `(a, m)` has taken the head of FREE (R124). -/
def acquiredState (p v : Byte) (a m : Nat) (s : State) : State :=
  push .active s.freeHead (assignedState p v a m s)

theorem assignedState_links (p v : Byte) (a m : Nat) (s : State) :
    (assignedState p v a m s).pool =
        ((remove .free s.freeHead s).update s.freeHead (Channel.assign p s.defaultPol a m v)).pool ∧
      (assignedState p v a m s).head .active = (remove .free s.freeHead s).head .active := by
  simp [assignedState]

theorem acquire_of_free {p v : Byte} {s : State} {a m : Nat} (hp : s.cfg.pinOf p = some (a, m))
    (hne : s.freeHead ≠ noLink) : acquire p v s = .ok (s.freeHead, acquiredState p v a m s) := by
  have hpop : pop .free s = some (s.freeHead, remove .free s.freeHead s) :=
    pop_eq_some.mpr ⟨hne, rfl, rfl⟩
  simp only [acquire, hp, hpop, acquiredState, assignedState]

theorem acquire_eq_ok {p v : Byte} {s t : State} {c : Link} (h : acquire p v s = .ok (c, t)) :
    ∃ a m, s.cfg.pinOf p = some (a, m) ∧ s.freeHead ≠ noLink ∧ c = s.freeHead ∧
      t = acquiredState p v a m s := by
  obtain ⟨a, m, hp, hne, rfl, rfl⟩ := acquire_ok h
  exact ⟨a, m, hp, hne, rfl, rfl⟩

section
variable (p v : Byte) (a m : Nat) {s : State}

/-- The acquired record (R124). -/
theorem record_acquired_self (h : PoolWf s) (hne : s.freeHead ≠ noLink) :
    (acquiredState p v a m s).record s.freeHead =
      { pin := p, pol := s.defaultPol, reg := a, mask := m, target := v, current := 0, up := 0, down := 0
        next := s.activeHead, prev := noLink } := by
  obtain ⟨hpool, hhead⟩ := assignedState_links p v a m s
  have moved := h.threaded.record_move_self (K := .active) (L := .free) (by decide) (h.freeHead_mem hne)
    hpool hhead
  rw [(h.freeHead_record hne).2] at moved
  exact moved

/-- Every other record of the pool after an acquisition (R124): its `prev` link at most. -/
theorem record_acquired_other (legal : s.cfg.legal = true) (h : PoolWf s) (hne : s.freeHead ≠ noLink)
    {d : Link} (hd : d.toNat < s.cfg.nCh) (hdc : d ≠ s.freeHead) :
    (acquiredState p v a m s).record d =
      { s.record d with
        prev :=
          if d = s.activeHead then s.freeHead
          else if d = (s.record s.freeHead).next then noLink
          else (s.record d).prev } := by
  have hd0 := ne_noLink_of_lt legal hd
  obtain ⟨hpool, hhead⟩ := assignedState_links p v a m s
  have moved := h.threaded.record_move_other (K := .active) (L := .free) (by decide)
    (h.freeHead_mem hne) hpool hhead hdc hd0 (h.size ▸ hd)
  rw [(h.freeHead_record hne).1, if_neg hd0] at moved
  exact moved

/-- The heads after an acquisition (R124). -/
theorem heads_acquired (h : PoolWf s) (hne : s.freeHead ≠ noLink) :
    (acquiredState p v a m s).freeHead = (s.record s.freeHead).next ∧
      (acquiredState p v a m s).activeHead = s.freeHead := by
  have popped := remove_head_of_linked (L := .free) h.freeLinked h.freeNodup
    (h.freeHead_mem hne)
  rw [State.head_free, State.head_free, if_pos rfl] at popped
  simp [acquiredState, assignedState, popped]

/-- An acquisition writes nothing but the pool, the heads, OUT, DIR and the trace (R124). -/
theorem acquired_frame :
    { acquiredState p v a m s with
      pool := s.pool, freeHead := s.freeHead, activeHead := s.activeHead, trace := s.trace
      out := s.out, dir := s.dir } = s := by
  simp [acquiredState, assignedState]

theorem acquired_length : (acquiredState p v a m s).pool.length = s.pool.length := by
  simp [acquiredState, assignedState]

theorem acquired_tickCount : (acquiredState p v a m s).tickCount = s.tickCount := by
  simp [acquiredState, assignedState]

end

section
variable {p : Byte} (v : Byte) {a m : Nat} {s : State}

/-- The lists after an acquisition (R124). -/
theorem PoolWf.walks_acquired (h : PoolWf s) (hp : p ≠ allPins)
    (hl : lookup p s = none) (hpin : s.cfg.pinOf p = some (a, m)) (hne : s.freeHead ≠ noLink) :
    freeWalk (acquiredState p v a m s) = (freeWalk s).erase s.freeHead ∧
      activeWalk (acquiredState p v a m s) = s.freeHead :: activeWalk s ∧
      PoolWf (acquiredState p v a m s) :=
  h.acquire hp hl (acquire_of_free hpin hne)

/-- The events of an acquisition, in order (R57, R124). -/
theorem acquired_trace (legal : s.cfg.legal = true) (hp : s.cfg.pinOf p = some (a, m)) :
    (acquiredState p v a m s).trace =
      s.trace ++ [.gpioWrite a m (offLevel s.defaultPol), .pinDir p .output] := by
  obtain ⟨ha, hm⟩ := Params.portBits_of_pinOf legal hp
  simp [acquiredState, assignedState, ha, hm]

/-- Every OUT bit after an acquisition: the pin's bit holds the idle level (R124). -/
theorem outBit_acquired (inv : Inv s) (hp : s.cfg.pinOf p = some (a, m)) (b j : Nat) :
    (acquiredState p v a m s).outBit b j =
      if b = a ∧ m.testBit j = true then decide (s.defaultPol = .inverted) else s.outBit b j := by
  obtain ⟨ha, hm⟩ := Params.portBits_of_pinOf inv.legal hp
  simp [acquiredState, assignedState, outBit_gpioWrite, inv.forms.outWf, ha, hm, (offLevel_eq _).2]

/-- Every direction after an acquisition: the pin is an output (R124). -/
theorem pinDirection_acquired (hp : s.cfg.pinOf p = some (a, m)) (x : Byte) :
    (acquiredState p v a m s).pinDirection x =
      if x = p then some .output else s.pinDirection x := by
  simp [acquiredState, assignedState, pinDirection_pinDir, Params.validPin_of_pinOf hp]

end

/-! ### Release -/

/-- The state in which `Release(c)` pushes the record on FREE (R125). -/
def vacatedState (c : Link) (s : State) : State :=
  resetFields c (gpioWrite (s.record c).reg (s.record c).mask (offLevel (s.record c).pol)
    (pinDir (s.record c).pin .input (remove .active c s)))

theorem vacatedState_links (c : Link) (s : State) :
    (vacatedState c s).pool = ((remove .active c s).update c Channel.resetFields).pool ∧
      (vacatedState c s).head .free = (remove .active c s).head .free := by
  simp [vacatedState]

/-- `Release(c)` in terms of the record before it (R125). -/
theorem release_eq (c : Link) (s : State) : release c s = push .free c (vacatedState c s) := by
  obtain ⟨hpin, hpol, hreg, hmask, -⟩ := Channel.content_eq_iff.mp (content_record_remove .active c c s)
  simp only [release, vacatedState, State.record_pinDir, hpin, hpol, hreg, hmask]

section
variable {c : Link} {s : State}

/-- The released record (R125). -/
theorem record_released_self (h : PoolWf s) (hc : c ∈ activeWalk s) :
    (release c s).record c =
      { pin := 0xFF, pol := .normal, reg := 0, mask := 0, target := 0, current := 0, up := 0, down := 0
        next := s.freeHead, prev := noLink } := by
  obtain ⟨hpool, hhead⟩ := vacatedState_links c s
  rw [release_eq]
  exact h.threaded.record_move_self (K := .free) (L := .active) (by decide) hc hpool hhead

/-- Every other record of the pool after a release (R125): at most its links. -/
theorem record_released_other (legal : s.cfg.legal = true) (h : PoolWf s) (hc : c ∈ activeWalk s)
    {d : Link} (hd : d.toNat < s.cfg.nCh) (hdc : d ≠ c) :
    (release c s).record d =
      { s.record d with
        next := if d = (s.record c).prev then (s.record c).next else (s.record d).next
        prev :=
          if d = (s.record c).next then (s.record c).prev
          else if d = s.freeHead then c
          else (s.record d).prev } := by
  have hd0 := ne_noLink_of_lt legal hd
  have nextActive : (s.record c).next = noLink ∨ (s.record c).next ∈ activeWalk s :=
    (linked_neighbours h.activeLinked h.activeNodup hc).2.2.2
  have notBoth : d = (s.record c).next → d ≠ s.freeHead := fun e =>
    h.active_ne_freeHead (e ▸ nextActive.resolve_left fun e0 => hd0 (e.trans e0))
  obtain ⟨hpool, hhead⟩ := vacatedState_links c s
  rw [release_eq, h.threaded.record_move_other (K := .free) (L := .active) (by decide) hc hpool hhead
    hdc hd0 (h.size ▸ hd)]
  by_cases hn : d = (s.record c).next
  · rw [State.head_free, if_neg (notBoth hn), if_pos hn, if_pos hn]
  · rw [State.head_free, if_neg hn, if_neg hn]

/-- The heads after a release (R125). -/
theorem heads_released (h : PoolWf s) (hc : c ∈ activeWalk s) :
    (release c s).freeHead = c ∧
      (release c s).activeHead = if s.activeHead = c then (s.record c).next else s.activeHead := by
  have removed := remove_head_of_linked (L := .active) h.activeLinked h.activeNodup hc
  rw [State.head_active, State.head_active] at removed
  simp [release_eq, vacatedState, removed]

/-- A release writes nothing but the pool, the heads, OUT, DIR and the trace (R125). -/
theorem released_frame (c : Link) (s : State) :
    { release c s with
      pool := s.pool, freeHead := s.freeHead, activeHead := s.activeHead, trace := s.trace
      out := s.out, dir := s.dir } = s := by
  simp [release]

theorem released_length (c : Link) (s : State) : (release c s).pool.length = s.pool.length := by
  simp [release]

/-- The events of a release, in order (R57, R125). -/
theorem released_trace (inv : Inv s) (hc : c ∈ activeWalk s) :
    (release c s).trace = s.trace ++
      [.pinDir (s.record c).pin .input,
        .gpioWrite (s.record c).reg (s.record c).mask (offLevel (s.record c).pol)] := by
  obtain ⟨ha, hm⟩ := Params.portBits_of_pinOf inv.legal (inv.pool.activeMapped c hc).2
  simp [release_eq, vacatedState, ha, hm]

/-- Every OUT bit after a release: the channel's bit holds the idle level (R125). -/
theorem outBit_released (inv : Inv s) (hc : c ∈ activeWalk s) (b j : Nat) :
    (release c s).outBit b j =
      if b = (s.record c).reg ∧ (s.record c).mask.testBit j = true then
        decide ((s.record c).pol = .inverted)
      else s.outBit b j := by
  obtain ⟨ha, hm⟩ := Params.portBits_of_pinOf inv.legal (inv.pool.activeMapped c hc).2
  rw [release_eq, outBit_push, vacatedState, outBit_resetFields, outBit_gpioWrite _ _ _ _ _ (by
    simpa using inv.forms.outWf)]
  simp [ha, hm, (offLevel_eq _).2]

/-- Every direction after a release: the channel's pin is an input (R125). -/
theorem pinDirection_released (h : PoolWf s) (hc : c ∈ activeWalk s) (x : Byte) :
    (release c s).pinDirection x =
      if x = (s.record c).pin then some .input else s.pinDirection x := by
  simp [release_eq, vacatedState, pinDirection_pinDir, Params.validPin_of_pinOf (h.activeMapped c hc).2]

end

end Sys2Proof.Machine
end

section
/-! SUPPORT. The commands of the armed block in terms of what they find: SET on ALL, on an active pin and on one
it acquires (spec/41_registry.md R132, R133), and the other bodies (R134 to R137). -/

namespace Sys2Proof.Machine

/-! ### The end of SET -/

/-- How SET and SET_PERCENT end once the channels `S` hold the target (R132): the hard reset of `S` with `imm`,
then the result code. -/
def concludeSet (code : ResultCode) (imm : Bool) (S : List Link) (u : State) : State :=
  finish code (if imm then hardReset S u else u)

theorem concludeSet_eq (code : ResultCode) (imm : Bool) (S : List Link) (u : State) :
    concludeSet code imm S u =
      { u with
        pool := if imm then (u.updateAll S (fun r => { r with current := r.target })).pool else u.pool
        tickCount := if imm then 255 else u.tickCount
        trace := if imm then u.trace ++ [.timerReset] else u.trace
        lastStatus := code.toByte } := by
  cases imm with
  | false => rfl
  | true =>
    rw [concludeSet, if_pos rfl, hardReset_eq]
    rfl

section
variable {code : ResultCode} {imm : Bool} {S : List Link} {u : State}

/-- It writes no pin and no direction. -/
theorem concludeSet_environment :
    (concludeSet code imm S u).cfg = u.cfg ∧ (concludeSet code imm S u).resets = u.resets ∧
      (concludeSet code imm S u).out = u.out ∧ (concludeSet code imm S u).dir = u.dir := by
  rw [concludeSet_eq]
  exact ⟨rfl, rfl, rfl, rfl⟩

theorem concludeSet_trace :
    (concludeSet code imm S u).trace = u.trace ++ if imm then [.timerReset] else [] := by
  rw [concludeSet_eq]
  cases imm
  · exact (List.append_nil _).symm
  · rfl

theorem concludeSet_length : (concludeSet code imm S u).pool.length = u.pool.length := by
  rw [concludeSet_eq]
  cases imm
  · rfl
  · exact State.updateAll_length ..

/-- Every record after the end of SET (R126): with `imm` the channels start at their target. -/
theorem record_concludeSet {d : Link} (hd : d.toNat < u.pool.length) :
    (concludeSet code imm S u).record d =
      { u.record d with
        current := if imm = true ∧ d ∈ S then (u.record d).target else (u.record d).current } := by
  cases imm with
  | false => rfl
  | true =>
    refine (record_hardReset S u d hd).trans ?_
    by_cases hS : d ∈ S <;> simp only [hS, and_self, and_false, if_true, if_false]

theorem KeepsShape.concludeSet (hS : ∀ c ∈ S, c ∉ freeWalk u) : KeepsShape u (concludeSet code imm S u) := by
  cases imm with
  | false => exact .finish code u
  | true => exact (KeepsShape.hardReset hS).trans (.finish code _)

end

/-! ### The body of SET, case by case -/

section
variable {p v : Byte} {imm : Bool} {code : ResultCode} {s : State}

/-- SET of ALL (R127, R132). -/
theorem setDuty_of_allPins (hp : p = allPins) :
    setDuty p v imm code s = concludeSet code (decide (imm = true ∧ activeWalk s ≠ [])) (activeWalk s)
      (s.updateAll (activeWalk s) (fun r => { r with target := v })) := by
  simp only [setDuty, hp, if_true, concludeSet, decide_eq_true_eq]

/-- SET of an active pin (R132). -/
theorem setDuty_of_active {c : Link} (hp : p ≠ allPins) (hl : lookup p s = some c) :
    setDuty p v imm code s = concludeSet code imm [c] (s.update c (fun r => { r with target := v })) := by
  simp only [setDuty, hp, if_false, hl, concludeSet]

/-- SET of a valid pin that is not active, with FREE not empty (R124, R132). -/
theorem setDuty_of_acquired {a m : Nat} (hp : p ≠ allPins) (hl : lookup p s = none)
    (hpin : s.cfg.pinOf p = some (a, m)) (hne : s.freeHead ≠ noLink) :
    setDuty p v imm code s = concludeSet code imm [s.freeHead] (acquiredState p v a m s) := by
  simp only [setDuty, hp, if_false, hl, acquire_of_free hpin hne, concludeSet]

/-- SET of a pin that cannot be acquired ends with the code of the abort (R121, R124). -/
theorem setDuty_of_error {e : ResultCode} (hp : p ≠ allPins) (hl : lookup p s = none)
    (ha : acquire p v s = .error e) :
    setDuty p v imm code s = finish e s := by
  simp only [setDuty, hp, if_false, hl, ha]

/-- SET of an active pin as one write of its record (R126, R132). -/
theorem setDuty_of_active_eq {c : Link} (hp : p ≠ allPins) (hl : lookup p s = some c) :
    setDuty p v imm code s =
      { s with
        pool := s.pool.modify c.toNat
          (fun r => { r with target := v, current := if imm then v else r.current })
        tickCount := if imm then 255 else s.tickCount
        trace := if imm then s.trace ++ [.timerReset] else s.trace
        lastStatus := code.toByte } := by
  rw [setDuty_of_active hp hl, concludeSet_eq]
  cases imm with
  | false => rfl
  | true =>
    simp only [if_true, State.updateAll, List.foldl_cons, List.foldl_nil, State.update_pool,
      List.modify_modify_eq]
    rfl

/-- SET of an active pin changes no list and of its record only the duty (R132). -/
theorem setDuty_of_active_record {c : Link} (h : PoolWf s) (hp : p ≠ allPins) (hl : lookup p s = some c) :
    KeepsShape s (setDuty p v imm code s) ∧ (setDuty p v imm code s).record c =
      { s.record c with target := v, current := if imm then v else (s.record c).current } := by
  have hc := (lookup_some hl).1
  have hlt := (h.inRange_of_active hc).2
  have written : KeepsShape s (s.update c (fun r => { r with target := v })) :=
    .update (h.active_not_free hc) fun _ => rfl
  rw [setDuty_of_active hp hl]
  refine ⟨written.trans (.concludeSet fun d hd => ?_), ?_⟩
  · rw [List.mem_singleton.mp hd, written.walks_eq.1]
    exact h.active_not_free hc
  · rw [record_concludeSet (by simpa using hlt), State.record_update _ _ _ _ hlt, if_pos rfl]
    simp only [List.mem_singleton_self, and_true]

end

/-- The code of an acquisition that aborts is not OK (R124). -/
theorem toByte_ne_zero_of_acquire_error {p v : Byte} {s : State} {e : ResultCode}
    (h : acquire p v s = .error e) : e.toByte ≠ 0 := by
  rcases acquire_error.mp h with ⟨-, rfl⟩ | ⟨-, -, rfl⟩ <;> decide

/-- The code SET is given is what it ends with when it takes effect, and nothing else depends on it. -/
theorem setDuty_code (p v : Byte) (imm adjusted : Bool) (s : State) :
    setDuty p v imm (okCode adjusted) s =
      { setDuty p v imm .ok s with
        lastStatus :=
          if (setDuty p v imm .ok s).lastStatus = 0 ∧ adjusted = true then 1
          else (setDuty p v imm .ok s).lastStatus } := by
  have finished : ∀ u : State, finish (okCode adjusted) u =
      { finish .ok u with
        lastStatus := if (finish .ok u).lastStatus = 0 ∧ adjusted = true then 1
          else (finish .ok u).lastStatus } := fun u => by cases adjusted <;> rfl
  by_cases hp : p = allPins
  · rw [setDuty_of_allPins hp, setDuty_of_allPins hp]
    exact finished _
  cases hl : lookup p s with
  | some c =>
    rw [setDuty_of_active hp hl, setDuty_of_active hp hl]
    exact finished _
  | none =>
    cases ha : acquire p v s with
    | error e =>
      rw [setDuty_of_error hp hl ha, setDuty_of_error hp hl ha, finish_lastStatus,
        if_neg fun h => toByte_ne_zero_of_acquire_error ha h.1]
      rfl
    | ok q =>
      obtain ⟨a, m, hpin, hne, -, -⟩ := acquire_eq_ok (c := q.1) (t := q.2) ha
      rw [setDuty_of_acquired hp hl hpin hne, setDuty_of_acquired hp hl hpin hne]
      exact finished _

/-- SET leaves the block armed or not as it was. -/
theorem setDuty_armed (p v : Byte) (imm : Bool) (code : ResultCode) (s : State) :
    (setDuty p v imm code s).armed = s.armed := by
  rcases setDuty_cases p v imm code s with
    ⟨-, h⟩ | ⟨-, c, -, h⟩ | ⟨-, -, e, -, h⟩ | ⟨-, -, c, u, hu, h⟩ <;> rw [h, finish_armed]
  · split <;> simp [(hardReset_results _ _).1]
  · split <;> simp [(hardReset_results _ _).1]
  · split <;> simp [(hardReset_results _ _).1, (acquire_results hu).1]

/-! ### Commands of the armed block -/

theorem exec_set_of_armed {s : State} (armed : s.armed = true) (p : PinArg) (v : Byte) (imm : Bool) :
    exec (.set p v imm) s = .next (setDuty p.field v imm .ok s) :=
  congrArg _ (whenArmed_armed armed _)

theorem exec_setPercent_of_armed {s : State} (armed : s.armed = true) (p : PinArg) (q : Byte) (imm : Bool) :
    exec (.setPercent p q imm) s = .next
      (setDuty p.field (percentToValue q).1 imm (okCode (percentToValue q).2) s) :=
  congrArg _ (whenArmed_armed armed _)

/-- `i` is SET or SET_PERCENT of `p` and `imm` with the duty `v`, and `code` is what it ends with when it takes
effect (R132, R133). -/
def SetsDuty (i : Instr) (p : PinArg) (v : Byte) (imm : Bool) (code : Byte) : Prop :=
  i = .set p v imm ∧ code = 0 ∨
    ∃ q : Byte, i = .setPercent p q imm ∧ v = BitVec.ofNat 8 (min q.toNat 100 * 255 / 100) ∧
      code = if 100 < q.toNat then 1 else 0

theorem okCode_decide (P : Prop) [Decidable P] : (okCode (decide P)).toByte = if P then 1 else 0 := by
  by_cases h : P <;> simp [h, okCode, ResultCode.toByte]

/-- Both commands run one body (R132, R133). -/
theorem SetsDuty.exec_eq {i : Instr} {p : PinArg} {v code : Byte} {imm : Bool} {s : State}
    (h : SetsDuty i p v imm code) (armed : s.armed = true) :
    ∃ adjusted, exec i s = .next (setDuty p.field v imm (okCode adjusted) s) ∧
      (okCode adjusted).toByte = code := by
  rcases h with ⟨rfl, rfl⟩ | ⟨q, rfl, rfl, rfl⟩
  · exact ⟨false, exec_set_of_armed armed .., rfl⟩
  · exact ⟨decide (100 < q.toNat), exec_setPercent_of_armed armed .., okCode_decide _⟩

theorem exec_setFade_of_armed {s : State} (armed : s.armed = true) (p : PinArg) (up down : Duration) :
    exec (.setFade p up down) s = .next
      (updateTargets p.field
        (fun r =>
          { r with
            up := (fadeRate s.cfg.cyclePeriodMs up).1, down := (fadeRate s.cfg.cyclePeriodMs down).1 })
        (okCode ((fadeRate s.cfg.cyclePeriodMs up).2 || (fadeRate s.cfg.cyclePeriodMs down).2)) s) :=
  congrArg _ (whenArmed_armed armed _)

theorem exec_setPolarity_of_armed {s : State} (armed : s.armed = true) (p : PinArg) (raw : Byte) :
    exec (.setPolarity p raw) s = .next
      (updateTargets p.field (fun r => { r with pol := (normPol raw).1 }) (okCode (normPol raw).2) s) :=
  congrArg _ (whenArmed_armed armed _)

theorem exec_endChannel_of_armed {s : State} (armed : s.armed = true) (p : PinArg) :
    exec (.endChannel p) s = .next (endPin p.field s) :=
  congrArg _ (whenArmed_armed armed _)

theorem exec_query_of_armed {s : State} (armed : s.armed = true) (p : PinArg) :
    exec (.query p) s = .next (queryPin p.field s) :=
  congrArg _ (whenArmed_armed armed _)

theorem endPin_of_active {p : Byte} {s : State} {c : Link} (hl : lookup p s = some c) :
    endPin p s = finish .ok (release c s) := by
  simp only [endPin, hl]

theorem queryPin_of_active {p : Byte} {s : State} {c : Link} (hl : lookup p s = some c) :
    queryPin p s = finish .ok { s with resp := responseWord c (s.record c) } := by
  simp only [queryPin, hl]

/-- The fields of a response word (R36). -/
theorem responseWord_fields (c : Link) (r : Channel) :
    (responseWord c r).extractLsb' 47 1 = 1 ∧ (responseWord c r).extractLsb' 46 1 = r.pol.toBit ∧
    (responseWord c r).extractLsb' 40 6 = 0 ∧ (responseWord c r).extractLsb' 32 8 = c ∧
    (responseWord c r).extractLsb' 24 8 = r.target ∧ (responseWord c r).extractLsb' 16 8 = r.current ∧
    (responseWord c r).extractLsb' 8 8 = r.up ∧ (responseWord c r).extractLsb' 0 8 = r.down := by
  have hpol := r.pol.toBit.isLt
  have hc := c.isLt
  have ht := r.target.isLt
  have hcur := r.current.isLt
  have hup := r.up.isLt
  have hdown := r.down.isLt
  refine ⟨?_, ?_, responseWord_reserved c r, ?_, ?_, ?_, ?_, ?_⟩ <;> apply BitVec.eq_of_toNat_eq <;>
    simp only [BitVec.extractLsb'_toNat, responseWord_toNat, Nat.shiftRight_eq_div_pow,
      BitVec.reduceToNat] <;> omega

/-! ### Updates of every target -/

/-- "for c in S" writes records only (R13). -/
theorem updateAll_frame (s : State) (S : List Link) (f : Channel → Channel) :
    { s.updateAll S f with pool := s.pool } = s := by
  simp

theorem updateTargets_of_targets {p : Byte} {f : Channel → Channel} {code : ResultCode} {s : State}
    (h : p = allPins ∨ targets p s ≠ []) :
    updateTargets p f code s = finish code (s.updateAll (targets p s) f) := by
  rcases updateTargets_cases p f code s with ⟨hp, ht, -⟩ | ⟨-, he⟩
  · exact absurd h (not_or.mpr ⟨hp, not_not.mpr ht⟩)
  · exact he

end Sys2Proof.Machine
end

section
/-! SUPPORT. OUT bit by bit as the last write of an event sequence leaves it (spec/10_state.md R41), and the
TICK that starts a cycle (spec/42_multiplexer.md R171, R172). -/

namespace Sys2Proof.Machine

/-! ### One bit under a replay -/

/-- Whether an event writes bit `j` of `OUT[b]` (R55). -/
def Output.drives (b j : Nat) : Output → Prop
  | .gpioWrite a m _ => b = a ∧ m.testBit j = true
  | .pinDir _ _ => False
  | .timerReset => False

/-- The state with OUT as a sequence of events makes it (R41). -/
def State.replay (s : State) (es : List Output) : State := { s with out := replayOut s.out es }

theorem replay_append (s : State) (es fs : List Output) : s.replay (es ++ fs) = (s.replay es).replay fs := by
  simp only [State.replay, replayOut, List.foldl_append]

theorem replay_wf {s : State} (hwf : Memory.wf s.out = true) (es : List Output) :
    Memory.wf (s.replay es).out = true := replayOut_wf es hwf

/-- One event on one bit: a write that drives it sets it, nothing else touches it. -/
theorem outBit_replay_one {s : State} (hwf : Memory.wf s.out = true) {a m : Nat} {l : Level}
    (hfit : (Output.gpioWrite a m l).fitsPorts s.cfg) (b j : Nat) :
    (s.replay [.gpioWrite a m l]).outBit b j =
      if b = a ∧ m.testBit j = true then decide (l = .high) else s.outBit b j := by
  obtain ⟨ha, hm⟩ := hfit
  have hout : (s.replay [.gpioWrite a m l]).out = (gpioWrite a m l s).out := by
    rw [gpioWrite_out, Params.addrBits_of_lt ha, Params.maskBits_of_lt hm]
    rfl
  rw [← (gpioWriteTouchesOnlyItsBits s a m l hwf ha hm).1 b j]
  exact outBit_congr (s := gpioWrite a m l s) (t := s.replay _) rfl rfl hout b j

theorem outBit_replay_of_undriven {s : State} {es : List Output} {b j : Nat}
    (hwf : Memory.wf s.out = true) (hfit : ∀ e ∈ es, e.fitsPorts s.cfg) (h : ∀ e ∈ es, ¬ e.drives b j) :
    (s.replay es).outBit b j = s.outBit b j := by
  induction es generalizing s with
  | nil => rfl
  | cons e es ih =>
    obtain ⟨he, hes⟩ := List.forall_mem_cons.mp hfit
    obtain ⟨hd, hds⟩ := List.forall_mem_cons.mp h
    rw [← List.singleton_append, replay_append, ih (replay_wf hwf _) hes hds]
    cases e with
    | gpioWrite a m l => exact (outBit_replay_one hwf he b j).trans (if_neg hd)
    | pinDir _ _ => rfl
    | timerReset => rfl

/-- A bit holds the level of the last write that drives it. -/
theorem outBit_replay_of_last {s : State} {es fs : List Output} {b j a m : Nat} {l : Level}
    (hwf : Memory.wf s.out = true) (hfit : ∀ e ∈ es ++ .gpioWrite a m l :: fs, e.fitsPorts s.cfg)
    (hlast : (Output.gpioWrite a m l).drives b j) (h : ∀ e ∈ fs, ¬ e.drives b j) :
    (s.replay (es ++ .gpioWrite a m l :: fs)).outBit b j = decide (l = .high) := by
  obtain ⟨-, hrest⟩ := List.forall_mem_append.mp hfit
  obtain ⟨he, hfs⟩ := List.forall_mem_cons.mp hrest
  rw [← List.singleton_append, replay_append, replay_append,
    outBit_replay_of_undriven (replay_wf (replay_wf hwf _) _) hfs h]
  exact (outBit_replay_one (replay_wf hwf es) he b j).trans (if_pos hlast)

theorem level_of_high (l : Level) : (if decide (l = .high) = true then Level.high else .low) = l := by
  cases l <;> rfl

/-- The level of a mapped pin is its one OUT bit (R9, R41). -/
theorem pinLevel_of_outBit {s : State} {p : Byte} {a i : Nat} (hp : s.cfg.pinOf p = some (a, 2 ^ i)) :
    s.pinLevel p = some (if s.outBit a i = true then .high else .low) := by
  simp only [State.pinLevel, hp, Nat.and_two_pow, State.outBit]
  by_cases hbit : (s.outReg a).testBit i = true <;> simp [hbit]

/-! ### The wrap tick -/

/-- OUT after a wrap tick is what its events make of it (R172). -/
theorem wrapTick_out {s : State} (h : PoolWf s) :
    (∀ e ∈ (activeWalk s).map (fun c => wrapEvent s.cfg (s.record c)), e.fitsPorts s.cfg) ∧
      (wrapTick s).out =
        replayOut s.out ((activeWalk s).map (fun c => wrapEvent s.cfg (s.record c))) := by
  have hemits : Emits s (wrapTick s) := emits_foldl (fun u c =>
    (emits_update u c Channel.fade).trans (emits_gpioWrite ..)) _ _
  obtain ⟨-, es, hfit, htrace, hout, -⟩ := hemits
  have hevents := foldl_wrapChannel_trace s h.activeNodup
    (fun c hc => (h.inRange_of_active hc).2)
  obtain rfl := List.append_cancel_left (htrace.symm.trans hevents)
  exact ⟨hfit, hout⟩

theorem wrapTick_frame (s : State) : (wrapTick s).cfg = s.cfg ∧ (wrapTick s).resets = s.resets ∧
    (wrapTick s).tickCount = s.tickCount :=
  ⟨foldl_keeps State.cfg wrapChannel (fun _ _ => rfl) ..,
    foldl_keeps State.resets wrapChannel (fun _ _ => rfl) ..,
    foldl_keeps State.tickCount wrapChannel (fun _ _ => rfl) ..⟩

/-- The event of an active channel writes its own register and mask uncut (R28). -/
theorem Inv.wrapEvent_eq {s : State} (inv : Inv s) {c : Link} (hc : c ∈ activeWalk s) :
    wrapEvent s.cfg (s.record c) = .gpioWrite (s.record c).reg (s.record c).mask
      (if (s.record c).fade.current = 0 then offLevel (s.record c).pol else onLevel (s.record c).pol) := by
  obtain ⟨ha, hm⟩ := Params.portBits_of_pinOf inv.legal (inv.pool.activeMapped c hc).2
  rw [wrapEvent, ha, hm]

/-- No other active channel's event writes a bit of the channel's mask: pins are unique on ACTIVE and mapped
to different bits (R9, R28). -/
theorem Inv.wrapEvent_not_drives {s : State} (inv : Inv s) {c d : Link} (hc : c ∈ activeWalk s)
    (hd : d ∈ activeWalk s) (hdc : d ≠ c) {j : Nat} (hbit : (s.record c).mask.testBit j = true) :
    ¬ (wrapEvent s.cfg (s.record d)).drives (s.record c).reg j := by
  rw [inv.wrapEvent_eq hd]
  exact Params.pinOf_disjoint inv.legal (inv.pool.activeMapped c hc).2 (inv.pool.activeMapped d hd).2
    (inv.pool.pin_ne hc hd hdc).symm hbit

/-- After a wrap tick an active channel's pin is off where its new `current` is 0, and else on (R172): no
other channel's write reaches its bit. -/
theorem wrapTick_pinLevel {s : State} (inv : Inv s) {c : Link} (hc : c ∈ activeWalk s) :
    (wrapTick s).pinLevel (s.record c).pin =
      some (if (s.record c).fade.current = 0 then offLevel (s.record c).pol
        else onLevel (s.record c).pol) := by
  obtain ⟨-, hmapped⟩ := inv.pool.activeMapped c hc
  obtain ⟨-, i, -, hmask⟩ := Params.pinOf_fits inv.legal hmapped
  have hbit : (s.record c).mask.testBit i = true := by rw [hmask, Nat.testBit_two_pow_self]
  obtain ⟨hcfg, hresets, -⟩ := wrapTick_frame s
  obtain ⟨hfit, hout⟩ := wrapTick_out inv.pool
  obtain ⟨before, after, hwalk⟩ := List.append_of_mem hc
  have houtBit : (wrapTick s).outBit (s.record c).reg i =
      (s.replay ((activeWalk s).map (fun c => wrapEvent s.cfg (s.record c)))).outBit (s.record c).reg i :=
    outBit_congr (s := s.replay _) hcfg hresets hout _ _
  have hafter : ∀ d ∈ after, d ∈ activeWalk s ∧ d ≠ c := fun d hd => by
    have hnodup := inv.pool.activeNodup
    rw [hwalk] at hnodup
    obtain ⟨-, hrest, -⟩ := List.nodup_append'.mp hnodup
    exact ⟨hwalk ▸ List.mem_append_right _ (List.mem_cons_of_mem _ hd),
      fun e => (List.nodup_cons.mp hrest).1 (e ▸ hd)⟩
  rw [pinLevel_of_outBit (a := (s.record c).reg) (i := i) (by rw [hcfg, hmapped, hmask]), houtBit]
  rw [hwalk, List.map_append, List.map_cons, inv.wrapEvent_eq hc] at hfit ⊢
  rw [outBit_replay_of_last inv.forms.outWf hfit ⟨rfl, hbit⟩]
  · rw [level_of_high]
  · intro e he
    obtain ⟨d, hd, rfl⟩ := List.mem_map.mp he
    obtain ⟨hd, hdc⟩ := hafter d hd
    exact inv.wrapEvent_not_drives hc hd hdc hbit

/-- A TICK that finds the counter at 255 starts a cycle (R171, R172): for an active channel, one fade step and
the level of the new `current`. -/
theorem step_wrapTick {t : State} {c : Link} (inv : Inv t) (armed : t.armed = true)
    (htick : t.tickCount = 255) (hc : c ∈ activeWalk t) (rest : List Input) :
    ∃ u, step { t with inputs := .tick :: rest } = .next u ∧ u.tickCount = 0 ∧
      u.record c = (t.record c).fade ∧
      u.pinLevel (t.record c).pin =
        some (if (t.record c).fade.current = 0 then offLevel (t.record c).pol
          else onLevel (t.record c).pol) := by
  obtain ⟨counted, hcounted⟩ : ∃ w, w = (t.withArrivals rest t.arbitrations).countTick := ⟨_, rfl⟩
  have shape : KeepsShape t counted := hcounted ▸ .of_pool_eq rfl rfl rfl rfl
  have inv' : Inv counted := hcounted ▸ inv.of_keepsShape (.of_pool_eq rfl rfl rfl rfl)
    (.of_eq rfl rfl rfl rfl) rfl rfl
  have hrec : counted.record c = t.record c := hcounted ▸ rfl
  have hzero : counted.tickCount = 0 := by
    rw [hcounted]
    exact (congrArg (· + 1) htick).trans (by decide)
  have hc' : c ∈ activeWalk counted := shape.walks_eq.2 ▸ hc
  have hstep : step { t with inputs := .tick :: rest } =
      .next (tickStep (t.withArrivals rest t.arbitrations)) :=
    step_eq_takeInput (s := { t with inputs := .tick :: rest }) inv.legal rfl
  have hwrap : tickStep (t.withArrivals rest t.arbitrations) = wrapTick counted := by
    rcases tickStep_cases (t.withArrivals rest t.arbitrations) with ⟨h, -⟩ | ⟨-, -, h⟩ | ⟨-, h, -⟩
    · exact absurd (armed.symm.trans h) (by decide)
    · rw [h, hcounted]
    · exact absurd htick h
  refine ⟨wrapTick counted, by rw [hstep, hwrap], (wrapTick_frame counted).2.2.trans hzero, ?_, ?_⟩
  · rw [wrapTick, foldl_wrapChannel_record counted c inv'.pool.activeNodup
      (inv'.pool.inRange_of_active hc').2, if_pos hc', hrec]
  · rw [← hrec]
    exact wrapTick_pinLevel inv' hc'

end Sys2Proof.Machine
end

section
/-! The statements about the channel commands (spec/41_registry.md R122 to R137), and that active pins are
outputs after every step. -/

namespace Sys2Proof.Machine

/-! ### Active pins are outputs -/

theorem ActivePinsDriven.of_no_active {s : State} (h : s.activeHead = noLink) : ActivePinsDriven s := by
  intro c hc
  rw [activeWalk_of_activeHead_none h] at hc
  cases hc

theorem ActivePinsDriven.of_keepsShape {s t : State} (h : ActivePinsDriven s) (k : KeepsShape s t)
    (hdir : t.dir = s.dir) (hresets : t.resets = s.resets) : ActivePinsDriven t := by
  intro c hc
  obtain ⟨hpin, -⟩ := Channel.place_eq_iff.mp (k.place c)
  rw [hpin, pinDirection_congr k.cfg hresets hdir]
  exact h c (k.walks_eq.2 ▸ hc)

theorem ActivePinsDriven.withArrivals {s : State} (h : ActivePinsDriven s) (es : List Input) (n : Nat) :
    ActivePinsDriven (s.withArrivals es n) := h.of_keepsShape (.withArrivals s es n) rfl rfl

/-- The new channel's pin is made an output, and no other direction is written (R124). -/
theorem ActivePinsDriven.acquired {s : State} {p v : Byte} {a m : Nat} (h : ActivePinsDriven s)
    (inv : Inv s) (hp : p ≠ allPins) (hl : lookup p s = none) (hpin : s.cfg.pinOf p = some (a, m))
    (hne : s.freeHead ≠ noLink) : ActivePinsDriven (acquiredState p v a m s) := by
  intro c hc
  rw [(inv.pool.walks_acquired v hp hl hpin hne).2.1] at hc
  rw [pinDirection_acquired v hpin]
  rcases List.mem_cons.mp hc with rfl | hc
  · rw [record_acquired_self p v a m inv.pool hne, if_pos rfl]
  · rw [record_acquired_other p v a m inv.legal inv.pool hne (inv.lt_of_active hc)
      (inv.pool.active_ne_freeHead hc), if_neg (lookup_none.mp hl c hc)]
    exact h c hc

/-- The pin made an input is no longer active, because pins are unique on ACTIVE (R28, R125). -/
theorem ActivePinsDriven.released {s : State} {c : Link} (h : ActivePinsDriven s) (inv : Inv s)
    (hc : c ∈ activeWalk s) : ActivePinsDriven (release c s) := by
  intro d hd
  rw [(inv.pool.release hc).2.1] at hd
  obtain ⟨hdc, hd⟩ := inv.pool.activeNodup.mem_erase_iff.mp hd
  rw [record_released_other inv.legal inv.pool hc (inv.lt_of_active hd) hdc,
    pinDirection_released inv.pool hc, if_neg (inv.pool.pin_ne hc hd hdc)]
  exact h d hd

theorem CommandEffect.activePinsDriven {s t : State} {i : Instr} (h : ActivePinsDriven s) (inv : Inv s)
    (heff : CommandEffect s i t) : ActivePinsDriven t := by
  have finished : ∀ (e : ResultCode) (u : State), ActivePinsDriven u → ActivePinsDriven (finish e u) :=
    fun e u hu => hu.of_keepsShape (.finish e u) rfl rfl
  cases heff with
  | nop => exact h
  | begin q => exact .of_no_active rfl
  | abort => exact finished _ _ h
  | queryUnknown => exact h.of_keepsShape (.of_pool_eq rfl rfl rfl rfl) rfl rfl
  | queryFound => exact h.of_keepsShape (.of_pool_eq rfl rfl rfl rfl) rfl rfl
  | @rewrite _ S f imm _ _ active place =>
    have hS : ∀ c ∈ S, c ∉ freeWalk s := fun c hc => inv.pool.active_not_free (active c hc)
    have rewritten : KeepsShape s (s.updateAll S f) := .updateAll hS place
    apply finished
    cases imm with
    | false => exact h.of_keepsShape rewritten (by simp) (by simp)
    | true =>
      exact h.of_keepsShape (rewritten.trans (.hardReset (rewritten.walks_eq.1 ▸ hS)))
        (by simp [hardReset_eq]) (by simp [hardReset_eq])
  | @acquire _ p v c u imm adjusted _ pin inactive taken =>
    obtain ⟨a, m, hpin, hne, rfl, rfl⟩ := acquire_eq_ok taken
    obtain ⟨-, hactive, hwf⟩ := inv.pool.walks_acquired v pin inactive hpin hne
    have hS : ∀ c ∈ [s.freeHead], c ∉ freeWalk (acquiredState p v a m s) := fun c hc =>
      List.mem_singleton.mp hc ▸ hwf.active_not_free (hactive ▸ List.mem_cons_self ..)
    have hdriven := h.acquired (v := v) inv pin inactive hpin hne
    obtain ⟨-, hresets, -, hdir⟩ := concludeSet_environment (code := okCode adjusted) (imm := imm)
      (S := [s.freeHead]) (u := acquiredState p v a m s)
    exact hdriven.of_keepsShape (.concludeSet hS) hdir hresets
  | release _ active => exact finished _ _ (h.released inv active)

theorem activePinsDriven_tickStep {s : State} (h : ActivePinsDriven s) (inv : Inv s) :
    ActivePinsDriven (tickStep s) :=
  h.of_keepsShape (.tickStep inv.pool)
    (tickStep_keeps State.dir (fun _ => rfl) (fun _ _ => rfl) (fun _ _ _ => rfl) s)
    (tickStep_keeps State.resets (fun _ => rfl) (fun _ _ => rfl) (fun _ _ _ => rfl) s)

/-- Settles O60: directions are written by `Acquire` and `Release` only, each for the pin that goes on or off
ACTIVE. -/
theorem everyStepKeepsActivePinsDriven : Obligations.EveryStepKeepsActivePinsDriven := by
  intro s t inv hdriven hstep
  obtain ⟨-, heff⟩ := step_effect hstep
  cases heff with
  | idle => exact hdriven
  | command effect => exact effect.activePinsDriven (hdriven.withArrivals _ _) (inv.withArrivals ..)
  | illegal => exact hdriven.of_keepsShape (.of_pool_eq rfl rfl rfl rfl) rfl rfl
  | tick => exact activePinsDriven_tickStep (hdriven.withArrivals _ _) (inv.withArrivals ..)
  | reset => exact .of_no_active rfl

/-! ### Operands and BEGIN -/

/-- Settles O19: the model's NormPol is the rule's. -/
theorem polarityArgumentIsNormalised : Obligations.PolarityArgumentIsNormalised := fun _ => rfl

/-- Settles O20: the quotient is at most 255, so eight bits hold it. -/
theorem percentIsConvertedByFloorDivision : Obligations.PercentIsConvertedByFloorDivision := by
  refine fun percent => ⟨?_, rfl⟩
  have fits : min percent.toNat 100 * 255 / 100 < 2 ^ 8 := by omega
  exact (BitVec.toNat_ofNat ..).trans (Nat.mod_eq_of_lt fits)

/-- Settles O17: BEGIN does PoolInit and writes its registers, ARG_ADJUSTED exactly where NormPol adjusts. -/
theorem beginReinitialisesAndArms : Obligations.BeginReinitialisesAndArms := by
  intro s q
  rw [← okCode_decide]
  rfl

/-! ### SET and SET_PERCENT -/

/-- Settles O24: one write of the record, which the hard reset extends by `current`. -/
theorem setUpdatesAnActivePin : Obligations.SetUpdatesAnActivePin := by
  intro s p imm c armed hp hl
  refine ⟨fun v => ?_, fun q => ?_⟩
  · rw [exec_set_of_armed armed, setDuty_of_active_eq hp hl]
    rfl
  · rw [exec_setPercent_of_armed armed, setDuty_of_active_eq hp hl, ← okCode_decide]
    rfl

/-- Settles O26: validity of the pin is checked before an empty FREE. -/
theorem acquisitionAbortsWithoutEffect : Obligations.AcquisitionAbortsWithoutEffect := by
  intro s p v q imm armed hp hl
  rw [exec_set_of_armed armed, exec_setPercent_of_armed armed]
  refine ⟨fun undefined => ?_, fun defined empty => ?_⟩
  · have aborts : ∀ w, acquire p.field w s = .error .invalidPin := fun _ =>
      acquire_error.mpr (.inl ⟨undefined, rfl⟩)
    rw [setDuty_of_error hp hl (aborts _), setDuty_of_error hp hl (aborts _)]
    exact ⟨rfl, rfl⟩
  · have aborts : ∀ w, acquire p.field w s = .error .poolExhausted := fun _ =>
      acquire_error.mpr (.inr ⟨Option.ne_none_iff_exists'.mp defined, empty, rfl⟩)
    rw [setDuty_of_error hp hl (aborts _), setDuty_of_error hp hl (aborts _)]
    exact ⟨rfl, rfl⟩

/-- Settles O28: both commands run one body, which only hands its code on. -/
theorem setPercentIsSetOfTheConvertedValue : Obligations.SetPercentIsSetOfTheConvertedValue := by
  intro s p q imm
  cases armed : s.armed with
  | false =>
    refine ⟨finish .notArmed s, congrArg _ (whenArmed_idle armed _), ?_⟩
    exact congrArg _ (whenArmed_idle armed _)
  | true =>
    refine ⟨_, exec_set_of_armed armed .., ?_⟩
    rw [exec_setPercent_of_armed armed, percentToValue, setDuty_code]
    simp only [decide_eq_true_eq]

/-! ### The wildcard forms -/

/-- Settles O27: a list of records is rewritten record by record, with or without the hard reset after; where a
record is active, ACTIVE is not empty. -/
theorem setAllUpdatesEveryActiveChannel : Obligations.SetAllUpdatesEveryActiveChannel := by
  intro s p imm v code i armed hp hduty
  obtain ⟨adjusted, hexec, rfl⟩ := SetsDuty.exec_eq hduty armed
  rw [setDuty_of_allPins hp] at hexec
  have hframe := updateAll_frame s (activeWalk s) (fun r => { r with target := v })
  have hlen := s.updateAll_length (activeWalk s) (fun r => { r with target := v })
  have hrec := fun d => s.record_updateAll (activeWalk s) (fun r => { r with target := v }) d (fun _ => rfl)
  refine ⟨_, hexec, fun d hd => ?_, concludeSet_length.trans hlen, ?_, ?_, finish_lastStatus .., ?_⟩
  · rw [record_concludeSet (hlen ▸ hd), hrec d hd]
    by_cases hmem : d ∈ activeWalk s
    · simp only [hmem, List.ne_nil_of_mem hmem, if_true, ne_eq, not_false_eq_true, and_true, decide_eq_true_eq]
    · simp only [hmem, if_false, and_false]
  · rw [concludeSet_eq, State.updateAll_tickCount]
    simp only [decide_eq_true_eq]
  · rw [concludeSet_trace, State.updateAll_trace]
    simp only [decide_eq_true_eq]
  · rw [concludeSet_eq]
    exact congrArg (fun u : State =>
      { u with tickCount := s.tickCount, trace := s.trace, lastStatus := s.lastStatus }) hframe

/-! ### Updates of every target -/

/-- Settles O31: the targets are rewritten one by one, and writing the same rates twice is writing them once. -/
theorem setFadeWritesTheRates : Obligations.SetFadeWritesTheRates := by
  intro s p upMs downMs armed applies
  refine ⟨_, (exec_setFade_of_armed armed ..).trans (congrArg _ (updateTargets_of_targets applies)),
    fun d hd => State.record_updateAll s _ _ d (fun _ => rfl) hd, State.updateAll_length .., ?_, ?_⟩
  · rw [finish_lastStatus, ← okCode_decide, Bool.decide_or, Bool.decide_eq_true, Bool.decide_eq_true]
  · exact congrArg (fun u : State => { u with lastStatus := s.lastStatus }) (updateAll_frame s _ _)

/-- Settles O32: as SET_FADE, with the polarity for the rates. -/
theorem setPolarityWritesThePolarity : Obligations.SetPolarityWritesThePolarity := by
  intro s p raw armed applies
  refine ⟨_, (exec_setPolarity_of_armed armed ..).trans (congrArg _ (updateTargets_of_targets applies)),
    fun d hd => State.record_updateAll s _ _ d (fun _ => rfl) hd, State.updateAll_length .., ?_, ?_⟩
  · exact (finish_lastStatus ..).trans (okCode_decide _)
  · exact congrArg (fun u : State => { u with lastStatus := s.lastStatus }) (updateAll_frame s _ _)

/-- Settles O33: a pin that lookup does not find has no targets. -/
theorem unknownPinIsReportedWithoutEffect : Obligations.UnknownPinIsReportedWithoutEffect := by
  intro s p armed hl
  have noTargets : ∀ (hp : p.field ≠ allPins) (f : Channel → Channel) (code : ResultCode),
      updateTargets p.field f code s = finish .unknownPin s := fun hp f code => by
    rw [updateTargets, targets_pin hp, hl, if_pos ⟨hp, rfl⟩]
  refine ⟨fun hp upMs downMs => ?_, fun hp raw => ?_, ?_, ?_⟩
  · rw [exec_setFade_of_armed armed, noTargets hp]
    rfl
  · rw [exec_setPolarity_of_armed armed, noTargets hp]
    rfl
  · rw [exec_endChannel_of_armed armed, endPin, hl]
    rfl
  · rw [exec_query_of_armed armed, queryPin, hl]
    rfl

/-! ### QUERY -/

/-- Settles O36: the response word as a number gives its fields. -/
theorem queryReportsTheRecord : Obligations.QueryReportsTheRecord := by
  intro s p c armed hl
  refine ⟨responseWord c (s.record c), ?_, responseWord_fields c (s.record c)⟩
  rw [exec_query_of_armed armed, queryPin_of_active hl]
  rfl

/-! ### Acquisition and release of a pin -/

/-- Settles O25: `Acquire` on the head of FREE, then the end of SET on that record. -/
theorem setAcquiresANewPin : Obligations.SetAcquiresANewPin := by
  intro s p imm a m v code i inv armed hp hl hpin hne hduty
  obtain ⟨adjusted, hexec, rfl⟩ := SetsDuty.exec_eq hduty armed
  rw [setDuty_of_acquired hp hl hpin hne] at hexec
  obtain ⟨hfree, hactive, hwf⟩ := inv.pool.walks_acquired v hp hl hpin hne
  obtain ⟨hfreeHead, hactiveHead⟩ := heads_acquired p.field v a m inv.pool hne
  have hself := record_acquired_self p.field v a m inv.pool hne
  have hothers := fun d => record_acquired_other p.field v a m (d := d) inv.legal inv.pool hne
  have hlen := acquired_length p.field v a m (s := s)
  have htick := acquired_tickCount p.field v a m (s := s)
  have htrace := acquired_trace v inv.legal hpin
  have hbits := outBit_acquired v inv hpin
  have hdirs := pinDirection_acquired v hpin
  have hframe := acquired_frame p.field v a m (s := s)
  generalize acquiredState p.field v a m s = u at *
  obtain ⟨hcfg, hresets, hout, hdir⟩ := concludeSet_environment (code := okCode adjusted) (imm := imm)
    (S := [s.freeHead]) (u := u)
  have hmem : s.freeHead ∈ activeWalk u := hactive ▸ List.mem_cons_self ..
  have shape : KeepsShape u (concludeSet (okCode adjusted) imm [s.freeHead] u) :=
    .concludeSet fun c hc => List.mem_singleton.mp hc ▸ hwf.active_not_free hmem
  refine ⟨_, hexec, ?_, fun d hd hdc => ?_, shape.size.trans hlen, shape.freeHead.trans hfreeHead,
    shape.activeHead.trans hactiveHead, shape.walks_eq.2.trans hactive, ?_, ?_, fun b j => ?_, fun x => ?_,
    ?_, finish_lastStatus .., ?_⟩
  · rw [record_concludeSet (hwf.inRange_of_active hmem).2, hself]
    simp only [List.mem_singleton_self, and_true]
  · rw [record_concludeSet (by rwa [hlen, inv.pool.size]), hothers d hd hdc]
    simp only [List.mem_singleton, hdc, and_false, if_false]
  · rw [shape.walks_eq.1, hfree, inv.pool.freeHead_cons_erase hne]
  · rw [concludeSet_trace, htrace, (offLevel_eq _).1]
  · rw [outBit_congr hcfg hresets hout, hbits]
  · rw [pinDirection_congr hcfg hresets hdir, hdirs]
  · rw [concludeSet_eq, htick]
  · rw [concludeSet_eq]
    exact congrArg (fun w : State => { w with tickCount := s.tickCount, lastStatus := s.lastStatus }) hframe

/-- Settles O34: `Release` of the one record with the pin. -/
theorem endReleasesTheChannel : Obligations.EndReleasesTheChannel := by
  intro s p c inv armed hl
  obtain ⟨hc, hp⟩ := lookup_some hl
  have hexec := exec_endChannel_of_armed armed p
  rw [endPin_of_active hl] at hexec
  obtain ⟨hfree, hactive, -⟩ := inv.pool.release hc
  obtain ⟨hfreeHead, hactiveHead⟩ := heads_released inv.pool hc
  have hself := record_released_self inv.pool hc
  have hothers := fun d => record_released_other (d := d) inv.legal inv.pool hc
  have hlen := released_length c s
  have htrace := released_trace inv hc
  have hbits := outBit_released inv hc
  have hdirs := pinDirection_released inv.pool hc
  have hframe := released_frame c s
  generalize release c s = u at *
  have shape := KeepsShape.finish .ok u
  refine ⟨finish .ok u, hexec, hself, fun d hd hdc => hothers d hd hdc, hlen, hfreeHead, hactiveHead,
    shape.walks_eq.2.trans hactive, shape.walks_eq.1.trans hfree, ?_, hbits, fun x => ?_, rfl, ?_⟩
  · rw [finish_trace, htrace, hp, (offLevel_eq _).1]
  · rw [pinDirection_finish, hdirs, hp]
  · exact congrArg (fun w : State => { w with lastStatus := s.lastStatus }) hframe

/-! ### A SET, then another step -/

/-- A SET of one pin that ends OK leaves the pin active with the target set (R124, R132). -/
theorem exists_active_of_setDuty {p v : Byte} {imm : Bool} {s : State} (inv : Inv s) (hp : p ≠ allPins)
    (hok : (setDuty p v imm .ok s).lastStatus = 0) :
    ∃ c ∈ activeWalk (setDuty p v imm .ok s), ((setDuty p v imm .ok s).record c).pin = p ∧
      ((setDuty p v imm .ok s).record c).target = v := by
  cases hl : lookup p s with
  | some c =>
    obtain ⟨shape, hrec⟩ := setDuty_of_active_record (imm := imm) (code := .ok) (v := v) inv.pool hp hl
    obtain ⟨hc, hpin⟩ := lookup_some hl
    refine ⟨c, shape.walks_eq.2 ▸ hc, ?_⟩
    rw [hrec]
    exact ⟨hpin, rfl⟩
  | none =>
    cases ha : acquire p v s with
    | error e =>
      rw [setDuty_of_error hp hl ha, finish_lastStatus] at hok
      exact absurd hok (toByte_ne_zero_of_acquire_error ha)
    | ok q =>
      obtain ⟨a, m, hpin, hne, -, -⟩ := acquire_eq_ok (c := q.1) (t := q.2) ha
      obtain ⟨-, hactive, hwf⟩ := inv.pool.walks_acquired v hp hl hpin hne
      have hc := hactive ▸ List.mem_cons_self (a := s.freeHead)
      have shape := KeepsShape.concludeSet (code := .ok) (imm := imm) (S := [s.freeHead])
        fun d hd => List.mem_singleton.mp hd ▸ hwf.active_not_free hc
      rw [setDuty_of_acquired hp hl hpin hne]
      refine ⟨s.freeHead, shape.walks_eq.2 ▸ hc, ?_⟩
      rw [record_concludeSet (hwf.inRange_of_active hc).2,
        record_acquired_self p v a m inv.pool hne]
      exact ⟨rfl, rfl⟩

/-- Settles O30: whether updated or acquired, the channel is active with the target, and the only one with the
pin. -/
theorem queryAfterSetReportsTheTarget : Obligations.QueryAfterSetReportsTheTarget := by
  intro s t p v imm inv armed hp hset hok
  have inv' := exec_keeps_inv inv hset
  rw [exec_set_of_armed armed, Host.Outcome.next.injEq] at hset
  obtain ⟨c, hc, hpin, htarget⟩ := exists_active_of_setDuty (v := v) (imm := imm) inv hp (hset ▸ hok)
  rw [hset] at hc hpin htarget
  have armed' : t.armed = true := by rw [← hset, setDuty_armed, armed]
  refine ⟨_, (exec_query_of_armed armed' p).trans
    (congrArg _ (queryPin_of_active (inv'.pool.lookup_eq_some.mpr ⟨hc, hpin⟩))), finish_lastStatus .., ?_⟩
  obtain ⟨found, -, -, -, target, -⟩ := responseWord_fields c (t.record c)
  exact ⟨found, target.trans htarget⟩

/-- Settles O35: END leaves the pin inactive and its record at the head of FREE, which SET then acquires. -/
theorem reacquiredChannelHasNoResidue : Obligations.ReacquiredChannelHasNoResidue := by
  intro s p v c inv armed hl
  obtain ⟨hc, hpin⟩ := lookup_some hl
  have hp : p.field ≠ allPins := hpin ▸ (inv.pool.activeMapped c hc).1
  have hmapped := hpin ▸ (inv.pool.activeMapped c hc).2
  obtain ⟨t, hend, -, hothers, -, hfreeHead, -, hactive, -, -, -, -, -, hframe⟩ :=
    endReleasesTheChannel s p c inv armed hl
  have hcfg : t.cfg = s.cfg := (congrArg State.cfg hframe :)
  have armed' : t.armed = true := (congrArg State.armed hframe :).trans armed
  have inactive : lookup p.field t = none := lookup_none.mpr fun d hd => by
    rw [hactive] at hd
    obtain ⟨hdc, hd⟩ := inv.pool.activeNodup.mem_erase_iff.mp hd
    rw [hothers d (inv.lt_of_active hd) hdc]
    exact hpin ▸ inv.pool.pin_ne hc hd hdc
  have inv' := exec_keeps_inv inv hend
  obtain ⟨u, hset, hrec, -, -, -, -, hactive', -, -, -, -, -, hok, -⟩ :=
    setAcquiresANewPin t p false _ _ v 0 (.set p v false) inv' armed' hp inactive (hcfg ▸ hmapped)
      (hfreeHead ▸ (inv.pool.inRange_of_active hc).1) (.inl ⟨rfl, rfl⟩)
  rw [hfreeHead] at hrec hactive'
  refine ⟨t, u, hend, hset, (exec_keeps_inv inv' hset).pool.lookup_eq_some.mpr
    ⟨hactive' ▸ List.mem_cons_self .., by rw [hrec]⟩, hok, ?_⟩
  rw [hrec]
  exact ⟨(congrArg State.defaultPol hframe :), rfl, rfl, rfl, rfl, rfl, rfl⟩

theorem cycleLevel_zero (pol : Polarity) (v : Byte) :
    cycleLevel pol v 0 = if v = 0 then offLevel pol else onLevel pol := by
  have hpos : v = 255 ∨ 0 < v.toNat ↔ v ≠ 0 := by bv_omega
  rw [cycleLevel, if_congr hpos rfl rfl, ite_not]

/-- Settles O29: the hard reset leaves the counter at 255 and `current` at the target, so the next TICK is a
wrap tick whose fade step stays there. -/
theorem hardResetStartsACycleAtTheNextTick : Obligations.HardResetStartsACycleAtTheNextTick := by
  intro s p v c rest inv armed hp hl
  obtain ⟨hc, hpin⟩ := lookup_some hl
  have hset := exec_set_of_armed armed p v true
  obtain ⟨shape, hrec⟩ := setDuty_of_active_record (imm := true) (code := .ok) (v := v) inv.pool hp hl
  have htick : (setDuty p.field v true .ok s).tickCount = 255 := by
    rw [setDuty_of_active_eq hp hl]
    rfl
  obtain ⟨u, hstep, hcount, hfaded, hlevel⟩ := step_wrapTick (exec_keeps_inv inv hset)
    ((setDuty_armed ..).trans armed) htick (shape.walks_eq.2 ▸ hc) rest
  have hcurrent : ((setDuty p.field v true .ok s).record c).fade.current = v := by
    rw [hrec]
    simp [Channel.fade, fadeStep]
  refine ⟨_, u, hset, hstep, hcount, by rw [hfaded, hcurrent], ?_⟩
  rw [hcurrent, hrec, ← cycleLevel_zero, hpin] at hlevel
  exact hlevel

end Sys2Proof.Machine
end

section
/-! SUPPORT. What one TICK does (spec/42_multiplexer.md R170 to R174): the fields it writes, the channels it
writes a level for, and the OUT bits and pins those writes reach. -/

namespace Sys2Proof.Machine

/-! ### The step that takes a TICK -/

theorem activeWalk_withArrivals (s : State) (es : List Input) (n : Nat) :
    activeWalk (s.withArrivals es n) = activeWalk s := (KeepsShape.withArrivals s es n).walks_eq.2

theorem wrapTick_withArrivals (s : State) (es : List Input) (n : Nat) :
    wrapTick (s.withArrivals es n) = (wrapTick s).withArrivals es n := by
  rw [wrapTick, activeWalk_withArrivals]
  exact List.foldl_hom (State.withArrivals · es n) (g₁ := wrapChannel) fun _ _ => rfl

theorem thresholdTick_withArrivals (s : State) (es : List Input) (n : Nat) :
    thresholdTick (s.withArrivals es n) = (thresholdTick s).withArrivals es n := by
  rw [thresholdTick, activeWalk_withArrivals]
  refine List.foldl_hom (State.withArrivals · es n) (g₁ := thresholdChannel) fun u c => ?_
  exact (apply_ite (State.withArrivals · es n) _ (drive c false u) u).symm

/-- A TICK does not read what else waits at the ports. -/
theorem tickStep_withArrivals (s : State) (es : List Input) (n : Nat) :
    tickStep (s.withArrivals es n) = (tickStep s).withArrivals es n := by
  have wrap := wrapTick_withArrivals s.countTick es n
  have threshold := thresholdTick_withArrivals s.countTick es n
  unfold tickStep
  rw [apply_ite (State.withArrivals · es n), apply_ite (State.withArrivals · es n), ← wrap, ← threshold]
  rfl

theorem step_tick {s : State} {rest : List Input} (legal : s.cfg.legal = true)
    (waiting : s.inputs = .tick :: rest) :
    step s = .next ((tickStep s).withArrivals rest s.arbitrations) := by
  rw [step_eq_takeInput legal waiting, ← tickStep_withArrivals]
  rfl

theorem tickStep_queueTicks (n : Nat) (s : State) :
    tickStep (s.queueTicks n) = (tickStep s).queueTicks n := by
  have hinputs : (tickStep s).inputs = s.inputs :=
    tickStep_keeps State.inputs (fun _ => rfl) (fun _ _ => rfl) (fun _ _ _ => rfl) s
  have harb : (tickStep s).arbitrations = s.arbitrations :=
    tickStep_keeps State.arbitrations (fun _ => rfl) (fun _ _ => rfl) (fun _ _ _ => rfl) s
  refine (tickStep_withArrivals s (List.replicate n .tick ++ s.inputs) s.arbitrations).trans ?_
  rw [← harb, ← hinputs]
  rfl

/-- One of `n + 1` waiting TICKs taken (R52, R170). -/
theorem step_queueTicks (n : Nat) {s : State} (legal : s.cfg.legal = true) :
    step (s.queueTicks (n + 1)) = .next ((tickStep s).queueTicks n) :=
  (step_eq_takeInput (s := s.queueTicks (n + 1)) legal rfl).trans
    (congrArg Host.Outcome.next (tickStep_queueTicks n s))

theorem run_succ_of_step {M : Host.Core} {s t : M.State} (h : M.step s = .next t) (n : Nat) :
    M.run (n + 1) s = M.run n t := by
  rw [Host.Core.run, h]

/-- TICKs taken one after the other leave what waited behind them. -/
theorem run_queueTicks (n : Nat) {s : State} (legal : s.cfg.legal = true) :
    Host.Core.run Sys2Proof.core n (s.queueTicks n) = .next (tickStep^[n] s) := by
  induction n generalizing s with
  | zero => rfl
  | succ n ih =>
    have hcfg : (tickStep s).cfg = s.cfg := (emits_tickStep s).1
    rw [Function.iterate_succ_apply, ← ih (hcfg ▸ legal)]
    exact run_succ_of_step (M := Sys2Proof.core) (step_queueTicks n legal) n

/-! ### What a TICK writes -/

/-- A TICK writes the pool, the counter, OUT and the trace only (R170). -/
theorem tickStep_frame (s : State) :
    { tickStep s with pool := s.pool, tickCount := s.tickCount, out := s.out, trace := s.trace } = s :=
  tickStep_keeps
    (fun u => { u with pool := s.pool, tickCount := s.tickCount, out := s.out, trace := s.trace })
    (fun _ => rfl) (fun _ _ => rfl) (fun _ _ _ => rfl) s

theorem tickStep_length (s : State) : (tickStep s).pool.length = s.pool.length :=
  tickStep_keeps (fun u => u.pool.length) (fun _ => rfl) (fun u c => State.update_length u c Channel.fade)
    (fun _ _ _ => rfl) s

/-- Of a record a TICK writes `current` only (R170). -/
theorem tickStep_record (s : State) (c : Link) :
    (tickStep s).record c = { s.record c with current := ((tickStep s).record c).current } := by
  have kept : { (tickStep s).record c with current := 0 } = { s.record c with current := 0 } :=
    tickStep_keeps (fun u => { u.record c with current := 0 }) (fun _ => rfl)
      (fun u d => State.record_update_keeps (fun r => { r with current := 0 }) (f := Channel.fade)
        (fun _ => rfl) u d c)
      (fun _ _ _ => rfl) s
  exact congrArg (fun r : Channel => { r with current := ((tickStep s).record c).current }) kept

theorem Inv.afterTick {s : State} (inv : Inv s) : Inv (tickStep s) :=
  have ⟨hstatus, hresp, _⟩ := tickStep_registers s
  inv.of_keepsShape (.tickStep inv.pool) (emits_tickStep s) hstatus hresp

theorem tickStep_tickCount {s : State} (armed : s.armed = true) :
    (tickStep s).tickCount = s.tickCount + 1 := by
  rcases tickStep_cases s with ⟨idle, -⟩ | ⟨-, -, ht⟩ | ⟨-, -, ht⟩
  · exact absurd (armed.symm.trans idle) (by decide)
  · rw [ht]
    exact foldl_keeps State.tickCount wrapChannel (fun _ _ => rfl) ..
  · rw [ht]
    exact foldl_keeps State.tickCount thresholdChannel (fun u c => by rw [thresholdChannel_frame]) ..

theorem tickStep_of_wrap {s : State} (armed : s.armed = true) (full : s.tickCount = 255) :
    tickStep s = wrapTick s.countTick := by
  rcases tickStep_cases s with ⟨idle, -⟩ | ⟨-, -, ht⟩ | ⟨-, hne, -⟩
  · exact absurd (armed.symm.trans idle) (by decide)
  · exact ht
  · exact absurd full hne

theorem tickStep_of_threshold {s : State} (armed : s.armed = true) (below : s.tickCount ≠ 255) :
    tickStep s = thresholdTick s.countTick := by
  rcases tickStep_cases s with ⟨idle, -⟩ | ⟨-, full, -⟩ | ⟨-, -, ht⟩
  · exact absurd (armed.symm.trans idle) (by decide)
  · exact absurd full below
  · exact ht

theorem activeWalk_countTick (s : State) : activeWalk s.countTick = activeWalk s :=
  activeWalk_congr rfl rfl fun _ => rfl

theorem Inv.countTick {s : State} (inv : Inv s) : Inv s.countTick :=
  inv.of_keepsShape (.of_pool_eq rfl rfl rfl rfl) (.of_eq rfl rfl rfl rfl) rfl rfl

/-! ### Levels written to the pins of a list of channels -/

/-- One write to the pin of each channel of a list (R175). -/
def State.writes (s : State) (S : List Link) (lvl : Link → Level) : List Output :=
  S.map fun c => .gpioWrite (s.record c).reg (s.record c).mask (lvl c)

/-- The level a wrap tick drives a channel at: off where the faded `current` is 0 (R172). -/
def State.wrapLevel (s : State) (c : Link) : Level :=
  if (s.record c).fade.current = 0 then offLevel (s.record c).pol else onLevel (s.record c).pol

/-- Whether the next tick is the off-edge of a channel (R173). -/
abbrev State.offEdge (s : State) (c : Link) : Prop :=
  (s.record c).current ≠ 0 ∧ (s.record c).current ≠ 255 ∧ s.tickCount + 1 = (s.record c).current

/-- The active channels that the next tick turns off, in list order (R173). -/
def State.offEdges (s : State) : List Link :=
  (activeWalk s).filter fun c => decide (s.offEdge c)

theorem mem_offEdges {s : State} {c : Link} : c ∈ s.offEdges ↔ c ∈ activeWalk s ∧ s.offEdge c := by
  rw [State.offEdges, List.mem_filter, decide_eq_true_eq]

/-- A wrap tick writes one level for every active channel (R172). -/
theorem Inv.wrapTick_writes {s : State} (inv : Inv s) (armed : s.armed = true)
    (full : s.tickCount = 255) : (tickStep s).trace = s.trace ++ s.writes (activeWalk s) s.wrapLevel := by
  have hwrites : (activeWalk s).map (fun c => wrapEvent s.cfg (s.record c)) =
      s.writes (activeWalk s) s.wrapLevel := List.map_congr_left fun c hc => inv.wrapEvent_eq hc
  rw [tickStep_of_wrap armed full, wrapTick, activeWalk_countTick, ← hwrites]
  exact foldl_wrapChannel_trace s.countTick inv.pool.activeNodup
    fun c hc => (inv.pool.inRange_of_active hc).2

/-- Any other tick writes "off" for the channels whose `current` the counter reaches (R173). -/
theorem Inv.thresholdTick_writes {s : State} (inv : Inv s) (armed : s.armed = true)
    (below : s.tickCount ≠ 255) :
    (tickStep s).trace = s.trace ++ s.writes s.offEdges (fun c => offLevel (s.record c).pol) := by
  have hevents : ∀ S : List Link, (∀ c ∈ S, c ∈ activeWalk s) →
      S.flatMap (fun c => thresholdEvent s.cfg (s.tickCount + 1) (s.record c)) =
        s.writes (S.filter fun c => decide (s.offEdge c)) (fun c => offLevel (s.record c).pol) := by
    intro S hS
    induction S with
    | nil => rfl
    | cons c S ih =>
      obtain ⟨hc, hS⟩ := List.forall_mem_cons.mp hS
      obtain ⟨ha, hm⟩ := Params.portBits_of_pinOf inv.legal (inv.pool.activeMapped c hc).2
      rw [List.flatMap_cons, ih hS, thresholdEvent, ha, hm, List.filter_cons]
      split_ifs with hedge hdec hdec
      · rfl
      · exact absurd (decide_eq_true hedge) hdec
      · exact absurd (of_decide_eq_true hdec) hedge
      · rfl
  rw [tickStep_of_threshold armed below, thresholdTick, activeWalk_countTick, State.offEdges,
    ← hevents _ fun _ hc => hc]
  exact foldl_thresholdChannel_trace (activeWalk s) s.countTick

/-- A bit that some event of a sequence drives, and every event that drives it to one level, holds it. -/
theorem outBit_replay_of_uniform {s : State} {es : List Output} {b j : Nat} {l : Level}
    (hwf : Memory.wf s.out = true) (hfit : ∀ e ∈ es, e.fitsPorts s.cfg)
    (driven : ∃ e ∈ es, e.drives b j)
    (uniform : ∀ a m k, .gpioWrite a m k ∈ es → (Output.gpioWrite a m k).drives b j → k = l) :
    (s.replay es).outBit b j = decide (l = .high) := by
  induction es generalizing s with
  | nil => exact absurd driven (by simp)
  | cons e es ih =>
    obtain ⟨he, hes⟩ := List.forall_mem_cons.mp hfit
    rw [← List.singleton_append, replay_append]
    by_cases later : ∃ f ∈ es, f.drives b j
    · exact ih (replay_wf hwf _) hes later fun a m k hk => uniform a m k (List.mem_cons_of_mem _ hk)
    · have undriven : ∀ f ∈ es, ¬ f.drives b j := fun f hf hd => later ⟨f, hf, hd⟩
      have hd : e.drives b j := by simpa [later] using driven
      rw [outBit_replay_of_undriven (replay_wf hwf _) hes undriven]
      cases e with
      | gpioWrite a m k =>
        rw [← uniform a m k (List.mem_cons_self ..) hd]
        exact (outBit_replay_one hwf he b j).trans (if_pos hd)
      | pinDir _ _ => exact hd.elim
      | timerReset => exact hd.elim

/-- OUT after a TICK is what its events make of it (R41). -/
theorem tickStep_replays {s : State} {es : List Output} (htrace : (tickStep s).trace = s.trace ++ es) :
    (∀ e ∈ es, e.fitsPorts s.cfg) ∧ ∀ b j, (tickStep s).outBit b j = (s.replay es).outBit b j := by
  obtain ⟨hcfg, fs, hfit, hfs, hout, -⟩ := emits_tickStep s
  obtain rfl := List.append_cancel_left (hfs.symm.trans htrace)
  have hresets := tickStep_keeps State.resets (fun _ => rfl) (fun _ _ => rfl) (fun _ _ _ => rfl) s
  exact ⟨hfit, outBit_congr (s := s.replay fs) hcfg hresets hout⟩

/-- The bit of an active channel's pin belongs to that channel alone (R9, R28). -/
theorem Inv.eq_of_shared_bit {s : State} (inv : Inv s) {c d : Link} (hc : c ∈ activeWalk s)
    (hd : d ∈ activeWalk s) {j : Nat} (hj : (s.record c).mask.testBit j = true)
    (hdj : (s.record c).reg = (s.record d).reg ∧ (s.record d).mask.testBit j = true) : d = c := by
  by_contra hdc
  exact Params.pinOf_disjoint inv.legal (inv.pool.activeMapped c hc).2 (inv.pool.activeMapped d hd).2
    (inv.pool.pin_ne hc hd hdc).symm hj hdj

section
variable {s : State} {S : List Link} {lvl : Link → Level}

/-- The bits that no listed channel's pin is keep their level. -/
theorem tickStep_outBit_of_unwritten (inv : Inv s)
    (htrace : (tickStep s).trace = s.trace ++ s.writes S lvl) {b j : Nat}
    (h : ∀ c ∈ S, ¬ (b = (s.record c).reg ∧ (s.record c).mask.testBit j = true)) :
    (tickStep s).outBit b j = s.outBit b j := by
  obtain ⟨hfit, hout⟩ := tickStep_replays htrace
  rw [hout, outBit_replay_of_undriven inv.forms.outWf hfit]
  intro e he
  obtain ⟨c, hc, rfl⟩ := List.mem_map.mp he
  exact h c hc

/-- After a TICK the pin of a channel it wrote is at the level written, and any other active channel's pin is
as before. -/
theorem tickStep_pinLevel (inv : Inv s) (htrace : (tickStep s).trace = s.trace ++ s.writes S lvl)
    (hS : ∀ c ∈ S, c ∈ activeWalk s) {c : Link} (hc : c ∈ activeWalk s) :
    (tickStep s).pinLevel (s.record c).pin =
      if c ∈ S then some (lvl c) else s.pinLevel (s.record c).pin := by
  obtain ⟨-, hmapped⟩ := inv.pool.activeMapped c hc
  obtain ⟨-, i, -, hmask⟩ := Params.pinOf_fits inv.legal hmapped
  have hbit : (s.record c).mask.testBit i = true := by rw [hmask, Nat.testBit_two_pow_self]
  rw [hmask] at hmapped
  have hmapped' : (tickStep s).cfg.pinOf (s.record c).pin = some ((s.record c).reg, 2 ^ i) := by
    rw [(emits_tickStep s).1, hmapped]
  obtain ⟨hfit, hout⟩ := tickStep_replays htrace
  rw [pinLevel_of_outBit hmapped, pinLevel_of_outBit hmapped']
  by_cases hcS : c ∈ S
  · rw [if_pos hcS, hout, outBit_replay_of_uniform (l := lvl c) inv.forms.outWf hfit
      ⟨_, List.mem_map_of_mem hcS, rfl, hbit⟩, level_of_high]
    intro a m k hk hd
    obtain ⟨d, hdS, hwrite⟩ := List.mem_map.mp hk
    rw [← hwrite] at hd
    obtain rfl := inv.eq_of_shared_bit hc (hS d hdS) hbit hd
    exact (Output.gpioWrite.inj hwrite).2.2.symm
  · rw [if_neg hcS, tickStep_outBit_of_unwritten inv htrace fun d hdS hd =>
      hcS (inv.eq_of_shared_bit hc (hS d hdS) hbit hd ▸ hdS)]

end

/-! ### Records and levels after each kind of tick -/

section
variable {s : State} {c : Link}

/-- A wrap tick moves every active channel's `current` one fade step (R172). -/
theorem Inv.wrapTick_record (inv : Inv s) (armed : s.armed = true) (full : s.tickCount = 255)
    (hc : c.toNat < s.cfg.nCh) :
    (tickStep s).record c = if c ∈ activeWalk s then (s.record c).fade else s.record c := by
  rw [tickStep_of_wrap armed full, wrapTick, activeWalk_countTick]
  exact foldl_wrapChannel_record s.countTick c inv.pool.activeNodup (inv.pool.size.symm ▸ hc)

theorem Inv.wrapTick_record_active (inv : Inv s) (armed : s.armed = true) (full : s.tickCount = 255)
    (hc : c ∈ activeWalk s) : (tickStep s).record c = (s.record c).fade := by
  rw [inv.wrapTick_record armed full (inv.lt_of_active hc), if_pos hc]

theorem Inv.wrapTick_level (inv : Inv s) (armed : s.armed = true) (full : s.tickCount = 255)
    (hc : c ∈ activeWalk s) : (tickStep s).pinLevel (s.record c).pin = some (s.wrapLevel c) := by
  rw [tickStep_of_wrap armed full]
  exact wrapTick_pinLevel inv.countTick ((activeWalk_countTick s).symm ▸ hc)

/-- The level written, from the `current` the tick leaves (R172). -/
theorem Inv.wrapLevel_eq (inv : Inv s) (armed : s.armed = true) (full : s.tickCount = 255)
    (hc : c ∈ activeWalk s) : s.wrapLevel c =
      if ((tickStep s).record c).current = 0 then offLevel (s.record c).pol
        else onLevel (s.record c).pol := by
  rw [inv.wrapTick_record_active armed full hc, State.wrapLevel]

/-- A tick that is no wrap tick changes no record (R173). -/
theorem thresholdTick_pool (armed : s.armed = true) (below : s.tickCount ≠ 255) :
    (tickStep s).pool = s.pool := by
  rw [tickStep_of_threshold armed below]
  exact foldl_thresholdChannel_pool (activeWalk s.countTick) s.countTick

theorem Inv.thresholdTick_level (inv : Inv s) (armed : s.armed = true) (below : s.tickCount ≠ 255)
    (hc : c ∈ activeWalk s) : (tickStep s).pinLevel (s.record c).pin =
      if s.offEdge c then some (offLevel (s.record c).pol) else s.pinLevel (s.record c).pin := by
  rw [tickStep_pinLevel inv (inv.thresholdTick_writes armed below) (fun d hd => (mem_offEdges.mp hd).1) hc,
    if_congr (mem_offEdges.trans (and_iff_right hc)) rfl rfl]

end

end Sys2Proof.Machine
end

section
/-! The statements about the duty-cycle multiplexer (spec/42_multiplexer.md): pin levels, one TICK, and the 256
TICKs of a cycle. -/

namespace Sys2Proof.Machine

/-! ### One TICK -/

/-- Settles O42: the two functions' tables. -/
theorem pinLevelsPerPolarity : Obligations.PinLevelsPerPolarity := ⟨rfl, rfl, rfl, rfl⟩

/-- Settles O43: the counter is a byte, so its sum wraps. -/
theorem tickAdvancesTheCounterModulo256 : Obligations.TickAdvancesTheCounterModulo256 := by
  intro s rest legal armed waiting
  refine ⟨_, step_tick legal waiting, ?_⟩
  calc (tickStep s).tickCount.toNat = (s.tickCount + 1).toNat := by rw [tickStep_tickCount armed]
    _ = (s.tickCount.toNat + 1) % 256 := BitVec.toNat_add ..

/-- Settles O44: a TICK is made of counting, fade steps and pin writes, none of which writes anything else. -/
theorem tickWritesOnlyCounterCurrentsAndPins : Obligations.TickWritesOnlyCounterCurrentsAndPins := fun s =>
  ⟨fun idle => by rw [tickStep, idle]; rfl, tickStep_length s, tickStep_record s, tickStep_frame s⟩

/-- Settles O45: one write per active channel, each to a bit of its own. -/
theorem wrapTickFadesAndDrivesEveryChannel : Obligations.WrapTickFadesAndDrivesEveryChannel := by
  intro s rest inv armed full waiting
  have hlevel {c : Link} (hc : c ∈ activeWalk s) := inv.wrapLevel_eq armed full hc
  have hwrites := inv.wrapTick_writes armed full
  refine ⟨_, step_tick inv.legal waiting, ?_, rfl, fun d hd => inv.wrapTick_record armed full hd,
    tickStep_length s, ?_, fun c hc => ?_, fun b j hbit => tickStep_outBit_of_unwritten inv hwrites hbit, ?_⟩
  · calc (tickStep s).tickCount = s.tickCount + 1 := tickStep_tickCount armed
      _ = 0 := by rw [full]; rfl
  · refine hwrites.trans (congrArg (s.trace ++ ·) (List.map_congr_left fun c hc => ?_))
    rw [hlevel hc]
    rfl
  · exact (inv.wrapTick_level armed full hc).trans (congrArg some (hlevel hc))
  · exact congrArg (State.withArrivals · s.inputs s.arbitrations) (tickStep_frame s)

/-- Settles O46: only the off-edges of the tick are written, each to a bit of its own. -/
theorem thresholdTickTurnsOffAtCurrent : Obligations.ThresholdTickTurnsOffAtCurrent := by
  intro s rest inv armed below waiting
  have hwrites := inv.thresholdTick_writes armed below
  have hpool := thresholdTick_pool armed below
  refine ⟨_, step_tick inv.legal waiting, tickStep_tickCount armed, hpool, rfl, hwrites,
    fun c hc hzero hfull hreached => ?_, fun b j hbit => ?_, ?_⟩
  · exact (inv.thresholdTick_level armed below hc).trans (if_pos ⟨hzero, hfull, hreached⟩)
  · refine tickStep_outBit_of_unwritten inv hwrites fun c hc => ?_
    obtain ⟨hactive, -, hfull, hreached⟩ := mem_offEdges.mp hc
    exact hbit c hactive hfull hreached
  · have hframe := congrArg (State.withArrivals · s.inputs s.arbitrations) (tickStep_frame s)
    rw [← hpool] at hframe
    exact hframe

/-! ### The ticks of one cycle -/

/-- What holds `k` ticks after the wrap tick that left `w`, with no command between (R176): the counter is at
`k`, and the channels are as the wrap tick left them. -/
structure CycleTick (w : State) (k : Nat) (u : State) : Prop where
  inv : Inv u
  armed : u.armed = true
  counter : u.tickCount = BitVec.ofNat 8 k
  pool : u.pool = w.pool
  active : activeWalk u = activeWalk w

section
variable {w u : State} {k : Nat}

theorem CycleTick.record (h : CycleTick w k u) (c : Link) : u.record c = w.record c :=
  State.record_congr h.pool c

theorem CycleTick.below (h : CycleTick w k u) (hk : k < 255) : u.tickCount ≠ 255 := by
  rw [h.counter]
  bv_omega

theorem CycleTick.next (h : CycleTick w k u) (hk : k < 255) : CycleTick w (k + 1) (tickStep u) where
  inv := h.inv.afterTick
  armed := (tickStep_registers u).2.2.trans h.armed
  counter := by rw [tickStep_tickCount h.armed, h.counter, BitVec.ofNat_add]; rfl
  pool := (thresholdTick_pool h.armed (h.below hk)).trans h.pool
  active := (activeWalk_tickStep u).trans h.active

/-- The off-edge of a channel driven at 1 to 254 is the tick that leaves the counter there, and other channels
have none (R173). -/
theorem CycleTick.offEdge_iff (h : CycleTick w k u) (hk : k < 255) (c : Link) :
    u.offEdge c ↔ (u.record c).current ≠ 0 ∧ (u.record c).current ≠ 255 ∧
      (u.record c).current.toNat = k + 1 := by
  rw [State.offEdge, h.counter]
  refine and_congr_right fun _ => and_congr_right fun _ => ?_
  constructor <;> intro he <;> bv_omega

/-- The tick that leaves the counter at `k + 1` makes the next level of the waveform (R176). -/
theorem cycleLevel_succ {v : Byte} {k : Nat} (pol : Polarity) :
    cycleLevel pol v (k + 1) =
      if v ≠ 0 ∧ v ≠ 255 ∧ v.toNat = k + 1 then offLevel pol else cycleLevel pol v k := by
  by_cases hedge : v ≠ 0 ∧ v ≠ 255 ∧ v.toNat = k + 1
  · obtain ⟨-, hfull, hreached⟩ := id hedge
    rw [if_pos hedge, cycleLevel, if_neg (not_or.mpr ⟨hfull, by omega⟩)]
  · rw [if_neg hedge, cycleLevel, cycleLevel]
    refine if_congr ?_ rfl rfl
    by_cases hfull : v = 255
    · simp [hfull]
    · have hne : v.toNat ≠ k + 1 := fun he => hedge ⟨by bv_omega, hfull, he⟩
      simp only [hfull, false_or]
      omega

end

section
variable {s : State} {c : Link}

theorem Inv.cycleTick (inv : Inv s) (armed : s.armed = true) (full : s.tickCount = 255) (k : Nat)
    (hk : k ≤ 255) : CycleTick (tickStep s) k (tickStep^[k + 1] s) := by
  induction k with
  | zero =>
    refine ⟨inv.afterTick, (tickStep_registers s).2.2.trans armed, ?_, rfl, rfl⟩
    calc (tickStep s).tickCount = s.tickCount + 1 := tickStep_tickCount armed
      _ = 0 := by rw [full]; rfl
  | succ k ih =>
    rw [Function.iterate_succ_apply']
    exact (ih (by omega)).next (by omega)

/-- Through the cycle an active channel stays active, with the record of the wrap tick's fade step. -/
theorem Inv.cycle_channel (inv : Inv s) (armed : s.armed = true) (full : s.tickCount = 255)
    (hc : c ∈ activeWalk s) (k : Nat) (hk : k ≤ 255) :
    c ∈ activeWalk (tickStep^[k + 1] s) ∧ (tickStep^[k + 1] s).record c = (s.record c).fade := by
  have here := inv.cycleTick armed full k hk
  refine ⟨?_, (here.record c).trans (inv.wrapTick_record_active armed full hc)⟩
  rwa [here.active, activeWalk_tickStep]

theorem Inv.cycle_level (inv : Inv s) (armed : s.armed = true) (full : s.tickCount = 255)
    (hc : c ∈ activeWalk s) (k : Nat) (hk : k ≤ 255) :
    (tickStep^[k + 1] s).pinLevel (s.record c).pin =
      some (cycleLevel (s.record c).pol (s.record c).fade.current k) := by
  induction k with
  | zero => rw [cycleLevel_zero]; exact inv.wrapTick_level armed full hc
  | succ k ih =>
    have here := inv.cycleTick armed full k (by omega)
    obtain ⟨hactive, hrecord⟩ := inv.cycle_channel armed full hc k (by omega)
    have hlevel := here.inv.thresholdTick_level here.armed (here.below hk) hactive
    rw [if_congr (here.offEdge_iff hk c) rfl rfl, hrecord] at hlevel
    rw [Function.iterate_succ_apply', cycleLevel_succ, apply_ite some, ← ih (by omega)]
    exact hlevel

end

/-- Settles O47: the wrap tick makes the level of `k = 0`, and each later tick the next level. -/
theorem waveformOfOneCycle : Obligations.WaveformOfOneCycle := fun _ _ k inv armed full hc hk =>
  ⟨_, run_queueTicks (k + 1) inv.legal, (inv.cycleTick armed full k hk).counter,
    inv.cycle_level armed full hc k hk⟩

/-! ### Pin writes in one cycle -/

/-- Whether an event is a write to the pin at a register and mask (R177). -/
def Output.writesPin (a m : Nat) (e : Output) : Bool :=
  decide (e = .gpioWrite a m .low ∨ e = .gpioWrite a m .high)

theorem writesPin_gpioWrite {a m b n : Nat} {l : Level} :
    (Output.gpioWrite b n l).writesPin a m = true ↔ b = a ∧ n = m := by
  cases l <;> simp [Output.writesPin]

/-- The writes to the pin of a channel driven at `v`, from the wrap tick to the tick that leaves the counter at
`k`: the wrap tick's, and the off-edge's once the counter has reached `v` (R177). -/
def cycleWrites (v : Byte) (k : Nat) : Nat := if v ≠ 0 ∧ v ≠ 255 ∧ v.toNat ≤ k then 2 else 1

theorem cycleWrites_zero (v : Byte) : cycleWrites v 0 = 1 := by
  refine if_neg ?_
  rintro ⟨hne, -, hle⟩
  exact hne (by bv_omega)

theorem cycleWrites_succ (v : Byte) (k : Nat) :
    cycleWrites v (k + 1) = cycleWrites v k + if v ≠ 0 ∧ v ≠ 255 ∧ v.toNat = k + 1 then 1 else 0 := by
  unfold cycleWrites
  by_cases hedged : v ≠ 0 ∧ v ≠ 255
  · obtain ⟨hzero, hfull⟩ := hedged
    simp only [hzero, hfull, ne_eq, not_false_eq_true, true_and]
    split_ifs <;> omega
  · simp only [← and_assoc, hedged, false_and, if_false]

theorem cycleWrites_whole (v : Byte) : cycleWrites v 255 = if v = 0 ∨ v = 255 then 1 else 2 := by
  have hedged : v ≠ 0 ∧ v ≠ 255 ∧ v.toNat ≤ 255 ↔ ¬ (v = 0 ∨ v = 255) := by
    rw [not_or]
    exact and_congr_right fun _ => and_iff_left (by bv_omega)
  rw [cycleWrites, if_congr hedged rfl rfl, ite_not]

section
variable {s : State} {c : Link}

/-- Pins and their registers and masks correspond one to one on ACTIVE (R9, R28). -/
theorem Inv.eq_of_same_pin {d : Link} (inv : Inv s) (hc : c ∈ activeWalk s) (hd : d ∈ activeWalk s)
    (same : (s.record d).reg = (s.record c).reg ∧ (s.record d).mask = (s.record c).mask) : d = c := by
  by_contra hdc
  have hmapped := (inv.pool.activeMapped d hd).2
  rw [same.1, same.2] at hmapped
  exact inv.pool.pin_ne hc hd hdc
    (Params.pinOf_injective inv.legal hmapped (inv.pool.activeMapped c hc).2)

/-- Among one write to each of some active channels, one is a listed channel's. -/
theorem Inv.countP_writes {S : List Link} (inv : Inv s) (lvl : Link → Level) (hc : c ∈ activeWalk s)
    (hS : ∀ d ∈ S, d ∈ activeWalk s) (hnodup : S.Nodup) :
    (s.writes S lvl).countP (Output.writesPin (s.record c).reg (s.record c).mask) =
      if c ∈ S then 1 else 0 := by
  rw [State.writes, List.countP_map, ← hnodup.count, List.count]
  refine List.countP_congr fun d hd => ?_
  rw [Function.comp_apply, writesPin_gpioWrite, beq_iff_eq]
  exact ⟨inv.eq_of_same_pin hc (hS d hd), fun e => e ▸ ⟨rfl, rfl⟩⟩

theorem Inv.cycle_writes (inv : Inv s) (armed : s.armed = true) (full : s.tickCount = 255)
    (hc : c ∈ activeWalk s) (k : Nat) (hk : k ≤ 255) :
    ∃ es, (tickStep^[k + 1] s).trace = s.trace ++ es ∧
      es.countP (Output.writesPin (s.record c).reg (s.record c).mask) =
        cycleWrites (s.record c).fade.current k := by
  induction k with
  | zero =>
    refine ⟨_, inv.wrapTick_writes armed full, ?_⟩
    rw [inv.countP_writes _ hc (fun _ hd => hd) inv.pool.activeNodup, if_pos hc, cycleWrites_zero]
  | succ k ih =>
    obtain ⟨es, htrace, hcount⟩ := ih (by omega)
    have here := inv.cycleTick armed full k (by omega)
    obtain ⟨hactive, hrecord⟩ := inv.cycle_channel armed full hc k (by omega)
    have hwrites := here.inv.thresholdTick_writes here.armed (here.below hk)
    have hedges := here.inv.countP_writes (fun d => offLevel ((tickStep^[k + 1] s).record d).pol) hactive
      (fun d hd => (mem_offEdges.mp hd).1) (here.inv.pool.activeNodup.filter _)
    rw [if_congr (mem_offEdges.trans ((and_iff_right hactive).trans (here.offEdge_iff hk c))) rfl rfl,
      hrecord] at hedges
    rw [htrace, List.append_assoc, ← Function.iterate_succ_apply' tickStep] at hwrites
    refine ⟨_, hwrites, ?_⟩
    rw [List.countP_append, hcount, cycleWrites_succ]
    exact congrArg (_ + ·) hedges

end

/-- Settles O49: the wrap tick writes every active pin once, and the cycle holds at most one off-edge. -/
theorem oneOrTwoPinWritesPerCycle : Obligations.OneOrTwoPinWritesPerCycle := by
  intro s c inv armed full hc
  obtain ⟨-, hrecord⟩ := inv.cycle_channel armed full hc 255 le_rfl
  obtain ⟨es, htrace, hcount⟩ := inv.cycle_writes armed full hc 255 le_rfl
  refine ⟨_, run_queueTicks 256 inv.legal, ?_⟩
  rw [htrace, List.drop_left, hrecord, ← cycleWrites_whole]
  exact hcount

end Sys2Proof.Machine
end

section
/-! SUPPORT. The fade step and the fade rate (spec/43_fade.md R190 to R194): the value after a step on each
side of the target, the distance and the steps left, and what a run of TICKs does to a record. -/

namespace Sys2Proof.Machine

/-! ### One fade step -/

section
variable (t cur up dn : Byte)

@[simp] theorem fadeStep_self : fadeStep t t up dn = t := if_pos rfl

variable {t cur}

/-- On the way up a step stops at the target and does not wrap (R190). -/
theorem fadeStep_toNat_of_lt (h : cur.toNat < t.toNat) :
    (fadeStep t cur up dn).toNat = if up = 0 then t.toNat else min t.toNat (cur.toNat + up.toNat) := by
  have hne : t ≠ cur := fun e => absurd (congrArg BitVec.toNat e) (by omega)
  have ht := t.isLt
  rw [fadeStep, if_neg hne, if_pos h]
  split_ifs
  · rfl
  · rw [BitVec.toNat_ofNat, Nat.mod_eq_of_lt (by omega)]

/-- On the way down a step stops at the target; the truncated difference meets the clip first (R190). -/
theorem fadeStep_toNat_of_gt (h : t.toNat < cur.toNat) :
    (fadeStep t cur up dn).toNat = if dn = 0 then t.toNat else max t.toNat (cur.toNat - dn.toNat) := by
  have hne : t ≠ cur := fun e => absurd (congrArg BitVec.toNat e) (by omega)
  have hcur := cur.isLt
  rw [fadeStep, if_neg hne, if_neg (by omega)]
  split_ifs
  · rfl
  · rw [BitVec.toNat_ofNat, Nat.mod_eq_of_lt (by omega)]
    omega

theorem fadeStep_between_of_le (h : cur.toNat ≤ t.toNat) :
    cur.toNat ≤ (fadeStep t cur up dn).toNat ∧ (fadeStep t cur up dn).toNat ≤ t.toNat := by
  rcases h.eq_or_lt with heq | hlt
  · obtain rfl := BitVec.eq_of_toNat_eq heq
    simp
  · rw [fadeStep_toNat_of_lt up dn hlt]
    split_ifs <;> omega

theorem fadeStep_between_of_ge (h : t.toNat ≤ cur.toNat) :
    t.toNat ≤ (fadeStep t cur up dn).toNat ∧ (fadeStep t cur up dn).toNat ≤ cur.toNat := by
  rcases h.eq_or_lt with heq | hlt
  · obtain rfl := BitVec.eq_of_toNat_eq heq
    simp
  · rw [fadeStep_toNat_of_gt up dn hlt]
    split_ifs <;> omega

end

/-! ### Distance and steps left -/

section
variable {t cur : Byte} (up dn : Byte)

theorem fadeDistance_eq_zero : fadeDistance t cur = 0 ↔ t = cur := by
  rw [fadeDistance, BitVec.toNat_eq]
  omega

/-- A step takes the rate off the distance, or all of it where the rate is 0: the one form of both directions
(R190). -/
theorem fadeDistance_fadeStep :
    fadeDistance t (fadeStep t cur up dn) =
      if fadeRateToward t cur up dn = 0 then 0
      else fadeDistance t cur - (fadeRateToward t cur up dn).toNat := by
  unfold fadeDistance fadeRateToward
  rcases lt_trichotomy cur.toNat t.toNat with hlt | heq | hgt
  · rw [fadeStep_toNat_of_lt up dn hlt, if_pos hlt]
    split_ifs <;> omega
  · obtain rfl := BitVec.eq_of_toNat_eq heq
    simp
  · rw [fadeStep_toNat_of_gt up dn hgt, if_neg hgt.not_gt]
    split_ifs <;> omega

/-- A step that does not arrive stays on its side of the target (R191). -/
theorem fadeRateToward_fadeStep (h : t ≠ fadeStep t cur up dn) :
    fadeRateToward t (fadeStep t cur up dn) up dn = fadeRateToward t cur up dn := by
  have hne : t.toNat ≠ (fadeStep t cur up dn).toNat := fun e => h (BitVec.eq_of_toNat_eq e)
  refine if_congr ?_ rfl rfl
  rcases le_total cur.toNat t.toNat with hle | hge
  · have hbetween := fadeStep_between_of_le up dn hle
    omega
  · have hbetween := fadeStep_between_of_ge up dn hge
    omega

theorem fadeStep_ne_self (h : cur ≠ t) : fadeStep t cur up dn ≠ cur := by
  intro hstay
  have hdist : fadeDistance t cur ≠ 0 := fun e => h (fadeDistance_eq_zero.mp e).symm
  have hstep := fadeDistance_fadeStep (t := t) (cur := cur) up dn
  rw [hstay] at hstep
  split_ifs at hstep with hrate
  · exact hdist hstep
  · have hpos := BitVec.toNat_pos_of_ne_zero hrate
    omega

@[simp] theorem fadeSteps_self : fadeSteps t t up dn = 0 := if_pos rfl

theorem fadeSteps_of_instant (hne : t ≠ cur) (h : fadeRateToward t cur up dn = 0) :
    fadeSteps t cur up dn = 1 := by
  rw [fadeSteps, if_neg hne, if_pos h]

/-- Law 5 of R191 with Mathlib's rounded-up quotient, arrival among its cases. -/
theorem fadeSteps_of_rate (h : fadeRateToward t cur up dn ≠ 0) :
    fadeSteps t cur up dn = fadeDistance t cur ⌈/⌉ (fadeRateToward t cur up dn).toNat := by
  by_cases heq : t = cur
  · rw [fadeDistance_eq_zero.mpr heq, zero_ceilDiv, fadeSteps, if_pos heq]
  · rw [fadeSteps, if_neg heq, if_neg h, Nat.ceilDiv_eq_add_pred_div]

theorem fadeSteps_eq_zero : fadeSteps t cur up dn = 0 ↔ cur = t := by
  by_cases hrate : fadeRateToward t cur up dn = 0
  · by_cases heq : t = cur
    · simp [heq]
    · simp [fadeSteps_of_instant up dn heq hrate, Ne.symm heq]
  · rw [fadeSteps_of_rate up dn hrate, ← Nat.le_zero,
      ceilDiv_le_iff_le_mul (BitVec.toNat_pos_of_ne_zero hrate), Nat.mul_zero, Nat.le_zero,
      fadeDistance_eq_zero, eq_comm]

/-- Taking the divisor off takes one off the rounded-up quotient. -/
theorem sub_ceilDiv_self (m : Nat) {r : Nat} (hr : 0 < r) : (m - r) ⌈/⌉ r = m ⌈/⌉ r - 1 := by
  refine eq_of_forall_ge_iff fun k => ?_
  calc (m - r) ⌈/⌉ r ≤ k ↔ m - r ≤ r * k := ceilDiv_le_iff_le_mul hr
    _ ↔ m ≤ r * (k + 1) := by rw [Nat.mul_succ, Nat.sub_le_iff_le_add]
    _ ↔ m ⌈/⌉ r ≤ k + 1 := (ceilDiv_le_iff_le_mul hr).symm
    _ ↔ m ⌈/⌉ r - 1 ≤ k := Nat.sub_le_iff_le_add.symm

/-- Every wrap tick off the target leaves one step less to go (R191). -/
theorem fadeSteps_fadeStep :
    fadeSteps t (fadeStep t cur up dn) up dn = fadeSteps t cur up dn - 1 := by
  have hdist := fadeDistance_fadeStep (t := t) (cur := cur) up dn
  by_cases hrate : fadeRateToward t cur up dn = 0
  · rw [if_pos hrate, fadeDistance_eq_zero] at hdist
    rw [← hdist, fadeSteps_self]
    by_cases heq : t = cur
    · rw [← heq, fadeSteps_self]
    · rw [fadeSteps_of_instant up dn heq hrate]
  · rw [if_neg hrate] at hdist
    rw [fadeSteps_of_rate up dn hrate, ← sub_ceilDiv_self _ (BitVec.toNat_pos_of_ne_zero hrate), ← hdist]
    by_cases harrived : t = fadeStep t cur up dn
    · rw [fadeDistance_eq_zero.mpr harrived, zero_ceilDiv, ← harrived, fadeSteps_self]
    · have hside := fadeRateToward_fadeStep up dn harrived
      rw [fadeSteps_of_rate up dn (hside ▸ hrate), hside]

/-- The number of steps counts down to arrival, so `k` steps arrive exactly when `k` is at least it (R191). -/
theorem fadeStep_iterate_eq_target (cur : Byte) (k : Nat) :
    (fun x => fadeStep t x up dn)^[k] cur = t ↔ fadeSteps t cur up dn ≤ k := by
  induction k generalizing cur with
  | zero => rw [Function.iterate_zero_apply, Nat.le_zero, fadeSteps_eq_zero]
  | succ k ih => rw [Function.iterate_succ_apply, ih, fadeSteps_fadeStep, Nat.sub_le_iff_le_add]

end

/-! ### The fade rate -/

section
variable (period : Nat) {d : Duration}

@[simp] theorem fadeRate_zero : fadeRate period 0 = (0, false) := if_pos rfl

theorem fadeRate_of_clamped (hd : d ≠ 0) (h : 255 < 255 * period / d.toNat) :
    fadeRate period d = (255, true) := by
  rw [fadeRate, if_neg hd]
  exact if_pos h

theorem fadeRate_of_fits (hd : d ≠ 0) (h : 255 * period / d.toNat ≤ 255) :
    fadeRate period d = (BitVec.ofNat 8 (255 * period / d.toNat), false) := by
  rw [fadeRate, if_neg hd]
  exact if_neg h.not_gt

theorem fadeRate_toNat_of_fits (hd : d ≠ 0) (h : 255 * period / d.toNat ≤ 255) :
    (fadeRate period d).1.toNat = 255 * period / d.toNat := by
  rw [fadeRate_of_fits period hd h, BitVec.toNat_ofNat, Nat.mod_eq_of_lt (by omega)]

/-- A rate that is not clamped is rounded down, so over the duration it makes at most a full ramp (R194). -/
theorem fadeRate_mul_duration_le (h : (fadeRate period d).2 = false) :
    (fadeRate period d).1.toNat * d.toNat ≤ 255 * period := by
  by_cases hd : d = 0
  · subst hd
    simp
  · have hfits : 255 * period / d.toNat ≤ 255 := by
      by_contra hclamped
      rw [fadeRate_of_clamped period hd (not_le.mp hclamped)] at h
      exact absurd h (by decide)
    rw [fadeRate_toNat_of_fits period hd hfits]
    exact Nat.div_mul_le_self ..

end

/-! ### A run of TICKs -/

/-- Fade steps of a record move its `current` and nothing else. -/
theorem Channel.fade_iterate (n : Nat) (r : Channel) :
    Channel.fade^[n] r =
      { r with current := (fun x => fadeStep r.target x r.up r.down)^[n] r.current } := by
  induction n generalizing r with
  | zero => rfl
  | succ n ih => rw [Function.iterate_succ_apply, ih]; rfl

theorem tickStep_iterate_inputs (n : Nat) (s : State) : (tickStep^[n] s).inputs = s.inputs := by
  induction n generalizing s with
  | zero => rfl
  | succ n ih =>
    exact (ih (tickStep s)).trans
      (tickStep_keeps State.inputs (fun _ => rfl) (fun _ _ => rfl) (fun _ _ _ => rfl) s)

theorem tickStep_armed {s : State} (armed : s.armed = true) : (tickStep s).armed = true := by
  obtain ⟨-, -, harmed⟩ := tickStep_registers s
  exact harmed.trans armed

theorem tickStep_iterate_tickCount (n : Nat) {s : State} (armed : s.armed = true) :
    (tickStep^[n] s).tickCount = s.tickCount + BitVec.ofNat 8 n := by
  induction n generalizing s with
  | zero => exact (BitVec.add_zero _).symm
  | succ n ih =>
    rw [Function.iterate_succ_apply, ih (tickStep_armed armed), tickStep_tickCount armed]
    bv_omega

/-- Among `n` TICKs from a counter at `k` the wrap ticks are `(k + n) / 256`, each one fade step of every
active channel, and the others change no record (R171, R172, R193). -/
theorem Inv.tickStep_iterate_record {s : State} {c : Link} (n : Nat) (inv : Inv s)
    (armed : s.armed = true) (hc : c ∈ activeWalk s) :
    (tickStep^[n] s).record c = Channel.fade^[(s.tickCount.toNat + n) / 256] (s.record c) := by
  induction n generalizing s with
  | zero =>
    rw [Nat.add_zero, Nat.div_eq_of_lt (show s.tickCount.toNat < 256 from s.tickCount.isLt)]
    rfl
  | succ n ih =>
    rw [Function.iterate_succ_apply,
      ih inv.afterTick (tickStep_armed armed) ((activeWalk_tickStep s).symm ▸ hc),
      tickStep_tickCount armed]
    by_cases full : s.tickCount = 255
    · have hwraps : (s.tickCount.toNat + (n + 1)) / 256 = ((s.tickCount + 1).toNat + n) / 256 + 1 := by
        have hcount : s.tickCount.toNat = 255 ∧ (s.tickCount + 1).toNat = 0 := by rw [full]; decide
        omega
      rw [inv.wrapTick_record_active armed full hc, hwraps, Function.iterate_succ_apply]
    · have hcount : (s.tickCount + 1).toNat = s.tickCount.toNat + 1 := by bv_omega
      rw [State.record_congr (thresholdTick_pool armed full) c, hcount, Nat.add_assoc, Nat.add_comm 1]

end Sys2Proof.Machine
end

section
/-! The statements about the fade incrementer (spec/43_fade.md R190 to R194). -/

namespace Sys2Proof.Machine

/-- Settles O37, by the side of the target the value is on. -/
theorem fadeStepFormula : Obligations.FadeStepFormula := by
  intro t cur up dn
  rcases lt_trichotomy cur.toNat t.toNat with hlt | heq | hgt
  · have hne : t ≠ cur := fun e => hlt.ne (congrArg BitVec.toNat e).symm
    rw [if_neg hne, if_pos hlt, fadeStep_toNat_of_lt up dn hlt]
    split_ifs <;> omega
  · obtain rfl := BitVec.eq_of_toNat_eq heq
    simp
  · have hne : t ≠ cur := fun e => hgt.ne (congrArg BitVec.toNat e)
    rw [if_neg hne, if_neg hgt.not_gt, fadeStep_toNat_of_gt up dn hgt]
    split_ifs <;> omega

/-- Settles O38: the distance falls by the rate, so each step leaves one less to go. -/
theorem fadeReachesTheTargetInTheStatedSteps : Obligations.FadeReachesTheTargetInTheStatedSteps :=
  fun _ cur up dn => ⟨fadeStep_between_of_le up dn, fadeStep_between_of_ge up dn,
    fadeStep_ne_self up dn, fadeStep_iterate_eq_target up dn cur⟩

/-- Settles O39, by the branches of `FadeRate`. -/
theorem fadeRateFormula : Obligations.FadeRateFormula := fun period _ =>
  ⟨fun hd => hd ▸ fadeRate_zero period, fadeRate_of_clamped period, fun hd hfits =>
    ⟨fadeRate_toNat_of_fits period hd hfits, congrArg Prod.snd (fadeRate_of_fits period hd hfits)⟩⟩

/-- Settles O40: the rate is rounded down and the number of cycles rounded up. -/
theorem fullRampLastsAtLeastTheDuration : Obligations.FullRampLastsAtLeastTheDuration := by
  intro period d unclamped hrate
  have hpos := BitVec.toNat_pos_of_ne_zero hrate
  have hdown := fadeRate_mul_duration_le period unclamped
  generalize (fadeRate period d).1.toNat = r at hpos hdown ⊢
  have hup : 255 ≤ r * (255 ⌈/⌉ r) := le_smul_ceilDiv hpos
  refine Nat.le_of_mul_le_mul_left ?_ hpos
  calc r * d.toNat ≤ 255 * period := hdown
    _ ≤ r * (255 ⌈/⌉ r) * period := Nat.mul_le_mul_right period hup
    _ = r * ((255 + r - 1) / r * period) := by rw [Nat.ceilDiv_eq_add_pred_div, Nat.mul_assoc]

/-- Settles O41: `256 * n` TICKs hold `n` wrap ticks wherever the counter starts. -/
theorem wholeCyclesMakeOneFadeStepEach : Obligations.WholeCyclesMakeOneFadeStepEach := by
  intro s n c inv armed hc
  have hwraps : (s.tickCount.toNat + 256 * n) / 256 = n := by
    have hlt := s.tickCount.isLt
    omega
  refine ⟨_, run_queueTicks (256 * n) inv.legal, ?_, ?_, tickStep_iterate_inputs _ s⟩
  · rw [inv.tickStep_iterate_record _ armed hc, hwraps, Channel.fade_iterate]
  · rw [tickStep_iterate_tickCount _ armed]
    bv_omega

end Sys2Proof.Machine
end

section
/-! Completion of every command (spec/60_exceptions.md R210): commands write the block and its environment,
never what waits at the ports or the model's own counters. -/

namespace Sys2Proof.Machine

/-! ### What waits at the ports, and the counters -/

/-- The events waiting at the ports and the model's own counters (log entries 1, 18). -/
def State.arrivals (s : State) : List Input × Nat × Nat := (s.inputs, s.resets, s.arbitrations)

theorem State.arrivals_eq_iff {s t : State} :
    t.arrivals = s.arrivals ↔
      t.inputs = s.inputs ∧ t.resets = s.resets ∧ t.arbitrations = s.arbitrations := by
  simp only [State.arrivals, Prod.mk.injEq]

@[simp] theorem finish_arrivals (e : ResultCode) (s : State) : (finish e s).arrivals = s.arrivals := rfl

@[simp] theorem State.updateAll_arrivals (s : State) (S : List Link) (f : Channel → Channel) :
    (s.updateAll S f).arrivals = s.arrivals := by
  simp [State.arrivals]

@[simp] theorem hardReset_arrivals (S : List Link) (s : State) : (hardReset S s).arrivals = s.arrivals := by
  rw [hardReset_eq]
  rfl

@[simp] theorem release_arrivals (c : Link) (s : State) : (release c s).arrivals = s.arrivals := by
  simp [State.arrivals, release]

theorem acquire_arrivals {p v : Byte} {s t : State} {c : Link} (h : acquire p v s = .ok (c, t)) :
    t.arrivals = s.arrivals := by
  obtain ⟨a, m, -, -, -, rfl⟩ := acquire_ok h
  simp [State.arrivals]

/-- A command takes no event from the ports and adds none. -/
theorem CommandEffect.arrivals {s t : State} {i : Instr} (h : CommandEffect s i t) :
    t.arrivals = s.arrivals := by
  cases h with
  | nop => rfl
  | begin q => rfl
  | abort => rfl
  | queryUnknown => rfl
  | queryFound => rfl
  | @rewrite _ _ _ imm => cases imm <;> simp
  | @acquire _ _ _ _ _ imm _ _ _ _ taken => cases imm <;> simp [acquire_arrivals taken]
  | release => simp

/-! ### Completion -/

/-- What only emits events extends the trace. -/
theorem Emits.trace_prefix {s t : State} (h : Emits s t) : s.trace <+: t.trace := by
  obtain ⟨-, es, -, htrace, -, -⟩ := h
  exact ⟨es, htrace.symm⟩

/-- Settles O13: every command has one of the effects, each of which only emits events and leaves the ports
alone. -/
theorem everyCommandCompletes : Obligations.EveryCommandCompletes := by
  intro i s
  obtain ⟨t, hexec, heff⟩ := exec_next i s
  obtain ⟨hinputs, hresets, harbitrations⟩ := State.arrivals_eq_iff.mp heff.arrivals
  obtain ⟨hcfg, -⟩ := heff.emits
  exact ⟨t, hexec, hcfg, hinputs, hresets, harbitrations, heff.emits.trace_prefix⟩

end Sys2Proof.Machine
end

section
/-! Hardware reset (spec/70_reset_and_hazards.md R240): the state an RST leaves, and what port STATUS reads in
it. -/

namespace Sys2Proof.Machine

/-- A waiting RST is taken from any state, and none of its work is left for a later step. -/
theorem step_reset {s : State} {rest : List Input} (legal : s.cfg.legal = true)
    (waiting : s.inputs = .reset :: rest) : step s = .next (hardwareReset { s with inputs := rest }) :=
  step_eq_takeInput legal waiting

/-- RST empties ACTIVE, so STATUS counts no channel whatever the pool held. -/
theorem activeCount_hardwareReset (s : State) : (hardwareReset s).activeCount = 0 :=
  congrArg List.length (activeWalk_of_activeHead_none (hardwareReset_activeHead s))

/-- Every field of STATUS (R37) is the zero of its kind after RST. -/
theorem status_hardwareReset (s : State) : (hardwareReset s).status = 0 := by
  apply BitVec.eq_of_toNat_eq
  rw [status_toNat, activeCount_hardwareReset]
  simp [Polarity.toBit]

/-- Settles O55: RST is PoolInit with the reset registers, and it emits nothing. -/
theorem hardwareResetState : Obligations.HardwareResetState := by
  intro s rest legal waiting
  exact ⟨hardwareReset { s with inputs := rest }, step_reset legal waiting,
    rfl, rfl, rfl, rfl, rfl, rfl, rfl, rfl, status_hardwareReset _, rfl, rfl, rfl⟩

end Sys2Proof.Machine
end

section
/-! The statements about the kinds of step (spec/20_memory.md R52, R53; 60_exceptions.md R210, R214): a TICK, an
RST or no event (log entry 1), a command and a TICK together (log entry 2), and parameters that no step runs on
(log entry 5). -/

namespace Sys2Proof.Machine

/-! ### The branches of a step that take no event -/

theorem step_idle {s : State} (legal : s.cfg.legal = true) (idle : s.inputs = []) : step s = .next s := by
  rw [step, if_pos legal, idle]

theorem step_illegalParameters {s : State} (illegal : s.cfg.legal = false) :
    step s = .refused .illegalParameters := by
  rw [step, if_neg (ne_true_of_eq_false illegal)]

/-! ### A simultaneous arrival -/

theorem settleTogether_commandFirst {s : State} (w : Command) (h : Config.commandFirst s.arbitrations = true) :
    settleTogether w s = { s with arbitrations := s.arbitrations + 1, inputs := .tick :: s.inputs } := by
  rw [settleTogether, if_pos h]

theorem settleTogether_tickFirst {s : State} (w : Command) (h : Config.commandFirst s.arbitrations = false) :
    settleTogether w s = { s with arbitrations := s.arbitrations + 1, inputs := .command w :: s.inputs } := by
  rw [settleTogether, if_neg (ne_true_of_eq_false h)]

/-- The free value of I3 picks the event taken, and the other one is next (R53, R214). -/
theorem takeInput_together (w : Command) (s : State) :
    takeInput (.together w) s =
        commandStep w { s with arbitrations := s.arbitrations + 1, inputs := .tick :: s.inputs } ∨
    takeInput (.together w) s =
        .next (tickStep { s with arbitrations := s.arbitrations + 1, inputs := .command w :: s.inputs }) := by
  cases h : Config.commandFirst s.arbitrations with
  | true =>
    left
    rw [takeInput, if_pos h, settleTogether_commandFirst w h]
  | false =>
    right
    rw [takeInput, if_neg (ne_true_of_eq_false h), settleTogether_tickFirst w h]

/-! ### The step by what waits and by the parameters -/

/-- Settles O10: a waiting event is taken as its own step, and the empty list is the step's idle branch. -/
theorem stepTakesTicksAndResets : Obligations.StepTakesTicksAndResets := by
  intro s rest legal
  exact ⟨fun tick => step_eq_takeInput legal tick, fun reset => step_reset legal reset,
    fun idle => step_idle legal idle⟩

/-- Settles O11: by the two values of the free choice. -/
theorem commandAndTickTogetherGoInOneOfBothOrders :
    Obligations.CommandAndTickTogetherGoInOneOfBothOrders := by
  intro s w rest legal waiting
  rw [step_eq_takeInput legal waiting]
  exact takeInput_together w { s with inputs := rest }

/-- Settles O12: every kind of event has a next state, and the parameters are checked before any event is
taken. -/
theorem stepCompletesExactlyOnLegalParameters : Obligations.StepCompletesExactlyOnLegalParameters := by
  intro s
  refine ⟨fun legal => ?_, step_illegalParameters⟩
  obtain ⟨t, hstep, -⟩ := step_next legal
  exact ⟨t, hstep⟩

end Sys2Proof.Machine
end
